-- ==== Sys2Proof/Word.lean ====
section
/-! DEFINITION. The word types of HUFFCORE and their plainest constants: a byte value is 8 bits
(00_scope.md R6, `W_SYM`), a command word and a response's data are 64 bits (30_encoding.md R70). -/

namespace Sys2Proof

/-- A byte value, or symbol: "opaque 8-bit values" (R6, `W_SYM`). -/
abbrev Byte := BitVec 8

/-- A command word or the data of a response (R70). -/
abbrev Word := BitVec 64

/-- The byte of an unsigned integer below 256. -/
abbrev byteOf (n : Nat) : Byte := BitVec.ofNat 8 n

end Sys2Proof
end

