-- ==== Sys2Proof/Syntax.lean ====
section
/-! DEFINITION. The thirty commands of 30_encoding.md R76, one constructor per row of
opcode_table.json, in the table's order. An operand is the whole of its field "read as an unsigned
integer" (R75), so it is a `Nat` here; that it fits its field is `Instr.wellFormed`. A field that the
command's format ignores (R74) is no part of the command. -/

namespace Sys2Proof

/-- A command of HUFFCORE (R76). `a` is the first operand, `b` the second (R73). -/
inductive Instr where
  /-- CLEAR, 0x01, format Z. -/
  | clear
  /-- CSR.READ, 0x02, format A: `a` = CSR index. -/
  | csrRead (a : Nat)
  /-- CSR.WRITE, 0x03, format AB: `a` = CSR index, `b` = value. -/
  | csrWrite (a b : Nat)
  /-- IB.RESET, 0x10, format Z. -/
  | ibReset
  /-- IB.PUT, 0x11, format A: `a` = byte. -/
  | ibPut (a : Nat)
  /-- OB.GET, 0x12, format B: `b` = index. -/
  | obGet (b : Nat)
  /-- FQ.CLEAR, 0x20, format Z. -/
  | fqClear
  /-- FQ.WRITE, 0x21, format AB: `a` = byte value, `b` = count. -/
  | fqWrite (a b : Nat)
  /-- FQ.READ, 0x22, format A: `a` = byte value. -/
  | fqRead (a : Nat)
  /-- FQ.COUNT, 0x23, format Z. -/
  | fqCount
  /-- ND.LEAF, 0x30, format AB: `a` = value, `b` = weight. -/
  | ndLeaf (a b : Nat)
  /-- ND.MERGE, 0x31, format AB: `a` = left pointer, `b` = right pointer. -/
  | ndMerge (a b : Nat)
  /-- ND.READ, 0x32, format A: `a` = pointer. -/
  | ndRead (a : Nat)
  /-- ND.KIDS, 0x33, format A: `a` = pointer. -/
  | ndKids (a : Nat)
  /-- ND.EQ, 0x34, format AB: `a`, `b` = pointers. -/
  | ndEq (a b : Nat)
  /-- PQ.CLEAR, 0x40, format Z. -/
  | pqClear
  /-- PQ.INSERT, 0x41, format A: `a` = pointer. -/
  | pqInsert (a : Nat)
  /-- PQ.REMOVEAT, 0x42, format B: `b` = index. -/
  | pqRemoveAt (b : Nat)
  /-- PQ.PEEKAT, 0x43, format B: `b` = index. -/
  | pqPeekAt (b : Nat)
  /-- PQ.REMOVEVAL, 0x44, format A: `a` = pointer. -/
  | pqRemoveVal (a : Nat)
  /-- PQ.CONTAINS, 0x45, format A: `a` = pointer. -/
  | pqContains (a : Nat)
  /-- PQ.SIZE, 0x46, format Z. -/
  | pqSize
  /-- TB.BUILD, 0x50, format Z. -/
  | tbBuild
  /-- CG.GEN, 0x51, format Z. -/
  | cgGen
  /-- CT.LEN, 0x52, format A: `a` = byte value. -/
  | ctLen (a : Nat)
  /-- CT.BITS, 0x53, format AB: `a` = byte value, `b` = quarter. -/
  | ctBits (a b : Nat)
  /-- HD.CREATE, 0x60, format Z. -/
  | hdCreate
  /-- HD.PARSE, 0x61, format Z. -/
  | hdParse
  /-- ENCODE, 0x70, format Z. -/
  | encode
  /-- DECODE, 0x71, format Z. -/
  | decode
  deriving DecidableEq, Repr

end Sys2Proof
end

