-- ==== Sys2Proof/WellFormed.lean ====
section
/-! DEFINITION. When a command can be written as a command word: each operand fits its field
(30_encoding.md R73: `a` has 16 bits, `b` has 40). The range checks that answer `BadOperand` are not
here: a command with such an operand can be written, is accepted and fails (R75, R78). -/

namespace Sys2Proof

/-- The operand fits the 16-bit field `a` (R73). -/
def fitsA (a : Nat) : Bool := a < 2 ^ 16

/-- The operand fits the 40-bit field `b` (R73). -/
def fitsB (b : Nat) : Bool := b < 2 ^ 40

/-- Every operand of the command fits its field (R73, R74). -/
def Instr.wellFormed : Instr → Bool
  | .clear => true
  | .csrRead a => fitsA a
  | .csrWrite a b => fitsA a && fitsB b
  | .ibReset => true
  | .ibPut a => fitsA a
  | .obGet b => fitsB b
  | .fqClear => true
  | .fqWrite a b => fitsA a && fitsB b
  | .fqRead a => fitsA a
  | .fqCount => true
  | .ndLeaf a b => fitsA a && fitsB b
  | .ndMerge a b => fitsA a && fitsB b
  | .ndRead a => fitsA a
  | .ndKids a => fitsA a
  | .ndEq a b => fitsA a && fitsB b
  | .pqClear => true
  | .pqInsert a => fitsA a
  | .pqRemoveAt b => fitsB b
  | .pqPeekAt b => fitsB b
  | .pqRemoveVal a => fitsA a
  | .pqContains a => fitsA a
  | .pqSize => true
  | .tbBuild => true
  | .cgGen => true
  | .ctLen a => fitsA a
  | .ctBits a b => fitsA a && fitsB b
  | .hdCreate => true
  | .hdParse => true
  | .encode => true
  | .decode => true

end Sys2Proof
end

