-- ==== Sys2Proof/Decode.lean ====
section
/-! DEFINITION. Decoding a command word (30_encoding.md R73, R74, R76, R78, R79), total on every
word and refusing an illegal opcode by name; after it the encoder, the formats, the mnemonics and the
pseudo-commands of R81. -/

namespace Sys2Proof

/-- Why a command word is no command. -/
inductive DecodeError where
  /-- `op` is not one of the thirty values of R76 (R79). -/
  | illegalOpcode (op : BitVec 8)
  deriving DecidableEq, Repr

/-- The opcode, bits 63:56 (R73). -/
def opField (w : Word) : BitVec 8 := w.extractLsb' 56 8

/-- The first operand, bits 55:40, read as an unsigned integer (R73, R75). -/
def aField (w : Word) : Nat := (w.extractLsb' 40 16).toNat

/-- The second operand, bits 39:0, read as an unsigned integer (R73, R75). -/
def bField (w : Word) : Nat := (w.extractLsb' 0 40).toNat

/-- The opcode map of R76: the command an opcode names, given the two operand fields. The fields that
its format ignores are dropped (R74). -/
def decodeOp (op : BitVec 8) (a b : Nat) : Option Instr :=
  match op with
  | 0x01#8 => some .clear
  | 0x02#8 => some (.csrRead a)
  | 0x03#8 => some (.csrWrite a b)
  | 0x10#8 => some .ibReset
  | 0x11#8 => some (.ibPut a)
  | 0x12#8 => some (.obGet b)
  | 0x20#8 => some .fqClear
  | 0x21#8 => some (.fqWrite a b)
  | 0x22#8 => some (.fqRead a)
  | 0x23#8 => some .fqCount
  | 0x30#8 => some (.ndLeaf a b)
  | 0x31#8 => some (.ndMerge a b)
  | 0x32#8 => some (.ndRead a)
  | 0x33#8 => some (.ndKids a)
  | 0x34#8 => some (.ndEq a b)
  | 0x40#8 => some .pqClear
  | 0x41#8 => some (.pqInsert a)
  | 0x42#8 => some (.pqRemoveAt b)
  | 0x43#8 => some (.pqPeekAt b)
  | 0x44#8 => some (.pqRemoveVal a)
  | 0x45#8 => some (.pqContains a)
  | 0x46#8 => some .pqSize
  | 0x50#8 => some .tbBuild
  | 0x51#8 => some .cgGen
  | 0x52#8 => some (.ctLen a)
  | 0x53#8 => some (.ctBits a b)
  | 0x60#8 => some .hdCreate
  | 0x61#8 => some .hdParse
  | 0x70#8 => some .encode
  | 0x71#8 => some .decode
  | _ => none

/-- Decoding step (1) of R78: the opcode alone selects the command. -/
def decodeWord (w : Word) : Except DecodeError Instr :=
  match decodeOp (opField w) (aField w) (bField w) with
  | some i => .ok i
  | none => .error (.illegalOpcode (opField w))

/-- What the decoder reads from the command whose `nbits` bits are `w`, the bits above them 0. A
command is one 64-bit word (R73), so bit 0 of `w` is bit 0 of the command word. -/
def decodeTableWord (nbits w : Nat) : Option Instr :=
  match decodeWord (BitVec.ofNat 64 (w % 2 ^ nbits)) with
  | .ok i => some i
  | .error _ => none

/-- The four operand formats of R74. -/
inductive Format where
  | z | a | b | ab
  deriving DecidableEq, Repr

/-- The opcode of a command (R76). -/
def opcode : Instr → BitVec 8
  | .clear => 0x01#8
  | .csrRead _ => 0x02#8
  | .csrWrite _ _ => 0x03#8
  | .ibReset => 0x10#8
  | .ibPut _ => 0x11#8
  | .obGet _ => 0x12#8
  | .fqClear => 0x20#8
  | .fqWrite _ _ => 0x21#8
  | .fqRead _ => 0x22#8
  | .fqCount => 0x23#8
  | .ndLeaf _ _ => 0x30#8
  | .ndMerge _ _ => 0x31#8
  | .ndRead _ => 0x32#8
  | .ndKids _ => 0x33#8
  | .ndEq _ _ => 0x34#8
  | .pqClear => 0x40#8
  | .pqInsert _ => 0x41#8
  | .pqRemoveAt _ => 0x42#8
  | .pqPeekAt _ => 0x43#8
  | .pqRemoveVal _ => 0x44#8
  | .pqContains _ => 0x45#8
  | .pqSize => 0x46#8
  | .tbBuild => 0x50#8
  | .cgGen => 0x51#8
  | .ctLen _ => 0x52#8
  | .ctBits _ _ => 0x53#8
  | .hdCreate => 0x60#8
  | .hdParse => 0x61#8
  | .encode => 0x70#8
  | .decode => 0x71#8

/-- The format of a command (R76). -/
def format : Instr → Format
  | .clear | .ibReset | .fqClear | .fqCount | .pqClear | .pqSize | .tbBuild | .cgGen
  | .hdCreate | .hdParse | .encode | .decode => .z
  | .csrRead _ | .ibPut _ | .fqRead _ | .ndRead _ | .ndKids _ | .pqInsert _ | .pqRemoveVal _
  | .pqContains _ | .ctLen _ => .a
  | .obGet _ | .pqRemoveAt _ | .pqPeekAt _ => .b
  | .csrWrite _ _ | .fqWrite _ _ | .ndLeaf _ _ | .ndMerge _ _ | .ndEq _ _ | .ctBits _ _ => .ab

/-- The first operand of a command; 0 where its format ignores the field ("assemblers write 0
there", R74). -/
def operandA : Instr → Nat
  | .csrRead a | .ibPut a | .fqRead a | .ndRead a | .ndKids a | .pqInsert a | .pqRemoveVal a
  | .pqContains a | .ctLen a => a
  | .csrWrite a _ | .fqWrite a _ | .ndLeaf a _ | .ndMerge a _ | .ndEq a _ | .ctBits a _ => a
  | .clear | .ibReset | .fqClear | .fqCount | .pqClear | .pqSize | .tbBuild | .cgGen
  | .hdCreate | .hdParse | .encode | .decode | .obGet _ | .pqRemoveAt _ | .pqPeekAt _ => 0

/-- The second operand of a command; 0 where its format ignores the field (R74). -/
def operandB : Instr → Nat
  | .obGet b | .pqRemoveAt b | .pqPeekAt b => b
  | .csrWrite _ b | .fqWrite _ b | .ndLeaf _ b | .ndMerge _ b | .ndEq _ b | .ctBits _ b => b
  | .clear | .ibReset | .fqClear | .fqCount | .pqClear | .pqSize | .tbBuild | .cgGen
  | .hdCreate | .hdParse | .encode | .decode | .csrRead _ | .ibPut _ | .fqRead _ | .ndRead _
  | .ndKids _ | .pqInsert _ | .pqRemoveVal _ | .pqContains _ | .ctLen _ => 0

/-- The command word of three field values, the opcode in the most significant bits (R73). -/
def assemble (op : BitVec 8) (a b : Nat) : Word := op ++ BitVec.ofNat 16 a ++ BitVec.ofNat 40 b

/-- The command word of a command: `(op << 56) | (a << 40) | b` with absent operands 0 (R80). -/
def encode (i : Instr) : Word := assemble (opcode i) (operandA i) (operandB i)

/-- The mnemonic of a command (R76, R80). -/
def mnemonic : Instr → String
  | .clear => "CLEAR"
  | .csrRead _ => "CSR.READ"
  | .csrWrite _ _ => "CSR.WRITE"
  | .ibReset => "IB.RESET"
  | .ibPut _ => "IB.PUT"
  | .obGet _ => "OB.GET"
  | .fqClear => "FQ.CLEAR"
  | .fqWrite _ _ => "FQ.WRITE"
  | .fqRead _ => "FQ.READ"
  | .fqCount => "FQ.COUNT"
  | .ndLeaf _ _ => "ND.LEAF"
  | .ndMerge _ _ => "ND.MERGE"
  | .ndRead _ => "ND.READ"
  | .ndKids _ => "ND.KIDS"
  | .ndEq _ _ => "ND.EQ"
  | .pqClear => "PQ.CLEAR"
  | .pqInsert _ => "PQ.INSERT"
  | .pqRemoveAt _ => "PQ.REMOVEAT"
  | .pqPeekAt _ => "PQ.PEEKAT"
  | .pqRemoveVal _ => "PQ.REMOVEVAL"
  | .pqContains _ => "PQ.CONTAINS"
  | .pqSize => "PQ.SIZE"
  | .tbBuild => "TB.BUILD"
  | .cgGen => "CG.GEN"
  | .ctLen _ => "CT.LEN"
  | .ctBits _ _ => "CT.BITS"
  | .hdCreate => "HD.CREATE"
  | .hdParse => "HD.PARSE"
  | .encode => "ENCODE"
  | .decode => "DECODE"

/-- A line of assembler: the mnemonic and then the operands in field order, a comma between them,
each number in decimal (R80). -/
def assemblerLine (i : Instr) : String :=
  match format i with
  | .z => mnemonic i
  | .a => mnemonic i ++ " " ++ toString (operandA i)
  | .b => mnemonic i ++ " " ++ toString (operandB i)
  | .ab => mnemonic i ++ " " ++ toString (operandA i) ++ ", " ++ toString (operandB i)

/-- The pseudo-commands of R81. -/
inductive Pseudo where
  | pqPopMin
  | pqPeekMin
  | ibLoad (bytes : List Byte)
  | fqLoad (pairs : List (Byte × Nat))
  deriving DecidableEq, Repr

/-- The expansion of a pseudo-command into commands, in order (R81). -/
def expand : Pseudo → List Instr
  | .pqPopMin => [.pqRemoveAt 0]
  | .pqPeekMin => [.pqPeekAt 0]
  | .ibLoad bytes => .ibReset :: bytes.map fun b => .ibPut b.toNat
  | .fqLoad pairs => .fqClear :: pairs.map fun p => .fqWrite p.1.toNat p.2

end Sys2Proof
end

