-- ==== Sys2Proof/Config.lean ====
section
/-! DEFINITION. The implementation parameters of 00_scope.md R6. The fixed ones are constants. The
four OPEN ones are the record `Params`, which a state carries (log 1), so that nothing proved about
every state assumes a value of one. The block is deterministic (R12), so there is no free value here. -/

namespace Sys2Proof

/-- The OPEN parameters (R6, 92_eei_decisions.md D7 and D15). -/
structure Params where
  /-- `W_FREQ`: bits of one frequency counter and of a leaf weight. -/
  wFreq : Nat
  /-- `IBUF_CAP`: bytes the input buffer can hold. -/
  ibufCap : Nat
  /-- `OBUF_CAP`: bytes the output buffer can hold. -/
  obufCap : Nat
  /-- `PACK_SUPPORTED`: whether `CONFIG.PACK = 1` (PACKED8) is implemented. -/
  packSupported : Bool
  deriving DecidableEq, Repr

/-- The defaults of R6. -/
def Params.default : Params :=
  { wFreq := 32, ibufCap := 65536, obufCap := 1048576, packSupported := true }

/-- `N_SYM`: slots of the Frequency Table and the Code Table (R6). -/
abbrev nSym : Nat := 256

/-- `N_NODE`: node slots in node memory (R6, R7 clause a). -/
abbrev nNode : Nat := 511

/-- `PQ_CAP`: entries the Ordered Sequence can hold (R6, R7 clause b). -/
abbrev pqCap : Nat := 256

/-- `MAX_CODE_LEN`: the longest possible code in bits (R6, R7 clause c). -/
abbrev maxCodeLen : Nat := 255

end Sys2Proof
end

