-- ==== Sys2Proof/Machine/Table.lean ====
section
/-! DEFINITION. A table with one entry per byte value: the shape of `FREQ` (10_state.md R26, "length
always 256") and of `CODE` (R30). The length is part of the type, so every read and write is in
range, as R9 says of every rule's accesses. -/

namespace Sys2Proof.Machine

/-- 256 entries, entry `s` for byte value `s`. -/
structure Table (α : Type) where
  cells : List α
  full : cells.length = nSym
  deriving DecidableEq, Repr

/-- The table whose every entry is `v`. -/
def Table.fill {α : Type} (v : α) : Table α := ⟨List.replicate nSym v, List.length_replicate⟩

/-- `ARRAY[s]` (R9). -/
def Table.get {α : Type} (t : Table α) (s : Byte) : α := t.cells[s.toNat]'(t.full ▸ s.isLt)

/-- `ARRAY[s] <- v` (R9). -/
def Table.set {α : Type} (t : Table α) (s : Byte) (v : α) : Table α :=
  ⟨t.cells.set s.toNat v, (List.length_set ..).trans t.full⟩

/-- The byte values in ascending order: `for s in 0 .. 255` (R9). -/
def symbols : List Byte := (List.range nSym).map (BitVec.ofNat 8)

/-- The entries with their byte values, in ascending byte value: what a loop `for s in 0 .. 255` that
reads `ARRAY[s]` goes through (R9). -/
def Table.entries {α : Type} (t : Table α) : List (Byte × α) := symbols.zip t.cells

end Sys2Proof.Machine
end

