-- ==== Sys2Proof/Machine/State.lean ====
section
/-! DEFINITION. The state of HUFFCORE: the items of 10_state.md R20, the response port of
30_encoding.md R70, the parameters (log 1) and the host's input pins (log 2); the reasons a step can
stop; and the state after reset (R39). Entries beyond a count register have no value and cannot be
observed (R21), so `NODE`, `PQ`, `IBUF` and `OBUF` are lists whose length is the count register. -/

namespace Sys2Proof.Machine

/-- One record of node memory (R27). "Leaf iff both children absent": the `leaf` bit is
`kids = none`, and an internal record holds `(left, right)`, so a record with one child cannot be
written down. -/
structure Node where
  /-- A leaf's byte; an internal node's propagated minimum. -/
  value : Byte
  /-- The aggregate frequency, `W_WEIGHT` bits. -/
  weight : Nat
  /-- The pointers to the left and the right child of an internal node. -/
  kids : Option (Nat × Nat)
  deriving DecidableEq, Repr

/-- One entry of the code table (R30): code bit `k` is `bits[k]`, and `bits[k] = 0` for `k ≥ len`. -/
structure CodeEntry where
  len : BitVec 8
  bits : BitVec 256
  deriving DecidableEq, Repr

/-- The entry with no code: the document's empty string (R30). -/
def CodeEntry.empty : CodeEntry := ⟨0#8, 0#256⟩

/-- The error kinds of 60_exceptions.md R201. -/
inductive Kind where
  | outOfRange | notFound | malformedHeader | malformedBody | capacity | illegalCommand | badOperand
  deriving DecidableEq, Repr

/-- A response offered on the response port: `rsp_status` and `rsp_data` (R70, R77). -/
structure Response where
  status : BitVec 8
  data : Word
  deriving DecidableEq, Repr

/-- The levels the host drives on the block's input pins at one rising edge of `clk` (R70). -/
structure PortIn where
  rst : Bool
  cmdValid : Bool
  cmdWord : Word
  rspReady : Bool
  deriving DecidableEq, Repr

/-- The state between two edges. -/
structure State where
  /-- The OPEN parameters (R6); no step changes them (log 1). -/
  par : Params
  /-- `FREQ` (R26). -/
  freq : Table Nat
  /-- `NODE`, slots 0 to `nd_count - 1`; the length is `nd_count` (R27). -/
  nodes : List Node
  /-- `PQ` in rank order, as node pointers; the length is `pq_size` (R28). -/
  pq : List Nat
  /-- `root` when `root_valid = 1`; `none` when `root_valid = 0` (R29). -/
  root : Option Nat
  /-- `CODE` (R30). -/
  code : Table CodeEntry
  /-- `codes_valid` (R35). -/
  codesValid : Bool
  /-- `empty_flag` (R35). -/
  emptyFlag : Bool
  /-- `IBUF`; the length is `ILEN` (R31). -/
  ibuf : List Byte
  /-- `OBUF`; the length is `OLEN` (R32). -/
  obuf : List Byte
  /-- `CONFIG.PACK` (R34). -/
  pack : Bool
  /-- `LASTERR` (R36). -/
  lastErr : BitVec 8
  /-- The response waiting to be accepted; `none` is `rsp_valid = 0` (R70, R71). -/
  rsp : Option Response
  /-- The host's pin levels at the coming edges, the next one first; the model's own field (log 2). -/
  inputs : List PortIn
  deriving DecidableEq, Repr

/-- Why the machine would stop with a fault: there is no reason. "The block has no stuck state and no
hang ... A status other than `OK` is an ordinary outcome, not a model fault" (60_exceptions.md R212).
Nobody raises a fault, so the type has no constructor. -/
inductive Fault where
  deriving DecidableEq, Repr

/-- Why a step has no meaning. -/
inductive Refusal where
  /-- An instruction without a meaning in this model. No arm of `exec` raises it: every command has
  its meaning. Safe. -/
  | notModelled (mnemonic : String)
  /-- Raised by `step` when a parameter is outside its legal range: "a model needs a refusal in one
  place only: parameter values outside the legal ranges of 00_scope.md rule R6" (R212). Safe: no
  block with such parameters is described. -/
  | illegalParameters
  deriving DecidableEq, Repr

/-- The state after reset of a block with parameters `p`, the host driving nothing (R39, R220). -/
def State.resetWith (p : Params) : State where
  par := p
  freq := Table.fill 0
  nodes := []
  pq := []
  root := none
  code := Table.fill CodeEntry.empty
  codesValid := false
  emptyFlag := false
  ibuf := []
  obuf := []
  pack := false
  lastErr := 0#8
  rsp := none
  inputs := []

/-- The state right after reset, at the default parameters of R6. -/
def State.reset : State := State.resetWith Params.default

end Sys2Proof.Machine
end

