-- ==== Sys2Proof/Machine/Ops.lean ====
section
/-! DEFINITION. The named operations over the state: reading node memory, writing each piece of state,
responding, and raising an error, which is the block's whole "trap entry" (60_exceptions.md R200,
R203). There is no return from an error: "There is no return-from-trap command and nothing to
restore" (R204); the next command runs on the state `raise` leaves. -/

namespace Sys2Proof.Machine

/-- What a command answers. -/
abbrev Result := Host.Outcome State Fault Refusal

/-- The parameters are inside the legal ranges of 00_scope.md R6. -/
def legalParams (p : Params) : Bool :=
  decide (1 ≤ p.wFreq) && decide (p.wFreq ≤ 32) && decide (p.ibufCap ≤ 2 ^ p.wFreq - 1)
    && decide (1 ≤ p.obufCap) && decide (p.obufCap ≤ 2 ^ 40)

/-- `W_WEIGHT = W_FREQ + 8`: bits of a node weight (R6). -/
def wWeight (p : Params) : Nat := p.wFreq + 8

/-- A 64-bit quantity, zero-extended (R9, `respond`). -/
def natWord (n : Nat) : Word := BitVec.ofNat 64 n

/-! ### Node memory -/

/-- What a slot that is not allocated is taken to hold; no rule reads one (10_state.md R21; log 5). -/
def Node.unallocated : Node := ⟨0#8, 0, none⟩

/-- `NODE[p]` (R27). -/
def nodeAt (nodes : List Node) (p : Nat) : Node := nodes.getD p Node.unallocated

/-- `NODE[p].leaf = 1`. -/
def Node.isLeaf (n : Node) : Bool := n.kids.isNone

/-- `NODE[p].left`; a leaf's has no value and is not read (R21). -/
def Node.left (n : Node) : Nat := (n.kids.getD (0, 0)).1

/-- `NODE[p].right`; a leaf's has no value and is not read (R21). -/
def Node.right (n : Node) : Nat := (n.kids.getD (0, 0)).2

/-! ### Writing one piece of state -/

/-- `FREQ <- t`, all 256 entries. -/
def State.setFreq (t : Table Nat) (s : State) : State := { s with freq := t }

/-- `NODE`, `nd_count <- l`. -/
def State.setNodes (l : List Node) (s : State) : State := { s with nodes := l }

/-- `PQ`, `pq_size <- l`. -/
def State.setPq (l : List Nat) (s : State) : State := { s with pq := l }

/-- `CODE <- t`, all 256 entries, generated from the current tree: `codes_valid <- 1`. -/
def State.setCode (t : Table CodeEntry) (s : State) : State :=
  { s with code := t, codesValid := true }

/-- `IBUF`, `ILEN <- l`. -/
def State.setIbuf (l : List Byte) (s : State) : State := { s with ibuf := l }

/-- `OBUF`, `OLEN <- l`. -/
def State.setObuf (l : List Byte) (s : State) : State := { s with obuf := l }

/-- `CONFIG.PACK <- v`. -/
def State.setPack (v : Bool) (s : State) : State := { s with pack := v }

/-- `LASTERR <- c`. -/
def State.setLastErr (c : BitVec 8) (s : State) : State := { s with lastErr := c }

/-- The response port: offer `r`, or nothing. -/
def State.setRsp (r : Option Response) (s : State) : State := { s with rsp := r }

/-- The host's coming pin levels (log 2). -/
def State.setInputs (l : List PortIn) (s : State) : State := { s with inputs := l }

/-- What a finished build leaves: node memory, an empty sequence, the root or the empty flag, and no
valid codes (41_tree_builder.md R116). -/
def State.setTree (nodes : List Node) (root : Option Nat) (s : State) : State :=
  { s with nodes := nodes, pq := [], root := root, emptyFlag := root.isNone, codesValid := false }

/-- `WipeWork()` (46_system_and_buffers.md R190). -/
def State.wipeWork (s : State) : State :=
  { s with
    freq := Table.fill 0
    pq := []
    nodes := []
    root := none
    emptyFlag := false
    codesValid := false
    code := Table.fill CodeEntry.empty
    obuf := [] }

/-! ### The byte buffers -/

/-- The byte a buffer holds at an index; there is none at or beyond its count register (R21). -/
def byteAt (buf : List Byte) (i : Nat) : Option Byte := buf[i]?

/-- The form of the two byte buffers. A buffer is the list of its bytes in index order, so equal
buffers are equal lists and no entry stands for an unlisted one (log 4); what is left to ask is that
each count register is within its capacity (R22 clause i). -/
def Memory.wf (s : State) : Bool :=
  decide (s.ibuf.length ≤ s.par.ibufCap) && decide (s.obuf.length ≤ s.par.obufCap)

/-! ### Responding and raising -/

/-- The command succeeds: status `OK`, data `d` (R9, R77). -/
def respond (d : Word) (s : State) : Result := .next (s.setRsp (some ⟨0#8, d⟩))

/-- The status code of an error kind (R201). -/
def Kind.code : Kind → BitVec 8
  | .outOfRange => 1#8
  | .notFound => 2#8
  | .malformedHeader => 3#8
  | .malformedBody => 4#8
  | .capacity => 5#8
  | .illegalCommand => 6#8
  | .badOperand => 7#8

/-- The classes of R203. -/
inductive FailClass where
  | primitive | headerWriter | headerReader | composite
  deriving DecidableEq, Repr

/-- The state effect of a failure by class, but for `LASTERR` (R203). -/
def failEffect (c : FailClass) (s : State) : State :=
  match c with
  | .primitive => s
  | .headerWriter => s.setObuf []
  | .headerReader => s.setFreq (Table.fill 0)
  | .composite => s.wipeWork

/-- `raise k` in a command of class `c` that found the block in state `s`: the state effects of R203,
`LASTERR`, and the response with the kind's code and data 0 (R200). -/
def raise (c : FailClass) (k : Kind) (s : State) : Result :=
  .next (((failEffect c s).setLastErr k.code).setRsp (some ⟨k.code, 0#64⟩))

/-! ### The output buffer -/

/-- `Put(x)` on an output buffer of capacity `cap` (43_encoder.md R146). -/
def put (cap : Nat) (x : Byte) (out : List Byte) : Except Kind (List Byte) :=
  if out.length = cap then .error .capacity else .ok (out ++ [x])

/-- `Put` of each byte in order. -/
def putAll (cap : Nat) : List Byte → List Byte → Except Kind (List Byte)
  | [], out => .ok out
  | x :: xs, out =>
    match put cap x out with
    | .ok o => putAll cap xs o
    | .error k => .error k

/-- `Put(x)`, `n` times. -/
def putRepeat (cap : Nat) (x : Byte) : Nat → List Byte → Except Kind (List Byte)
  | 0, out => .ok out
  | n + 1, out =>
    match put cap x out with
    | .ok o => putRepeat cap x n o
    | .error k => .error k

end Sys2Proof.Machine
end

