-- ==== Sys2Proof/Machine/Operands.lean ====
section
/-! DEFINITION. The operand checks: a command range-checks the whole field and never truncates
(30_encoding.md R75). Each predicate is the negation of a `BadOperand` line of the command rules
(60_exceptions.md R202). -/

namespace Sys2Proof.Machine

/-- The operand is a byte value, 0 to 255 (IB.PUT, FQ.WRITE, FQ.READ, ND.LEAF, CT.LEN, CT.BITS). -/
abbrev isByte (a : Nat) : Prop := a ≤ 255

/-- The operand fits a frequency counter, below `2^W_FREQ` (FQ.WRITE, ND.LEAF). -/
abbrev isCount (b : Nat) (s : State) : Prop := b < 2 ^ s.par.wFreq

/-- The operand names an allocated node (ND and PQ commands). -/
abbrev isNode (p : Nat) (s : State) : Prop := p < s.nodes.length

/-- The operand is a quarter number (CT.BITS). -/
abbrev isQuarter (b : Nat) : Prop := b ≤ 3

/-- The operand is a CSR index (CSR.READ, CSR.WRITE; 10_state.md R33). -/
abbrev isCsr (a : Nat) : Prop := a ≤ 6

/-- The operand is a position of the sequence (PQ.REMOVEAT, PQ.PEEKAT). -/
abbrev isPosition (b : Nat) (s : State) : Prop := b < s.pq.length

/-- The operand is an index of the output buffer (OB.GET). -/
abbrev isOutputIndex (b : Nat) (s : State) : Prop := b < s.obuf.length

/-- Bit 0 of the operand, the only one CSR.WRITE uses (46_system_and_buffers.md R192). -/
def bit0 (b : Nat) : Bool := b % 2 == 1

end Sys2Proof.Machine
end

