-- ==== Sys2Proof/Machine/Buffers.lean ====
section
/-! DEFINITION. The buffer commands IB.RESET, IB.PUT, OB.GET (46_system_and_buffers.md). -/

namespace Sys2Proof.Machine

/-- IB.RESET (R193): `ILEN <- 0`. -/
def execIbReset (s : State) : Result := respond 0#64 (s.setIbuf [])

/-- IB.PUT (R194): append a byte; the response is the new `ILEN`. -/
def execIbPut (a : Nat) (s : State) : Result :=
  if ¬ isByte a then raise .primitive .badOperand s
  else if s.ibuf.length = s.par.ibufCap then raise .primitive .capacity s
  else respond (natWord (s.ibuf.length + 1)) (s.setIbuf (s.ibuf ++ [byteOf a]))

/-- OB.GET (R195). -/
def execObGet (b : Nat) (s : State) : Result :=
  if ¬ isOutputIndex b s then raise .primitive .badOperand s
  else respond ((s.obuf.getD b 0#8).setWidth 64) s

end Sys2Proof.Machine
end

