-- ==== Sys2Proof/Machine/Text.lean ====
section
/-! DEFINITION. Characters, decimal numbers and tokens (00_scope.md R10, R11; 45_header_codec.md
R178, R179). -/

namespace Sys2Proof.Machine

/-- `'0'`, 0x30 (R10). -/
def charZero : Byte := 0x30#8

/-- `'1'`, 0x31 (R10). -/
def charOne : Byte := 0x31#8

/-- Space, 0x20 (R10). -/
def charSpace : Byte := 0x20#8

/-- Newline, 0x0A (R10). -/
def charNewline : Byte := 0x0A#8

/-- The digit `'0' + d`, for `d` from 0 to 9 (R10). -/
def digitChar (d : Nat) : Byte := byteOf (0x30 + d)

/-- The decimal digits of `n`, most significant first, put before `tail`; `fuel` bounds their
number. -/
def decDigits : Nat → Nat → List Byte → List Byte
  | 0, _, tail => tail
  | fuel + 1, n, tail =>
    if n < 10 then digitChar n :: tail
    else decDigits fuel (n / 10) (digitChar (n % 10) :: tail)

/-- `Dec(n)`: the shortest decimal spelling (R11). -/
def dec (n : Nat) : List Byte := decDigits (n + 1) n []

/-- The byte is an ASCII digit, 0x30 to 0x39 (R179). -/
def isDigit (c : Byte) : Bool := decide (0x30 ≤ c.toNat) && decide (c.toNat ≤ 0x39)

/-- A token is numeric when every one of its bytes is an ASCII digit (R179). -/
def isNumeric (t : List Byte) : Bool := t.all isDigit

/-- The value so far with one more digit. -/
def decStep (v : Nat) (c : Byte) : Nat := v * 10 + (c.toNat - 0x30)

/-- `DecVal(t)`: the value of a string of ASCII digits, leading zeros allowed, of unbounded size
(R11, R179). -/
def decVal (t : List Byte) : Nat := t.foldl decStep 0

/-- The six whitespace bytes `WS` (R178). -/
def isSpace (c : Byte) : Bool :=
  c == 0x09#8 || c == 0x0A#8 || c == 0x0B#8 || c == 0x0C#8 || c == 0x0D#8 || c == 0x20#8

/-- A token that may be empty, as a list of no token or one. -/
def closeToken (open_ : List Byte) : List (List Byte) := if open_ = [] then [] else [open_]

/-- The tokens of the rest of a string, when the bytes `open_` of the token in hand have been read
(R178). -/
def tokensFrom : List Byte → List Byte → List (List Byte)
  | open_, [] => closeToken open_
  | open_, c :: rest =>
    if isSpace c then closeToken open_ ++ tokensFrom [] rest else tokensFrom (open_ ++ [c]) rest

/-- The tokens of a string: its maximal runs of bytes none of which is whitespace, in order (R178). -/
def tokens (bytes : List Byte) : List (List Byte) := tokensFrom [] bytes

end Sys2Proof.Machine
end

