-- ==== Sys2Proof/Machine/Header.lean ====
section
/-! DEFINITION. The header codec: `CreateHeader`, `ParseHeader`, HD.CREATE and HD.PARSE
(45_header_codec.md R175 to R183). -/

namespace Sys2Proof.Machine

/-- `Dec(s) ++ " " ++ Dec(F[s]) ++ " "` for a byte value of non-zero frequency, nothing for one of
frequency 0 (R176). -/
def headerPair (vw : Byte × Nat) : List Byte :=
  if vw.2 = 0 then [] else dec vw.1.toNat ++ [charSpace] ++ dec vw.2 ++ [charSpace]

/-- `CreateHeader(F)`: the pairs in ascending byte value, without the trailing space (R176). -/
def createHeader (freq : Table Nat) : List Byte := (freq.entries.flatMap headerPair).dropLast

/-- The state of `ParseHeader` between two tokens: the table so far, the pairs so far, and the byte
value of an open pair, `none` when the number of tokens read is even (R180). -/
structure Parse where
  table : Table Nat
  pairs : Nat
  key : Option Byte
  deriving DecidableEq, Repr

/-- One token of `ParseHeader`: numeric, then its range (R180, R182). -/
def parseToken (wFreq : Nat) (p : Parse) (t : List Byte) : Except Kind Parse :=
  if ¬ isNumeric t then .error .malformedHeader
  else
    match p.key with
    | none =>
      if 255 < decVal t then .error .malformedHeader
      else .ok ⟨p.table, p.pairs, some (byteOf (decVal t))⟩
    | some bv =>
      if 2 ^ wFreq ≤ decVal t then .error .capacity
      else .ok ⟨p.table.set bv (decVal t), p.pairs + 1, none⟩

/-- The tokens in order, then the check that their number is even (R180, R182). -/
def parseTokens (wFreq : Nat) : List (List Byte) → Parse → Except Kind (Table Nat × Nat)
  | [], p => if p.key = none then .ok (p.table, p.pairs) else .error .malformedHeader
  | t :: ts, p =>
    match parseToken wFreq p t with
    | .ok p' => parseTokens wFreq ts p'
    | .error k => .error k

/-- `ParseHeader(S)`: the table and the number of pairs (R180). -/
def parseHeader (wFreq : Nat) (bytes : List Byte) : Except Kind (Table Nat × Nat) :=
  parseTokens wFreq (tokens bytes) ⟨Table.fill 0, 0, none⟩

/-- HD.CREATE (R177): the response is `OLEN`. -/
def execHdCreate (s : State) : Result :=
  if s.par.obufCap < (createHeader s.freq).length then raise .headerWriter .capacity s
  else respond (natWord (createHeader s.freq).length) (s.setObuf (createHeader s.freq))

/-- HD.PARSE (R181): the response is the number of pairs. -/
def execHdParse (s : State) : Result :=
  match parseHeader s.par.wFreq s.ibuf with
  | .error k => raise .headerReader k s
  | .ok (t, pairs) => respond (natWord pairs) (s.setFreq t)

end Sys2Proof.Machine
end

