-- ==== Sys2Proof/Machine/Flags.lean ====
section
/-! DEFINITION. The flags and the read-out of the CSR file (10_state.md R33 to R37). -/

namespace Sys2Proof.Machine

/-- `root_valid` (R29). -/
def State.rootValid (s : State) : Bool := s.root.isSome

/-- `STATUS.SINGLE`: `root_valid = 1` and the root is a leaf; computed, not stored (R35). -/
def State.single (s : State) : Bool :=
  match s.root with
  | none => false
  | some r => (nodeAt s.nodes r).isLeaf

/-- The tree has two or more leaves: `root_valid = 1 and NODE[root].leaf = 0` (43_encoder.md R146). -/
def State.branched (s : State) : Bool :=
  match s.root with
  | none => false
  | some r => !(nodeAt s.nodes r).isLeaf

/-- `CONFIG`: bit 0 is `PACK`, the rest read as 0 (R34). -/
def State.configWord (s : State) : Word := (BitVec.ofBool s.pack).setWidth 64

/-- `STATUS`: `{codes_valid, empty_flag, SINGLE, root_valid}` in bits 3 to 0 (R35, R191). -/
def State.statusWord (s : State) : Word :=
  (BitVec.ofBool s.codesValid ++ BitVec.ofBool s.emptyFlag ++ BitVec.ofBool s.single
    ++ BitVec.ofBool s.rootValid).setWidth 64

/-- `ROOT`: bit 16 is `root_valid`, bits 8:0 are `root`, 0 when `root_valid = 0` (R37). -/
def State.rootWord (s : State) : Word :=
  match s.root with
  | none => 0#64
  | some r => (1#1 ++ 0#7 ++ BitVec.ofNat 9 r).setWidth 64

/-- The value of the CSR of index `a`, for `a` from 0 to 6 (R33). -/
def State.csr (a : Nat) (s : State) : Word :=
  match a with
  | 0 => s.configWord
  | 1 => s.statusWord
  | 2 => s.lastErr.setWidth 64
  | 3 => natWord s.ibuf.length
  | 4 => natWord s.obuf.length
  | 5 => natWord s.nodes.length
  | _ => s.rootWord

end Sys2Proof.Machine
end

