-- ==== Sys2Proof/Machine/Nodes.lean ====
section
/-! DEFINITION. Huffman nodes: the total order, structural equality, allocation, and the commands
ND.LEAF, ND.MERGE, ND.READ, ND.KIDS, ND.EQ (41_tree_builder.md R105 to R114). -/

namespace Sys2Proof.Machine

/-- `Key(p) < Key(q)` on two records: weight first, then value (R106). -/
def keyLess (m n : Node) : Bool :=
  decide (m.weight < n.weight)
    || (decide (m.weight = n.weight) && decide (m.value.toNat < n.value.toNat))

/-- `Less(p, q)` (R106). -/
def less (nodes : List Node) (p q : Nat) : Bool := keyLess (nodeAt nodes p) (nodeAt nodes q)

/-- `Greater(p, q)` (R106). -/
def greater (nodes : List Node) (p q : Nat) : Bool := less nodes q p

/-- `NodeEq` (R107) to the depth `fuel`. A child's index is below its parent's (10_state.md R22
clause e), so a depth of `p + 1` decides it for a node `p` (log 6). -/
def nodeEqTo (nodes : List Node) : Nat → Nat → Nat → Bool
  | 0, _, _ => false
  | fuel + 1, p, q =>
    decide ((nodeAt nodes p).value = (nodeAt nodes q).value)
      && decide ((nodeAt nodes p).weight = (nodeAt nodes q).weight)
      && match (nodeAt nodes p).kids, (nodeAt nodes q).kids with
        | none, none => true
        | some (l, r), some (l', r') => nodeEqTo nodes fuel l l' && nodeEqTo nodes fuel r r'
        | none, some _ => false
        | some _, none => false

/-- `NodeEq(p, q)`: structural equality (R107). -/
def nodeEq (nodes : List Node) (p q : Nat) : Bool := nodeEqTo nodes (p + 1) p q

/-- The smaller of two byte values. -/
def minByte (x y : Byte) : Byte := if x.toNat ≤ y.toNat then x else y

/-- The record `AllocLeaf(v, w)` writes (R108). -/
def leafNode (v : Byte) (w : Nat) : Node := ⟨v, w, none⟩

/-- The record `AllocInternal(l, r)` writes: sum of the weights, minimum of the values (R109). -/
def mergedNode (nodes : List Node) (l r : Nat) : Node :=
  ⟨minByte (nodeAt nodes l).value (nodeAt nodes r).value,
    (nodeAt nodes l).weight + (nodeAt nodes r).weight, some (l, r)⟩

/-- Allocation takes the next free slot, `NODE[nd_count]` (R27, R108, R109). -/
def alloc (nodes : List Node) (n : Node) : List Node := nodes ++ [n]

/-- ND.LEAF (R110): the response is the new pointer. -/
def execNdLeaf (a b : Nat) (s : State) : Result :=
  if ¬ isByte a then raise .primitive .badOperand s
  else if ¬ isCount b s then raise .primitive .badOperand s
  else if s.nodes.length = nNode then raise .primitive .capacity s
  else respond (natWord s.nodes.length) (s.setNodes (alloc s.nodes (leafNode (byteOf a) b)))

/-- ND.MERGE (R111): the response is the new pointer. -/
def execNdMerge (a b : Nat) (s : State) : Result :=
  if ¬ isNode a s then raise .primitive .badOperand s
  else if ¬ isNode b s then raise .primitive .badOperand s
  else if s.nodes.length = nNode then raise .primitive .capacity s
  else if 2 ^ wWeight s.par ≤ (nodeAt s.nodes a).weight + (nodeAt s.nodes b).weight then
    raise .primitive .capacity s
  else respond (natWord s.nodes.length) (s.setNodes (alloc s.nodes (mergedNode s.nodes a b)))

/-- The result of ND.READ: bit 48 `leaf`, bits 47:40 `value`, bits 39:0 `weight` (30_encoding.md
R77). -/
def readWord (n : Node) : Word :=
  (BitVec.ofBool n.isLeaf ++ n.value ++ BitVec.ofNat 40 n.weight).setWidth 64

/-- ND.READ (R112). -/
def execNdRead (a : Nat) (s : State) : Result :=
  if ¬ isNode a s then raise .primitive .badOperand s
  else respond (readWord (nodeAt s.nodes a)) s

/-- The result of ND.KIDS: bits 24:16 `right`, bits 8:0 `left` (R77). -/
def kidsWord (n : Node) : Word :=
  (BitVec.ofNat 9 n.right ++ 0#7 ++ BitVec.ofNat 9 n.left).setWidth 64

/-- ND.KIDS (R113): a leaf has no children to report. -/
def execNdKids (a : Nat) (s : State) : Result :=
  if ¬ isNode a s then raise .primitive .badOperand s
  else if (nodeAt s.nodes a).isLeaf then raise .primitive .badOperand s
  else respond (kidsWord (nodeAt s.nodes a)) s

/-- ND.EQ (R114). -/
def execNdEq (a b : Nat) (s : State) : Result :=
  if ¬ isNode a s then raise .primitive .badOperand s
  else if ¬ isNode b s then raise .primitive .badOperand s
  else respond (natWord (nodeEq s.nodes a b).toNat) s

end Sys2Proof.Machine
end

