-- ==== Sys2Proof/Machine/Sequence.lean ====
section
/-! DEFINITION. The Ordered Sequence: its procedures and the commands PQ.CLEAR, PQ.INSERT,
PQ.REMOVEAT, PQ.PEEKAT, PQ.REMOVEVAL, PQ.CONTAINS, PQ.SIZE (40_ordered_sequence.md R90 to R100). -/

namespace Sys2Proof.Machine

/-- The position `PqInsert(p)` inserts at: past every leading element that is not `Greater` than `p`
(R91). -/
def pqPosition (nodes : List Node) (p : Nat) : List Nat → Nat
  | [] => 0
  | q :: rest => if greater nodes q p then 0 else pqPosition nodes p rest + 1

/-- The sequence after `PqInsert(p)` (R91). -/
def pqInsert (nodes : List Node) (p : Nat) (pq : List Nat) : List Nat :=
  pq.insertIdx (pqPosition nodes p pq) p

/-- The sequence after `PqRemoveAt(i)` (R92). -/
def pqRemoveAt (i : Nat) (pq : List Nat) : List Nat := pq.eraseIdx i

/-- `PQ[i]`. -/
def pqAt (i : Nat) (pq : List Nat) : Nat := pq.getD i 0

/-- The scan of PQ.REMOVEVAL and PQ.CONTAINS: the position of the first element structurally equal to
`a`, stopping early at an element `Greater` than `a` (R98, R99). -/
def pqFind (nodes : List Node) (a : Nat) : List Nat → Option Nat
  | [] => none
  | q :: rest =>
    if nodeEq nodes q a then some 0
    else if greater nodes q a then none
    else (pqFind nodes a rest).map (· + 1)

/-- PQ.CLEAR (R94). -/
def execPqClear (s : State) : Result := respond 0#64 (s.setPq [])

/-- PQ.INSERT (R95): the response is the position the pointer now holds. -/
def execPqInsert (a : Nat) (s : State) : Result :=
  if ¬ isNode a s then raise .primitive .badOperand s
  else if s.pq.length = pqCap then raise .primitive .capacity s
  else respond (natWord (pqPosition s.nodes a s.pq)) (s.setPq (pqInsert s.nodes a s.pq))

/-- PQ.REMOVEAT (R96): the response is the removed pointer. -/
def execPqRemoveAt (b : Nat) (s : State) : Result :=
  if ¬ isPosition b s then raise .primitive .outOfRange s
  else respond (natWord (pqAt b s.pq)) (s.setPq (pqRemoveAt b s.pq))

/-- PQ.PEEKAT (R97). -/
def execPqPeekAt (b : Nat) (s : State) : Result :=
  if ¬ isPosition b s then raise .primitive .outOfRange s
  else respond (natWord (pqAt b s.pq)) s

/-- PQ.REMOVEVAL (R98): the response is the position removed from. -/
def execPqRemoveVal (a : Nat) (s : State) : Result :=
  if ¬ isNode a s then raise .primitive .badOperand s
  else
    match pqFind s.nodes a s.pq with
    | none => raise .primitive .notFound s
    | some i => respond (natWord i) (s.setPq (pqRemoveAt i s.pq))

/-- PQ.CONTAINS (R99): an absent value is the answer 0, not an error. -/
def execPqContains (a : Nat) (s : State) : Result :=
  if ¬ isNode a s then raise .primitive .badOperand s
  else respond (natWord (pqFind s.nodes a s.pq).isSome.toNat) s

/-- PQ.SIZE (R100). -/
def execPqSize (s : State) : Result := respond (natWord s.pq.length) s

end Sys2Proof.Machine
end

