-- ==== Sys2Proof/Machine/Tree.lean ====
section
/-! DEFINITION. The tree builder: `BuildTree()` and TB.BUILD (41_tree_builder.md R115 to R119). -/

namespace Sys2Proof.Machine

/-- What `BuildTree()` works on: node memory and the Ordered Sequence, both fresh at its start
(R116, "local to one build"). -/
structure Forest where
  nodes : List Node
  pq : List Nat
  deriving DecidableEq, Repr

/-- `AllocLeaf(v, w)`, then `PqInsert` of the new pointer (R108, R91). -/
def Forest.addLeaf (v : Byte) (w : Nat) (f : Forest) : Forest :=
  ⟨alloc f.nodes (leafNode v w),
    pqInsert (alloc f.nodes (leafNode v w)) f.nodes.length f.pq⟩

/-- One turn of the leaf scan, on a byte value and its frequency (R116). -/
def scanLeaf (f : Forest) (vw : Byte × Nat) : Forest :=
  if vw.2 = 0 then f else f.addLeaf vw.1 vw.2

/-- The leaf scan, ascending byte value (R116). -/
def leafScan (freq : Table Nat) : Forest := freq.entries.foldl scanLeaf ⟨[], []⟩

/-- `AllocInternal(l, r)`, then `PqInsert` of the new pointer (R109, R91). -/
def Forest.addMerged (l r : Nat) (f : Forest) : Forest :=
  ⟨alloc f.nodes (mergedNode f.nodes l r),
    pqInsert (alloc f.nodes (mergedNode f.nodes l r)) f.nodes.length f.pq⟩

/-- The merge loop: while two or more elements are left, take position 0 twice, merge with the
first taken as the left child, and insert the new node (R116). Each turn lowers the size by one, so
`turns` equal to the size at the start is enough. -/
def mergeLoop : Nat → Forest → Forest
  | 0, f => f
  | turns + 1, f =>
    match f.pq with
    | l :: r :: rest => mergeLoop turns (Forest.addMerged l r ⟨f.nodes, rest⟩)
    | _ => f

/-- The forest when the merge loop ends (R116). -/
def builtForest (freq : Table Nat) : Forest :=
  mergeLoop (leafScan freq).pq.length (leafScan freq)

/-- The node memory `BuildTree()` leaves. -/
def builtNodes (freq : Table Nat) : List Node := (builtForest freq).nodes

/-- The root `BuildTree()` leaves: the one element left, `none` when the table is all zero (R116). -/
def builtRoot (freq : Table Nat) : Option Nat := (builtForest freq).pq.head?

/-- `BuildTree()` (R116). -/
def State.buildTree (s : State) : State := s.setTree (builtNodes s.freq) (builtRoot s.freq)

/-- TB.BUILD (R117): the response is the `ROOT` word. -/
def execTbBuild (s : State) : Result := respond s.buildTree.rootWord s.buildTree

end Sys2Proof.Machine
end

