-- ==== Sys2Proof/Machine/Decoder.lean ====
section
/-! DEFINITION. The bit-serial decoder: the split, the bit unpacker, the tree walker and DECODE
(44_decoder.md R160 to R166). -/

namespace Sys2Proof.Machine

/-- The byte is not the newline. -/
def notNewline (c : Byte) : Bool := c != charNewline

/-- The header line: the input before the first newline, all of it when there is none (R160). -/
def headerLine (bytes : List Byte) : List Byte := bytes.takeWhile notNewline

/-- The body: everything after the first newline, nothing when there is none (R160). -/
def bodyPart (bytes : List Byte) : List Byte := (bytes.dropWhile notNewline).drop 1

/-- The tree walker: the node it stands on, the symbols written, the output (10_state.md R25). -/
structure Walk where
  cur : Nat
  emitted : Nat
  out : List Byte
  deriving DecidableEq, Repr

/-- One tree edge, left on 0 and right on 1; at a leaf, `Put` its byte and go back to the root
(R163, R165). -/
def walkBit (nodes : List Node) (root cap : Nat) (bit : Bool) (w : Walk) : Except Kind Walk :=
  let next := if bit then (nodeAt nodes w.cur).right else (nodeAt nodes w.cur).left
  if (nodeAt nodes next).isLeaf then
    match put cap (nodeAt nodes next).value w.out with
    | .ok o => .ok ⟨root, w.emitted + 1, o⟩
    | .error k => .error k
  else .ok ⟨next, w.emitted, w.out⟩

/-- The bit an ASCII body byte stands for; a byte other than '0' and '1' is a bad symbol (R163,
R164). -/
def asciiBit (c : Byte) : Except Kind Bool :=
  if c = charZero then .ok false
  else if c = charOne then .ok true
  else .error .malformedBody

/-- `WalkAscii()`: the output, or the error (R163). -/
def walkAscii (nodes : List Node) (root cap : Nat) : List Byte → Walk → Except Kind (List Byte)
  | [], w => if w.cur = root then .ok w.out else .error .malformedBody
  | c :: rest, w =>
    match asciiBit c with
    | .error k => .error k
    | .ok bit =>
      match walkBit nodes root cap bit w with
      | .error k => .error k
      | .ok w' => walkAscii nodes root cap rest w'

/-- The bits of a body byte, most significant bit first (R165). -/
def msbFirst (b : Byte) : List Bool := [7, 6, 5, 4, 3, 2, 1, 0].map b.getLsbD

/-- The bits of one body byte, each looked at only while symbols are wanted (R165). -/
def walkBits (nodes : List Node) (root cap total : Nat) : List Bool → Walk → Except Kind Walk
  | [], w => .ok w
  | bit :: rest, w =>
    if w.emitted < total then
      match walkBit nodes root cap bit w with
      | .error k => .error k
      | .ok w' => walkBits nodes root cap total rest w'
    else .ok w

/-- `WalkPacked()`: the output, or the error (R165). -/
def walkPacked (nodes : List Node) (root cap total : Nat) :
    List Byte → Walk → Except Kind (List Byte)
  | [], w => if w.emitted < total then .error .malformedBody else .ok w.out
  | b :: rest, w =>
    if w.emitted < total then
      match walkBits nodes root cap total (msbFirst b) w with
      | .error k => .error k
      | .ok w' => walkPacked nodes root cap total rest w'
    else .ok w.out

/-- What DECODE writes once the tree is built: nothing for no root, the repeated byte for a leaf root,
else the walk of the body (R161, R162). -/
def decodeOutput (cap : Nat) (pack : Bool) (nodes : List Node) (root : Option Nat)
    (body : List Byte) : Except Kind (List Byte) :=
  match root with
  | none => .ok []
  | some r =>
    if (nodeAt nodes r).isLeaf then
      putRepeat cap (nodeAt nodes r).value (nodeAt nodes r).weight []
    else
      match pack with
      | false => walkAscii nodes r cap body ⟨r, 0, []⟩
      | true => walkPacked nodes r cap (nodeAt nodes r).weight body ⟨r, 0, []⟩

/-- DECODE (R162): the state it leaves on success, or the error. -/
def decodeRun (s : State) : Except Kind State :=
  match parseHeader s.par.wFreq (headerLine s.ibuf) with
  | .error k => .error k
  | .ok (t, _) =>
    match decodeOutput s.par.obufCap s.pack (s.setFreq t).buildTree.nodes
        (s.setFreq t).buildTree.root (bodyPart s.ibuf) with
    | .error k => .error k
    | .ok out => .ok ((s.setFreq t).buildTree.setObuf out)

/-- DECODE (R162): the response is `OLEN`; a failure wipes the working state (60_exceptions.md
R203). -/
def execDecode (s : State) : Result :=
  match decodeRun s with
  | .error k => raise .composite k s
  | .ok t => respond (natWord t.obuf.length) t

end Sys2Proof.Machine
end

