-- ==== Sys2Proof/Machine/CodeTable.lean ====
section
/-! DEFINITION. The code table ROM generator: `GenCodes()` and CG.GEN, CT.LEN, CT.BITS
(42_code_table.md R130 to R136). -/

namespace Sys2Proof.Machine

/-- `Visit(n, path)` (R130): the (byte, path) pairs of the leaves below `n`, in left-to-right leaf
order (R131), to the depth `fuel`. A child's index is below its parent's (10_state.md R22 clause e),
so a depth of `n + 1` reaches every leaf (log 6). -/
def visit (nodes : List Node) : Nat → Nat → List Bool → List (Byte × List Bool)
  | 0, _, _ => []
  | fuel + 1, n, path =>
    match (nodeAt nodes n).kids with
    | none => [((nodeAt nodes n).value, path)]
    | some (l, r) => visit nodes fuel l (path ++ [false]) ++ visit nodes fuel r (path ++ [true])

/-- The (byte, path) pairs of the current tree; none when `root_valid = 0` (R130, R132). -/
def treePaths (nodes : List Node) (root : Option Nat) : List (Byte × List Bool) :=
  match root with
  | none => []
  | some r => visit nodes (r + 1) r []

/-- The number whose bit `k` is bit `k` of the path. -/
def pathNat : List Bool → Nat
  | [] => 0
  | b :: rest => b.toNat + 2 * pathNat rest

/-- The code table entry of a path: `len = len(path)`, `bits[k] = path[k]`, other bits 0 (R130). -/
def pathEntry (path : List Bool) : CodeEntry :=
  ⟨BitVec.ofNat 8 path.length, BitVec.ofNat 256 (pathNat path)⟩

/-- `CODE[v] <- entry of the path`. -/
def writeCode (t : Table CodeEntry) (vp : Byte × List Bool) : Table CodeEntry :=
  t.set vp.1 (pathEntry vp.2)

/-- The table `GenCodes()` leaves: every entry cleared, then one written per leaf (R130). -/
def genTable (nodes : List Node) (root : Option Nat) : Table CodeEntry :=
  (treePaths nodes root).foldl writeCode (Table.fill CodeEntry.empty)

/-- `GenCodes()` and `codes_valid <- 1` (R130, R133). -/
def State.genCodes (s : State) : State := s.setCode (genTable s.nodes s.root)

/-- CG.GEN (R133): the response is the number of leaves visited. -/
def execCgGen (s : State) : Result :=
  respond (natWord (treePaths s.nodes s.root).length) s.genCodes

/-- CT.LEN (R135). -/
def execCtLen (a : Nat) (s : State) : Result :=
  if ¬ isByte a then raise .primitive .badOperand s
  else respond ((s.code.get (byteOf a)).len.setWidth 64) s

/-- CT.BITS (R136): bits `64*b + 63` to `64*b` of the entry. -/
def execCtBits (a b : Nat) (s : State) : Result :=
  if ¬ isByte a then raise .primitive .badOperand s
  else if ¬ isQuarter b then raise .primitive .badOperand s
  else respond ((s.code.get (byteOf a)).bits.extractLsb' (64 * b) 64) s

end Sys2Proof.Machine
end

