-- ==== Sys2Proof/Machine/Frequency.lean ====
section
/-! DEFINITION. The frequency table and the frequency counter: FQ.CLEAR, FQ.WRITE, FQ.READ, FQ.COUNT
(43_encoder.md R140 to R144). -/

namespace Sys2Proof.Machine

/-- `FREQ[x] <- FREQ[x] + 1` (R143). -/
def bump (t : Table Nat) (x : Byte) : Table Nat := t.set x (t.get x + 1)

/-- `CountFrequencies()` on the input bytes: a cleared table, then one increment per byte (R143). -/
def countBytes (bytes : List Byte) : Table Nat := bytes.foldl bump (Table.fill 0)

/-- `CountFrequencies()` (R143). -/
def State.countFrequencies (s : State) : State := s.setFreq (countBytes s.ibuf)

/-- FQ.CLEAR (R140). -/
def execFqClear (s : State) : Result := respond 0#64 (s.setFreq (Table.fill 0))

/-- FQ.WRITE (R141). -/
def execFqWrite (a b : Nat) (s : State) : Result :=
  if ¬ isByte a then raise .primitive .badOperand s
  else if ¬ isCount b s then raise .primitive .badOperand s
  else respond 0#64 (s.setFreq (s.freq.set (byteOf a) b))

/-- FQ.READ (R142). -/
def execFqRead (a : Nat) (s : State) : Result :=
  if ¬ isByte a then raise .primitive .badOperand s
  else respond (natWord (s.freq.get (byteOf a))) s

/-- FQ.COUNT (R144): the response is `ILEN`. -/
def execFqCount (s : State) : Result := respond (natWord s.ibuf.length) s.countFrequencies

end Sys2Proof.Machine
end

