-- ==== Sys2Proof/Machine/Encoder.lean ====
section
/-! DEFINITION. The bit-serial encoder: the code lookup, the bit packer and ENCODE (43_encoder.md R145
to R151). -/

namespace Sys2Proof.Machine

/-- The bits of a code, first bit first (10_state.md R30). -/
def codeBits (c : CodeEntry) : List Bool := (List.range c.len.toNat).map c.bits.getLsbD

/-- The bit packer in the middle of a body: the output so far, `pk_byte` and `pk_cnt` (R149). -/
structure Packer where
  out : List Byte
  pkByte : Byte
  pkCnt : Nat
  deriving DecidableEq, Repr

/-- The ASCII body byte of a code bit: 0x30 + bit (R149, R150). -/
def bitChar (bit : Bool) : Byte := if bit then charOne else charZero

/-- `pk_byte | (bit << (7 - pk_cnt))` (R149). -/
def packBit (pkByte : Byte) (pkCnt : Nat) (bit : Bool) : Byte :=
  pkByte ||| (BitVec.ofNat 8 bit.toNat <<< (7 - pkCnt))

/-- `EmitBit(bit, pack)` (R149). -/
def emitBit (cap : Nat) (pack : Bool) (bit : Bool) (p : Packer) : Except Kind Packer :=
  match pack with
  | false =>
    match put cap (bitChar bit) p.out with
    | .ok o => .ok ⟨o, p.pkByte, p.pkCnt⟩
    | .error k => .error k
  | true =>
    if p.pkCnt + 1 = 8 then
      match put cap (packBit p.pkByte p.pkCnt bit) p.out with
      | .ok o => .ok ⟨o, 0#8, 0⟩
      | .error k => .error k
    else .ok ⟨p.out, packBit p.pkByte p.pkCnt bit, p.pkCnt + 1⟩

/-- `EmitBit` of each bit in order. -/
def emitBits (cap : Nat) (pack : Bool) : List Bool → Packer → Except Kind Packer
  | [], p => .ok p
  | b :: rest, p =>
    match emitBit cap pack b p with
    | .ok p' => emitBits cap pack rest p'
    | .error k => .error k

/-- `FlushBits(pack)`: a partly filled byte is put out and the packer's registers return to 0 (R149). -/
def flushBits (cap : Nat) (pack : Bool) (p : Packer) : Except Kind Packer :=
  match pack with
  | false => .ok p
  | true =>
    if 0 < p.pkCnt then
      match put cap p.pkByte p.out with
      | .ok o => .ok ⟨o, 0#8, 0⟩
      | .error k => .error k
    else .ok p

/-- The code bits of the input bytes, in original order: the code lookup (R146, R148). -/
def inputBits (code : Table CodeEntry) (bytes : List Byte) : List Bool :=
  bytes.flatMap fun b => codeBits (code.get b)

/-- The body of ENCODE after the output `out` (R146 step 5): every code bit through the packer, then
the flush. -/
def emitBody (cap : Nat) (pack : Bool) (bits : List Bool) (out : List Byte) :
    Except Kind (List Byte) :=
  match emitBits cap pack bits ⟨out, 0#8, 0⟩ with
  | .ok p => (flushBits cap pack p).map Packer.out
  | .error k => .error k

/-- ENCODE up to its tables: an empty output, the frequency table, the tree (R146 steps 1 and 2). -/
def State.encodeTables (s : State) : State := ((s.setObuf []).countFrequencies).buildTree

/-- ENCODE (R146): the state it leaves on success, or the error. -/
def encodeRun (s : State) : Except Kind State :=
  match putAll s.par.obufCap (createHeader s.encodeTables.freq ++ [charNewline]) [] with
  | .error k => .error k
  | .ok out =>
    if s.encodeTables.branched then
      match emitBody s.par.obufCap s.pack
          (inputBits s.encodeTables.genCodes.code s.ibuf) out with
      | .error k => .error k
      | .ok out' => .ok (s.encodeTables.genCodes.setObuf out')
    else .ok (s.encodeTables.setObuf out)

/-- ENCODE (R146): the response is `OLEN`; a failure wipes the working state (60_exceptions.md
R203). -/
def execEncode (s : State) : Result :=
  match encodeRun s with
  | .error k => raise .composite k s
  | .ok t => respond (natWord t.obuf.length) t

/-! ### The encoded stream, as R145 defines it -/

/-- The byte of up to eight body bits, the first in the most significant bit, unused low bits 0
(R151). -/
def packByte (bits : List Bool) : Byte := byteOf (bits.foldl (fun v b => 2 * v + b.toNat) 0 * 2 ^ (8 - bits.length))

/-- PACKED8: the bits packed eight to a byte; `fuel` bounds the number of bytes (R151). -/
def packBytes : Nat → List Bool → List Byte
  | 0, _ => []
  | fuel + 1, bits =>
    match bits with
    | [] => []
    | b :: rest => packByte ((b :: rest).take 8) :: packBytes fuel ((b :: rest).drop 8)

/-- `Body(bits, pack)` (R145). -/
def bodyBytes (pack : Bool) (bits : List Bool) : List Byte :=
  match pack with
  | false => bits.map bitChar
  | true => packBytes bits.length bits

/-- `Encode(B, pack)`: "the normative definition of the encoded stream" (R145). -/
def encodedStream (pack : Bool) (bytes : List Byte) : List Byte :=
  createHeader (countBytes bytes) ++ [charNewline]
    ++ match builtRoot (countBytes bytes) with
      | none => []
      | some r =>
        if (nodeAt (builtNodes (countBytes bytes)) r).isLeaf then []
        else
          bodyBytes pack
            (inputBits (genTable (builtNodes (countBytes bytes)) (some r)) bytes)

end Sys2Proof.Machine
end

