-- ==== Sys2Proof/Machine/System.lean ====
section
/-! DEFINITION. The system commands CLEAR, CSR.READ, CSR.WRITE (46_system_and_buffers.md). -/

namespace Sys2Proof.Machine

/-- CLEAR (R190): `WipeWork()` and `LASTERR <- 0`; `IBUF`, `ILEN` and `CONFIG` are kept. -/
def execClear (s : State) : Result := respond 0#64 (s.wipeWork.setLastErr 0#8)

/-- CSR.READ (R191). -/
def execCsrRead (a : Nat) (s : State) : Result :=
  if ¬ isCsr a then raise .primitive .badOperand s
  else respond (s.csr a) s

/-- CSR.WRITE (R192): only `CONFIG` is writable and only bit 0 of `b` is used. -/
def execCsrWrite (a b : Nat) (s : State) : Result :=
  if ¬ isCsr a then raise .primitive .badOperand s
  else if a ≠ 0 then raise .primitive .badOperand s
  else if bit0 b ∧ ¬ s.par.packSupported then raise .primitive .badOperand s
  else respond 0#64 (s.setPack (bit0 b))

end Sys2Proof.Machine
end

