-- ==== Sys2Proof/Machine/Dispatch.lean ====
section
/-! DEFINITION. The dispatch of a command to its meaning, one arm per constructor of `Instr`, in the
order of opcode_table.json. -/

namespace Sys2Proof.Machine

def exec (i : Instr) (s : State) : Host.Outcome State Fault Refusal :=
  match i with
  | .clear => Sys2Proof.Machine.execClear s
  | .csrRead a => Sys2Proof.Machine.execCsrRead a s
  | .csrWrite a b => Sys2Proof.Machine.execCsrWrite a b s
  | .ibReset => Sys2Proof.Machine.execIbReset s
  | .ibPut a => Sys2Proof.Machine.execIbPut a s
  | .obGet b => Sys2Proof.Machine.execObGet b s
  | .fqClear => Sys2Proof.Machine.execFqClear s
  | .fqWrite a b => Sys2Proof.Machine.execFqWrite a b s
  | .fqRead a => Sys2Proof.Machine.execFqRead a s
  | .fqCount => Sys2Proof.Machine.execFqCount s
  | .ndLeaf a b => Sys2Proof.Machine.execNdLeaf a b s
  | .ndMerge a b => Sys2Proof.Machine.execNdMerge a b s
  | .ndRead a => Sys2Proof.Machine.execNdRead a s
  | .ndKids a => Sys2Proof.Machine.execNdKids a s
  | .ndEq a b => Sys2Proof.Machine.execNdEq a b s
  | .pqClear => Sys2Proof.Machine.execPqClear s
  | .pqInsert a => Sys2Proof.Machine.execPqInsert a s
  | .pqRemoveAt b => Sys2Proof.Machine.execPqRemoveAt b s
  | .pqPeekAt b => Sys2Proof.Machine.execPqPeekAt b s
  | .pqRemoveVal a => Sys2Proof.Machine.execPqRemoveVal a s
  | .pqContains a => Sys2Proof.Machine.execPqContains a s
  | .pqSize => Sys2Proof.Machine.execPqSize s
  | .tbBuild => Sys2Proof.Machine.execTbBuild s
  | .cgGen => Sys2Proof.Machine.execCgGen s
  | .ctLen a => Sys2Proof.Machine.execCtLen a s
  | .ctBits a b => Sys2Proof.Machine.execCtBits a b s
  | .hdCreate => Sys2Proof.Machine.execHdCreate s
  | .hdParse => Sys2Proof.Machine.execHdParse s
  | .encode => Sys2Proof.Machine.execEncode s
  | .decode => Sys2Proof.Machine.execDecode s

end Sys2Proof.Machine
end

