-- ==== Sys2Proof/Machine/Ports.lean ====
section
/-! DEFINITION. The ports: what the block drives on its output pins, what it does at one rising edge
of `clk`, and how a command word is placed on the command port (30_encoding.md R70 to R72;
70_reset_and_hazards.md R220, R221). -/

namespace Sys2Proof.Machine

/-- The levels the block drives on its output pins (R70). `rsp` is `rsp_status` and `rsp_data`, which
have a value only while `rsp_valid = 1`. -/
structure PortOut where
  cmdReady : Bool
  rspValid : Bool
  rsp : Option Response
  busy : Bool
  deriving DecidableEq, Repr

/-- The output pins in state `s` while the host drives `rst`. `cmd_ready = 1` exactly when the block
is idle and no response is waiting (R72); `busy` is 1 from the acceptance of a command to the
acceptance of its response (R70); all are 0 while `rst` is 1 (R220). That they are 0 as sampled at the
FIRST edge with `rst = 1` already, so that a response that `rsp_ready` meets there is withdrawn and not
accepted, is the model's choice (DESIGN CHOICE, log 14). -/
def portOut (rst : Bool) (s : State) : PortOut :=
  if rst then ⟨false, false, none, false⟩
  else ⟨s.rsp.isNone, s.rsp.isSome, s.rsp, s.rsp.isSome⟩

/-- The reset transition: the reset state, whatever the block was doing (R220, R221). The parameters
and the host's coming pin levels are not the block's to change. -/
def State.doReset (s : State) : State := (State.resetWith s.par).setInputs s.inputs

/-- Decode and run one accepted command word; an illegal opcode fails with `IllegalCommand` and
changes nothing but `LASTERR` (R78, R79). -/
def runWord (w : Word) (s : State) : Result :=
  match decodeWord w with
  | .ok i => exec i s
  | .error _ => raise .primitive .illegalCommand s

/-- What the block does at an edge at which the host drives `p` (R71, R72, R220): reset; else, with a
response waiting, its acceptance when `rsp_ready = 1`; else the acceptance and execution of the
offered command, when there is one. -/
def edge (p : PortIn) (s : State) : Result :=
  if p.rst then .next s.doReset
  else
    match s.rsp with
    | some _ => if p.rspReady then .next (s.setRsp none) else .next s
    | none => if p.cmdValid then runWord p.cmdWord s else .next s

/-- The next edge: the pin levels the host drives at it are taken from the head of `inputs`. With no
levels left the host drives nothing and the state does not change (20_memory.md R61). -/
def nextEdge (s : State) : Result :=
  match s.inputs with
  | [] => .next s
  | p :: rest => edge p (s.setInputs rest)

/-- The pin levels of a host that offers the command word `w`. -/
def offer (w : Word) : PortIn := ⟨false, true, w, false⟩

/-- The pin levels of a host that accepts the waiting response. -/
def accept : PortIn := ⟨false, false, 0#64, true⟩

/-- The state in which the very next edge accepts and runs the command word `w`: the host offers it
first, and no response is waiting (R71, R72). -/
def State.offerNext (w : Word) (s : State) : State :=
  (s.setRsp none).setInputs (offer w :: s.inputs)

/-- The pin levels of a host that issues the commands in order and accepts each response. -/
def hostProgram (is : List Instr) : List PortIn := is.flatMap fun i => [offer (encode i), accept]

end Sys2Proof.Machine
end

