-- ==== Sys2Proof/Machine/Step.lean ====
section
/-! DEFINITION. One step of HUFFCORE: one rising edge of `clk` at which the block samples its pins, a
command accepted at an edge being run to completion within the step (30_encoding.md R72,
70_reset_and_hazards.md R231; log 3). -/

namespace Sys2Proof.Machine

/-- One step: a block with parameters outside their legal ranges is refused (60_exceptions.md R212);
any other does what the next edge says. -/
def step (s : State) : Host.Outcome State Fault Refusal :=
  if legalParams s.par then nextEdge s else .refused .illegalParameters

/-- `s` with the command whose `nbits` bits are `w`, the bits above them 0, offered on the command
port at the next edge (log 2). -/
def State.withFetchWord (s : State) (nbits w : Nat) : State :=
  s.offerNext (BitVec.ofNat 64 (w % 2 ^ nbits))

end Sys2Proof.Machine
end

