-- ==== Sys2Proof/Machine/Sequencer.lean ====
section
/-! DEFINITION. The sequencer: the FSM tables of 40_ordered_sequence.md R101, 41_tree_builder.md R118,
42_code_table.md R134, 43_encoder.md R152, 44_decoder.md R167, 45_header_codec.md R185 and R186, over
the working registers of 10_state.md R25. "The normative semantics are the procedures"
(92_eei_decisions.md D13), which `exec` gives; this finer machine runs the same commands one state
visit at a time, and the two are claimed equal (log 9). `step` does not use it. -/

namespace Sys2Proof.Machine

/-- The values of the sequencer state register `seq` (R23). `heNum second` says which number of the
pair `HE_NUM` is writing (log 9). -/
inductive Seq where
  | idle
  | pqScan | pqShup | pqWrite | pqShdn | pqFind
  | tbInit | tbScan | tbLeaf | tbCheck | tbPopl | tbPopr | tbMerge | tbPush | tbFinish
  | cgClear | cgStart | cgPop | cgLeaf | cgPush
  | fcClear | fcCount
  | heScan | heNum (second : Bool) | heTrim
  | enInit | enNl | enFetch | enShift | enFlush | enDone | enFail
  | hpInit | hpByte | hpTok | hpEnd | hpFail
  | deInit | deSplit | deCase | deRep | deSym | deByte | deStep | deDone | deFail
  deriving DecidableEq, Repr

/-- Where a sequence sub-machine of R101 comes back to: its caller. -/
inductive Caller where
  | insertCmd | removeAtCmd | removeValCmd | leaf | push | popL | popR | finish
  deriving DecidableEq, Repr

/-- The working registers (R25), `sp` being the length of `stk`. -/
structure Work where
  sym : Nat
  lPtr : Nat
  rPtr : Nat
  newPtr : Nat
  insPos : Nat
  cur : Nat
  ipos : Nat
  hdrEnd : Nat
  bodyStart : Nat
  path : BitVec 256
  depth : Nat
  stk : List (Nat × Nat × Bool)
  shBits : BitVec 256
  shCnt : Nat
  pkByte : Byte
  pkCnt : Nat
  upByte : Byte
  upCnt : Nat
  emitted : Nat
  total : Nat
  repCnt : Nat
  tokVal : Nat
  tokSat : Bool
  tokDigits : Bool
  tokBad : Bool
  tokOdd : Bool
  curBv : Byte
  decBuf : List Byte
  deriving DecidableEq, Repr

/-- Every working register at its reset value, 0 (R25, R39). -/
def Work.reset : Work where
  sym := 0
  lPtr := 0
  rPtr := 0
  newPtr := 0
  insPos := 0
  cur := 0
  ipos := 0
  hdrEnd := 0
  bodyStart := 0
  path := 0#256
  depth := 0
  stk := []
  shBits := 0#256
  shCnt := 0
  pkByte := 0#8
  pkCnt := 0
  upByte := 0#8
  upCnt := 0
  emitted := 0
  total := 0
  repCnt := 0
  tokVal := 0
  tokSat := false
  tokDigits := false
  tokBad := false
  tokOdd := false
  curBv := 0#8
  decBuf := []

/-- The block in the middle of a command. -/
structure Micro where
  /-- The architectural state. -/
  st : State
  /-- `seq` (R23). -/
  seq : Seq
  /-- The working registers (R25). -/
  work : Work
  /-- The command in hand, with its operands. -/
  cmd : Instr
  /-- Who called the sequence sub-machine that runs (R101, R118: "and come back"). -/
  caller : Caller
  /-- `pack`, the `CONFIG.PACK` that `EN_INIT` and `DE_INIT` read once (R152, R167); R25 does not name it
  (log 9). -/
  pack : Bool
  /-- The bit `DE_SYM` or `DE_BYTE` hands to `DE_STEP` (R167). -/
  bit : Bool
  /-- The entry `PQ[pq_size]` while `PQ_SHUP` has moved the highest entry up (R101). -/
  spill : Nat
  /-- `visited` of CG.GEN and `pairs` of HD.PARSE, which R25 does not name (log 9). -/
  count : Nat
  /-- The kind a "fail" of the tables raises. -/
  err : Kind
  deriving DecidableEq, Repr

/-- The block at rest in state `s`: `seq = IDLE` (R23), every working register at 0. At reset that is R39;
between commands their values are left open ("any", 93_implementation_defined.md U18), and 0 is the model's
choice (DESIGN CHOICE, log 9). -/
def Micro.rest (s : State) : Micro where
  st := s
  seq := .idle
  work := Work.reset
  cmd := .clear
  caller := .insertCmd
  pack := false
  bit := false
  spill := 0
  count := 0
  err := .illegalCommand

/-- `seq <- q` (R9). -/
def Micro.goto (q : Seq) (m : Micro) : Micro := { m with seq := q }

/-- Change working registers. -/
def Micro.regs (f : Work → Work) (m : Micro) : Micro := { m with work := f m.work }

/-- Change the architectural state. -/
def Micro.arch (f : State → State) (m : Micro) : Micro := { m with st := f m.st }

/-- Go to the failure state `q` with an error kind. -/
def Micro.failTo (q : Seq) (k : Kind) (m : Micro) : Micro := { m with seq := q, err := k }

/-- The response with status `OK`; back to `IDLE` (R23, R72). -/
def Micro.finish (d : Word) (m : Micro) : Micro :=
  (m.arch (State.setRsp (some ⟨0#8, d⟩))).goto .idle

/-- The error response of a command of class `c`; back to `IDLE` (60_exceptions.md R200). -/
def Micro.raise (c : FailClass) (k : Kind) (m : Micro) : Micro :=
  (m.arch fun s => ((failEffect c s).setLastErr k.code).setRsp (some ⟨k.code, 0#64⟩)).goto .idle

/-- Call the sequence sub-machine at `q`, to come back to `c`. -/
def Micro.call (q : Seq) (c : Caller) (m : Micro) : Micro := { m with seq := q, caller := c }

/-! ### The Ordered Sequence (R101) -/

/-- The element `PQ_SCAN` inserts: the operand of PQ.INSERT, or the node just allocated. -/
def Micro.element (m : Micro) : Nat :=
  if m.caller = .insertCmd then operandA m.cmd else m.work.newPtr

/-- `PQ_SCAN`. -/
def pqScanStep (m : Micro) : Micro :=
  if m.work.insPos < m.st.pq.length
      ∧ greater m.st.nodes (pqAt m.work.insPos m.st.pq) m.element = false then
    m.regs fun w => { w with insPos := w.insPos + 1 }
  else m.goto .pqShup

/-- `PQ_SHUP`: entries `pq_size - 1` down to `ins_pos` move up by one; the highest lands beyond the
count. -/
def pqShupStep (m : Micro) : Micro :=
  let moved := m.st.pq.insertIdx m.work.insPos (pqAt m.work.insPos m.st.pq)
  { m with
    st := m.st.setPq (moved.take m.st.pq.length)
    spill := pqAt m.st.pq.length moved
    seq := .pqWrite }

/-- Where `PQ_WRITE` goes: "the caller's next state". -/
def pqWriteNext (m : Micro) : Micro :=
  match m.caller with
  | .insertCmd => m.finish (natWord m.work.insPos)
  | .leaf => m.goto .tbScan
  | .push => m.goto .tbCheck
  | .removeAtCmd | .removeValCmd | .popL | .popR | .finish => m.goto .idle

/-- `PQ_WRITE`: `PQ[ins_pos] <- p; pq_size <- pq_size + 1`. -/
def pqWriteStep (m : Micro) : Micro :=
  pqWriteNext (m.arch fun s => s.setPq ((s.pq ++ [m.spill]).set m.work.insPos m.element))

/-- `PQ_SHDN`: `PQ[ins_pos]` is the result, the entries above it move down by one. -/
def pqShdnStep (m : Micro) : Micro :=
  let p := pqAt m.work.insPos m.st.pq
  let m' := m.arch fun s => s.setPq (pqRemoveAt m.work.insPos s.pq)
  match m.caller with
  | .removeAtCmd => m'.finish (natWord p)
  | .removeValCmd => m'.finish (natWord m.work.insPos)
  | .popL => (m'.regs fun w => { w with lPtr := p }).goto .tbPopr
  | .popR => (m'.regs fun w => { w with rPtr := p }).goto .tbMerge
  | .finish =>
    let m'' := m'.arch fun s => { s with root := some p }
    match m.cmd with
    | .encode => (m''.regs fun w => { w with sym := 0 }).goto .heScan
    | .decode => m''.goto .deCase
    | _ => m''.finish m''.st.rootWord
  | .insertCmd | .leaf | .push => m'.goto .idle

/-- `PQ_FIND`. -/
def pqFindStep (m : Micro) : Micro :=
  let absent := match m.cmd with
    | .pqContains _ => m.finish 0#64
    | _ => m.raise .primitive .notFound
  if m.work.insPos < m.st.pq.length then
    if nodeEq m.st.nodes (pqAt m.work.insPos m.st.pq) (operandA m.cmd) then
      match m.cmd with
      | .pqContains _ => m.finish 1#64
      | _ => m.call .pqShdn .removeValCmd
    else if greater m.st.nodes (pqAt m.work.insPos m.st.pq) (operandA m.cmd) then absent
    else m.regs fun w => { w with insPos := w.insPos + 1 }
  else absent

/-! ### The merge FSM (R118) -/

/-- `TB_INIT`. -/
def tbInitStep (m : Micro) : Micro :=
  ((m.arch fun s =>
    { s with pq := [], nodes := [], root := none, emptyFlag := false, codesValid := false }).regs
      fun w => { w with sym := 0 }).goto .tbScan

/-- `TB_SCAN`. -/
def tbScanStep (m : Micro) : Micro :=
  if m.work.sym = nSym then m.goto .tbCheck
  else if m.st.freq.get (byteOf m.work.sym) ≠ 0 then m.goto .tbLeaf
  else m.regs fun w => { w with sym := w.sym + 1 }

/-- `TB_LEAF`: `new_ptr <- AllocLeaf(sym, FREQ[sym]); PqInsert(new_ptr); sym <- sym + 1`. -/
def tbLeafStep (m : Micro) : Micro :=
  (({ m with
      st := m.st.setNodes (alloc m.st.nodes
        (leafNode (byteOf m.work.sym) (m.st.freq.get (byteOf m.work.sym)))) }).regs
    fun w => { w with newPtr := m.st.nodes.length, sym := w.sym + 1, insPos := 0 }).call
      .pqScan .leaf

/-- `TB_CHECK`. -/
def tbCheckStep (m : Micro) : Micro :=
  if 1 < m.st.pq.length then m.goto .tbPopl else m.goto .tbFinish

/-- `TB_POPL` and `TB_POPR`: `PqRemoveAt(0)` for the caller `c`. -/
def tbPopStep (c : Caller) (m : Micro) : Micro :=
  (m.regs fun w => { w with insPos := 0 }).call .pqShdn c

/-- `TB_MERGE`: `new_ptr <- AllocInternal(l_ptr, r_ptr)`. -/
def tbMergeStep (m : Micro) : Micro :=
  (({ m with
      st := m.st.setNodes
        (alloc m.st.nodes (mergedNode m.st.nodes m.work.lPtr m.work.rPtr)) }).regs
    fun w => { w with newPtr := m.st.nodes.length }).goto .tbPush

/-- `TB_PUSH`: `PqInsert(new_ptr)`. -/
def tbPushStep (m : Micro) : Micro :=
  (m.regs fun w => { w with insPos := 0 }).call .pqScan .push

/-- `TB_FINISH`. -/
def tbFinishStep (m : Micro) : Micro :=
  if m.st.pq.length = 1 then tbPopStep .finish m
  else
    let m' := m.arch fun s => { s with emptyFlag := true }
    match m.cmd with
    | .encode => (m'.regs fun w => { w with sym := 0 }).goto .heScan
    | .decode => m'.goto .deCase
    | _ => m'.finish m'.st.rootWord

/-! ### The code table generator (R134) -/

/-- `CG_CLEAR`. -/
def cgClearStep (m : Micro) : Micro :=
  if m.work.sym = nSym then m.goto .cgStart
  else
    ({ m with st := { m.st with
        code := m.st.code.set (byteOf m.work.sym) CodeEntry.empty } }).regs
      fun w => { w with sym := w.sym + 1 }

/-- `CG_START`. -/
def cgStartStep (m : Micro) : Micro :=
  match m.st.root with
  | none => (m.regs fun w => { w with stk := [] }).goto .cgPop
  | some r => (m.regs fun w => { w with stk := [(r, 0, false)] }).goto .cgPop

/-- What follows a finished traversal: the response of CG.GEN, or the body of ENCODE (R152). -/
def cgDone (m : Micro) : Micro :=
  let m' := m.arch fun s => { s with codesValid := true }
  match m.cmd with
  | .encode => (m'.regs fun w => { w with ipos := 0 }).goto .enFetch
  | _ => m'.finish (natWord m.count)

/-- Write one bit of the path register. -/
def setPathBit (path : BitVec 256) (k : Nat) (bit : Bool) : BitVec 256 :=
  (path &&& ~~~(1#256 <<< k)) ||| (BitVec.ofNat 256 bit.toNat <<< k)

/-- `CG_POP`; `cur` holds the node popped. -/
def cgPopStep (m : Micro) : Micro :=
  match m.work.stk with
  | [] => cgDone m
  | (n, d, bit) :: rest =>
    let m' := m.regs fun w =>
      { w with
        stk := rest
        path := if 0 < d then setPathBit w.path (d - 1) bit else w.path
        depth := d
        cur := n }
    if (nodeAt m.st.nodes n).isLeaf then m'.goto .cgLeaf else m'.goto .cgPush

/-- `CG_LEAF`: `bits = path[depth-1:0]` zero-extended. -/
def cgLeafStep (m : Micro) : Micro :=
  { m with
    st := { m.st with
      code := m.st.code.set (nodeAt m.st.nodes m.work.cur).value
        ⟨BitVec.ofNat 8 m.work.depth, m.work.path &&& BitVec.ofNat 256 (2 ^ m.work.depth - 1)⟩ }
    count := m.count + 1
    seq := .cgPop }

/-- `CG_PUSH`: the right child first, so that the left is popped first. -/
def cgPushStep (m : Micro) : Micro :=
  (m.regs fun w =>
    { w with
      stk := ((nodeAt m.st.nodes w.cur).left, w.depth + 1, false)
        :: ((nodeAt m.st.nodes w.cur).right, w.depth + 1, true) :: w.stk }).goto .cgPop

/-! ### The frequency counter, the header emitter and the encoder (R152, R186) -/

/-- `FC_CLEAR`. -/
def fcClearStep (m : Micro) : Micro :=
  if m.work.sym = nSym then (m.regs fun w => { w with ipos := 0 }).goto .fcCount
  else
    ({ m with st := m.st.setFreq (m.st.freq.set (byteOf m.work.sym) 0) }).regs
      fun w => { w with sym := w.sym + 1 }

/-- `FC_COUNT`. -/
def fcCountStep (m : Micro) : Micro :=
  if m.work.ipos < m.st.ibuf.length then
    ({ m with st := m.st.setFreq (bump m.st.freq (m.st.ibuf.getD m.work.ipos 0#8)) }).regs
      fun w => { w with ipos := w.ipos + 1 }
  else
    match m.cmd with
    | .encode => m.goto .tbInit
    | _ => m.finish (natWord m.st.ibuf.length)

/-- `Put(x)` inside ENCODE or DECODE, going to `q` on success and to the failure state otherwise. -/
def Micro.putThen (x : Byte) (fail : Seq) (k : Micro → Micro) (m : Micro) : Micro :=
  match put m.st.par.obufCap x m.st.obuf with
  | .ok o => k (m.arch (State.setObuf o))
  | .error e => m.failTo fail e

/-- A byte of the header: through `Put` in ENCODE (R152); HD.CREATE checks the finished length
instead, as R177 does (log 9). -/
def Micro.headerByte (x : Byte) (k : Micro → Micro) (m : Micro) : Micro :=
  match m.cmd with
  | .encode => m.putThen x .enFail k
  | _ => k (m.arch fun s => s.setObuf (s.obuf ++ [x]))

/-- The bytes of the header one after the other, none after one that does not fit. -/
def Micro.headerBytes : List Byte → (Micro → Micro) → Micro → Micro
  | [], k, m => k m
  | x :: rest, k, m => m.headerByte x (Micro.headerBytes rest k)

/-- `HE_SCAN`. -/
def heScanStep (m : Micro) : Micro :=
  if m.work.sym = nSym then m.goto .heTrim
  else if m.st.freq.get (byteOf m.work.sym) = 0 then m.regs fun w => { w with sym := w.sym + 1 }
  else m.goto (.heNum false)

/-- `HE_NUM`: `sym` on its first visit, then `FREQ[sym]`, is converted to decimal digits in `dec_buf` and
appended, most significant digit first, with one 0x20 after it. R186 leaves the method and the number of
visits open ("Any binary-to-decimal method may be used"): one visit a number, in which all the digits are
converted, with the 0x20 never in `dec_buf`, is the model's choice (DESIGN CHOICE, log 9). -/
def heNumStep (second : Bool) (m : Micro) : Micro :=
  let digits := dec (if second then m.st.freq.get (byteOf m.work.sym) else m.work.sym)
  (m.regs fun w => { w with decBuf := digits }).headerBytes (digits ++ [charSpace]) fun m' =>
    if second then (m'.regs fun w => { w with sym := w.sym + 1 }).goto .heScan
    else m'.goto (.heNum true)

/-- `HE_TRIM`: `OLEN` is lowered by one if any pair was written. -/
def heTrimStep (m : Micro) : Micro :=
  let m' := m.arch fun s => s.setObuf s.obuf.dropLast
  match m.cmd with
  | .encode => m'.goto .enNl
  | _ =>
    if m.st.par.obufCap < m'.st.obuf.length then m'.raise .headerWriter .capacity
    else m'.finish (natWord m'.st.obuf.length)

/-- `pack <- CONFIG.PACK`, read once at the start of ENCODE and DECODE (R152, R167). -/
def Micro.latchPack (m : Micro) : Micro := { m with pack := m.st.pack }

/-- `EN_INIT`. -/
def enInitStep (m : Micro) : Micro :=
  ((m.latchPack.arch (State.setObuf [])).regs
    fun w => { w with pkCnt := 0, pkByte := 0#8, sym := 0 }).goto .fcClear

/-- `EN_NL`. -/
def enNlStep (m : Micro) : Micro :=
  m.putThen charNewline .enFail fun m' =>
    if m'.st.branched then (m'.regs fun w => { w with sym := 0 }).goto .cgClear
    else m'.goto .enDone

/-- `EN_FETCH`. -/
def enFetchStep (m : Micro) : Micro :=
  if m.work.ipos < m.st.ibuf.length then
    let c := m.st.code.get (m.st.ibuf.getD m.work.ipos 0#8)
    (m.regs fun w =>
      { w with shBits := c.bits, shCnt := c.len.toNat, ipos := w.ipos + 1 }).goto .enShift
  else m.goto .enFlush

/-- After `EmitBit` in `EN_SHIFT`: `sh_bits >> 1`, `sh_cnt - 1`. -/
def enShifted (m : Micro) : Micro :=
  let m' := m.regs fun w => { w with shBits := w.shBits >>> 1, shCnt := w.shCnt - 1 }
  if m'.work.shCnt = 0 then m'.goto .enFetch else m'.goto .enShift

/-- The bit packer's registers and the output (R149). -/
def Micro.packer (m : Micro) : Packer := ⟨m.st.obuf, m.work.pkByte, m.work.pkCnt⟩

/-- What the bit packer leaves: the output, `pk_byte` and `pk_cnt` (R149). -/
def Micro.setPacker (p : Packer) (m : Micro) : Micro :=
  (m.arch (State.setObuf p.out)).regs fun w => { w with pkByte := p.pkByte, pkCnt := p.pkCnt }

/-- `EN_SHIFT`. -/
def enShiftStep (m : Micro) : Micro :=
  match emitBit m.st.par.obufCap m.pack (m.work.shBits.getLsbD 0) m.packer with
  | .ok p => enShifted (m.setPacker p)
  | .error k => m.failTo .enFail k

/-- `EN_FLUSH`. -/
def enFlushStep (m : Micro) : Micro :=
  match flushBits m.st.par.obufCap m.pack m.packer with
  | .ok p => (m.setPacker p).goto .enDone
  | .error k => m.failTo .enFail k

/-! ### The header parser (R185) -/

/-- `hi`: the end of the string parsed, `ILEN` for HD.PARSE and `hdr_end` for DECODE. -/
def Micro.hi (m : Micro) : Nat :=
  match m.cmd with
  | .decode => m.work.hdrEnd
  | _ => m.st.ibuf.length

/-- The token registers at 0. -/
def Work.clearToken (w : Work) : Work :=
  { w with tokVal := 0, tokSat := false, tokDigits := false, tokBad := false }

/-- `HP_INIT`, with `lo = 0`. -/
def hpInitStep (m : Micro) : Micro :=
  if m.work.sym = nSym then
    (({ m with count := 0 }).regs
      fun w => { w.clearToken with ipos := 0, tokOdd := false }).goto .hpByte
  else
    ({ m with st := m.st.setFreq (m.st.freq.set (byteOf m.work.sym) 0) }).regs
      fun w => { w with sym := w.sym + 1 }

/-- A byte of an open token, a digit or not. -/
def tokenByte (wFreq : Nat) (c : Byte) (w : Work) : Work :=
  if isDigit c then
    if 2 ^ wFreq - 1 < decStep w.tokVal c then { w with tokDigits := true, tokSat := true }
    else { w with tokDigits := true, tokVal := decStep w.tokVal c }
  else { w with tokBad := true }

/-- A token is open. -/
def Work.tokenOpen (w : Work) : Bool := w.tokDigits || w.tokBad

/-- `HP_BYTE`. -/
def hpByteStep (m : Micro) : Micro :=
  if m.work.ipos < m.hi then
    let c := m.st.ibuf.getD m.work.ipos 0#8
    let m' := m.regs fun w => { w with ipos := w.ipos + 1 }
    if isSpace c then
      if m.work.tokenOpen then m'.goto .hpTok else m'
    else m'.regs (tokenByte m.st.par.wFreq c)
  else m.goto .hpEnd

/-- Close a token as `HP_TOK` does, then go on with `k`. -/
def closeTokenThen (k : Micro → Micro) (m : Micro) : Micro :=
  if m.work.tokBad then m.failTo .hpFail .malformedHeader
  else if m.work.tokOdd = false then
    if m.work.tokSat ∨ 255 < m.work.tokVal then m.failTo .hpFail .malformedHeader
    else
      k (m.regs fun w => { w.clearToken with curBv := byteOf w.tokVal, tokOdd := true })
  else if m.work.tokSat then m.failTo .hpFail .capacity
  else
    k ({ m with
      st := m.st.setFreq (m.st.freq.set m.work.curBv m.work.tokVal)
      work := { m.work.clearToken with tokOdd := false }
      count := m.count + 1 })

/-- `HP_TOK`. -/
def hpTokStep (m : Micro) : Micro := closeTokenThen (Micro.goto .hpByte) m

/-- The end of `HP_END`: the odd-count check, then the response or the caller's next state. -/
def hpFinish (m : Micro) : Micro :=
  if m.work.tokOdd then m.failTo .hpFail .malformedHeader
  else
    match m.cmd with
    | .decode => m.goto .tbInit
    | _ => m.finish (natWord m.count)

/-- `HP_END`. -/
def hpEndStep (m : Micro) : Micro :=
  if m.work.tokenOpen then closeTokenThen hpFinish m else hpFinish m

/-- `HP_FAIL`. -/
def hpFailStep (m : Micro) : Micro :=
  match m.cmd with
  | .decode => m.goto .deFail
  | _ => m.raise .headerReader m.err

/-! ### The decoder (R167) -/

/-- `DE_INIT`. -/
def deInitStep (m : Micro) : Micro :=
  ((m.latchPack.arch (State.setObuf [])).regs fun w => { w with ipos := 0 }).goto .deSplit

/-- `DE_SPLIT`. -/
def deSplitStep (m : Micro) : Micro :=
  if m.work.ipos < m.st.ibuf.length then
    if m.st.ibuf.getD m.work.ipos 0#8 = charNewline then
      (m.regs fun w =>
        { w with hdrEnd := w.ipos, bodyStart := w.ipos + 1, sym := 0 }).goto .hpInit
    else m.regs fun w => { w with ipos := w.ipos + 1 }
  else
    (m.regs fun w =>
      { w with hdrEnd := m.st.ibuf.length, bodyStart := m.st.ibuf.length, sym := 0 }).goto .hpInit

/-- The root node, when there is one. -/
def State.rootPtr (s : State) : Nat := s.root.getD 0

/-- `DE_CASE`. -/
def deCaseStep (m : Micro) : Micro :=
  match m.st.root with
  | none => m.goto .deDone
  | some r =>
    if (nodeAt m.st.nodes r).isLeaf then
      (m.regs fun w => { w with repCnt := (nodeAt m.st.nodes r).weight }).goto .deRep
    else
      let m' := m.regs fun w => { w with cur := r, ipos := w.bodyStart }
      if m.pack then
        (m'.regs fun w =>
          { w with emitted := 0, total := (nodeAt m.st.nodes r).weight, upCnt := 0 }).goto .deByte
      else m'.goto .deSym

/-- `DE_REP`. -/
def deRepStep (m : Micro) : Micro :=
  if m.work.repCnt = 0 then m.goto .deDone
  else
    m.putThen (nodeAt m.st.nodes m.st.rootPtr).value .deFail
      fun m' => m'.regs fun w => { w with repCnt := w.repCnt - 1 }

/-- `DE_SYM`: the ASCII bit unpacker. -/
def deSymStep (m : Micro) : Micro :=
  if m.work.ipos < m.st.ibuf.length then
    let c := m.st.ibuf.getD m.work.ipos 0#8
    let m' := m.regs fun w => { w with ipos := w.ipos + 1 }
    if c = charZero ∨ c = charOne then { m' with bit := c.getLsbD 0, seq := .deStep }
    else m'.failTo .deFail .malformedBody
  else if m.work.cur = m.st.rootPtr then m.goto .deDone
  else m.failTo .deFail .malformedBody

/-- Take one bit from `up_byte` (R167 `DE_BYTE`). -/
def deTakeBit (m : Micro) : Micro :=
  { m.regs (fun w => { w with upByte := w.upByte <<< 1, upCnt := w.upCnt - 1 }) with
    bit := m.work.upByte.getLsbD 7
    seq := .deStep }

/-- `DE_BYTE`: the PACKED8 bit unpacker. -/
def deByteStep (m : Micro) : Micro :=
  if m.work.emitted = m.work.total then m.goto .deDone
  else if m.work.upCnt = 0 then
    if m.work.ipos < m.st.ibuf.length then
      deTakeBit (m.regs fun w =>
        { w with upByte := m.st.ibuf.getD w.ipos 0#8, ipos := w.ipos + 1, upCnt := 8 })
    else m.failTo .deFail .malformedBody
  else deTakeBit m

/-- Where `DE_STEP` goes: the unpacker of the body format. -/
def deStepNext (m : Micro) : Micro := if m.pack then m.goto .deByte else m.goto .deSym

/-- `DE_STEP`: the tree walker. -/
def deStepStep (m : Micro) : Micro :=
  let next :=
    if m.bit then (nodeAt m.st.nodes m.work.cur).right else (nodeAt m.st.nodes m.work.cur).left
  if (nodeAt m.st.nodes next).isLeaf then
    m.putThen (nodeAt m.st.nodes next).value .deFail fun m' =>
      deStepNext (m'.regs fun w => { w with emitted := w.emitted + 1, cur := m.st.rootPtr })
  else deStepNext (m.regs fun w => { w with cur := next })

/-! ### One state visit, and the start of a command -/

/-- One state visit of the sequencer; `IDLE` stays. -/
def microStep (m : Micro) : Micro :=
  match m.seq with
  | .idle => m
  | .pqScan => pqScanStep m
  | .pqShup => pqShupStep m
  | .pqWrite => pqWriteStep m
  | .pqShdn => pqShdnStep m
  | .pqFind => pqFindStep m
  | .tbInit => tbInitStep m
  | .tbScan => tbScanStep m
  | .tbLeaf => tbLeafStep m
  | .tbCheck => tbCheckStep m
  | .tbPopl => tbPopStep .popL m
  | .tbPopr => tbPopStep .popR m
  | .tbMerge => tbMergeStep m
  | .tbPush => tbPushStep m
  | .tbFinish => tbFinishStep m
  | .cgClear => cgClearStep m
  | .cgStart => cgStartStep m
  | .cgPop => cgPopStep m
  | .cgLeaf => cgLeafStep m
  | .cgPush => cgPushStep m
  | .fcClear => fcClearStep m
  | .fcCount => fcCountStep m
  | .heScan => heScanStep m
  | .heNum second => heNumStep second m
  | .heTrim => heTrimStep m
  | .enInit => enInitStep m
  | .enNl => enNlStep m
  | .enFetch => enFetchStep m
  | .enShift => enShiftStep m
  | .enFlush => enFlushStep m
  | .enDone => m.finish (natWord m.st.obuf.length)
  | .enFail => m.raise .composite m.err
  | .hpInit => hpInitStep m
  | .hpByte => hpByteStep m
  | .hpTok => hpTokStep m
  | .hpEnd => hpEndStep m
  | .hpFail => hpFailStep m
  | .deInit => deInitStep m
  | .deSplit => deSplitStep m
  | .deCase => deCaseStep m
  | .deRep => deRepStep m
  | .deSym => deSymStep m
  | .deByte => deByteStep m
  | .deStep => deStepStep m
  | .deDone => m.finish (natWord m.st.obuf.length)
  | .deFail => m.raise .composite m.err

/-- `n` state visits. -/
def microRun : Nat → Micro → Micro
  | 0, m => m
  | n + 1, m => microRun n (microStep m)

/-- A command without an FSM table ("constant, no loop", 70_reset_and_hazards.md R230), or one whose
operand checks fail: it ends in the state visit that accepts it. -/
def Micro.atOnce (r : Result) (m : Micro) : Micro :=
  match r with
  | .next t => { m with st := t }
  | .fault _ => m
  | .refused _ => m

/-- The sequencer accepts the command `i` in state `s`: the operand checks, then the first state of
its table. A scan starts from the 0 that `Micro.rest` gives `ins_pos` (`PQ_SCAN` of PQ.INSERT, `PQ_FIND`)
or `sym` (`FC_CLEAR` of FQ.COUNT, `CG_CLEAR` of CG.GEN, `HE_SCAN` of HD.CREATE, `HP_INIT` of HD.PARSE), and
not from a write of its own; that, too, is the model's choice (DESIGN CHOICE, log 9). -/
def Micro.begin (i : Instr) (s : State) : Micro :=
  let m : Micro := { Micro.rest s with cmd := i }
  match i with
  | .pqInsert a =>
    if ¬ isNode a s then m.raise .primitive .badOperand
    else if s.pq.length = pqCap then m.raise .primitive .capacity
    else m.call .pqScan .insertCmd
  | .pqRemoveAt b =>
    if ¬ isPosition b s then m.raise .primitive .outOfRange
    else (m.regs fun w => { w with insPos := b }).call .pqShdn .removeAtCmd
  | .pqRemoveVal a => if ¬ isNode a s then m.raise .primitive .badOperand else m.goto .pqFind
  | .pqContains a => if ¬ isNode a s then m.raise .primitive .badOperand else m.goto .pqFind
  | .fqCount => m.goto .fcClear
  | .tbBuild => m.goto .tbInit
  | .cgGen => m.goto .cgClear
  | .hdCreate => (m.arch (State.setObuf [])).goto .heScan
  | .hdParse => m.goto .hpInit
  | .encode => m.goto .enInit
  | .decode => m.goto .deInit
  | .clear | .csrRead _ | .csrWrite _ _ | .ibReset | .ibPut _ | .obGet _ | .fqClear
  | .fqWrite _ _ | .fqRead _ | .ndLeaf _ _ | .ndMerge _ _ | .ndRead _ | .ndKids _ | .ndEq _ _
  | .pqClear | .pqPeekAt _ | .pqSize | .ctLen _ | .ctBits _ _ => m.atOnce (exec i s)

/-- Reset while a command runs: the command is abandoned, no response is given, and the state is the
reset state (70_reset_and_hazards.md R221). -/
def Micro.doReset (m : Micro) : Micro :=
  Micro.rest ((State.resetWith m.st.par).setInputs m.st.inputs)

end Sys2Proof.Machine
end

