-- ==== Sys2Proof/Safety.lean ====
section
/-! DEFINITION. What the claims are stated in: the state an answered command leaves, the classes and
error kinds of the commands (60_exceptions.md R202, R203), the read commands (20_memory.md R56), and
the invariant of 10_state.md R22. -/

namespace Sys2Proof.Machine

/-- `s` with the response `OK` and data `d` offered, and nothing else changed (30_encoding.md R77). -/
def State.ok (d : Word) (s : State) : State := { s with rsp := some ⟨0#8, d⟩ }

/-- `s` with `LASTERR` and the response of the failure of code `c`, and nothing else changed
(60_exceptions.md R200). -/
def State.err (c : BitVec 8) (s : State) : State :=
  { s with lastErr := c, rsp := some ⟨c, 0#64⟩ }

/-- The state after `WipeWork()`, `IBUF`, `ILEN`, `CONFIG` and `LASTERR` as before
(46_system_and_buffers.md R190). -/
def State.wiped (s : State) : State :=
  { State.resetWith s.par with
    ibuf := s.ibuf
    pack := s.pack
    lastErr := s.lastErr
    rsp := s.rsp
    inputs := s.inputs }

/-- Every item of the architectural state, and the response port, is at its value after reset
(10_state.md R39, 70_reset_and_hazards.md R220). -/
def AtResetValues (s : State) : Prop :=
  (∀ v, s.freq.get v = 0) ∧ s.nodes.length = 0 ∧ s.pq.length = 0 ∧ s.root = none
    ∧ (∀ v, (s.code.get v).len = 0#8 ∧ (s.code.get v).bits = 0#256)
    ∧ s.codesValid = false ∧ s.emptyFlag = false ∧ s.ibuf.length = 0 ∧ s.obuf.length = 0
    ∧ s.pack = false ∧ s.lastErr = 0#8 ∧ s.rsp = none

/-- The class of a command for R203. -/
def failClass : Instr → FailClass
  | .hdCreate => .headerWriter
  | .hdParse => .headerReader
  | .encode => .composite
  | .decode => .composite
  | _ => .primitive

/-- The error kinds a command can raise, by the table of R202. -/
def errorKinds : Instr → List Kind
  | .clear | .ibReset | .fqClear | .fqCount | .pqClear | .pqSize | .tbBuild | .cgGen => []
  | .csrRead _ | .csrWrite _ _ | .obGet _ | .fqWrite _ _ | .fqRead _ | .ndRead _ | .ndKids _
  | .ndEq _ _ | .pqContains _ | .ctLen _ | .ctBits _ _ => [.badOperand]
  | .ibPut _ | .ndLeaf _ _ | .ndMerge _ _ | .pqInsert _ => [.badOperand, .capacity]
  | .pqRemoveAt _ | .pqPeekAt _ => [.outOfRange]
  | .pqRemoveVal _ => [.badOperand, .notFound]
  | .hdCreate | .encode => [.capacity]
  | .hdParse => [.malformedHeader, .capacity]
  | .decode => [.malformedHeader, .malformedBody, .capacity]

/-- The commands that read and change nothing when they succeed (20_memory.md R56). -/
def isRead : Instr → Bool
  | .fqRead _ | .ndRead _ | .ndKids _ | .ndEq _ _ | .pqPeekAt _ | .pqContains _ | .pqSize
  | .ctLen _ | .ctBits _ _ | .obGet _ | .csrRead _ => true
  | _ => false

/-- The opcodes that are not in the opcode map, as R79 lists them. -/
def illegalOpcode (op : Nat) : Bool :=
  decide (op = 0x00) || (decide (0x04 ≤ op) && decide (op ≤ 0x0F))
    || (decide (0x13 ≤ op) && decide (op ≤ 0x1F)) || (decide (0x24 ≤ op) && decide (op ≤ 0x2F))
    || (decide (0x35 ≤ op) && decide (op ≤ 0x3F)) || (decide (0x47 ≤ op) && decide (op ≤ 0x4F))
    || (decide (0x54 ≤ op) && decide (op ≤ 0x5F)) || (decide (0x62 ≤ op) && decide (op ≤ 0x6F))
    || decide (0x72 ≤ op)

/-- The state a failed command leaves, but for `LASTERR` and the response (R203). -/
def State.afterFailure (i : Instr) (s : State) : State :=
  match failClass i with
  | .primitive => s
  | .headerWriter => { s with obuf := [] }
  | .headerReader => { s with freq := Table.fill 0 }
  | .composite => s.wiped

/-! ### Which commands may write which state, when they succeed or fail -/

/-- The commands that write `FREQ` (10_state.md R26). -/
def writesFreq : Instr → Bool
  | .clear | .fqClear | .fqWrite _ _ | .fqCount | .hdParse | .encode | .decode => true
  | _ => false

/-- The commands that write `NODE` and `nd_count` (R27, 41_tree_builder.md R108, R109). -/
def writesNodes : Instr → Bool
  | .clear | .ndLeaf _ _ | .ndMerge _ _ | .tbBuild | .encode | .decode => true
  | _ => false

/-- The commands that set `nd_count` back to 0 (R27). -/
def restartsNodes : Instr → Bool
  | .clear | .tbBuild | .encode | .decode => true
  | _ => false

/-- The commands that write `PQ` and `pq_size` (40_ordered_sequence.md). -/
def writesPq : Instr → Bool
  | .clear | .pqClear | .pqInsert _ | .pqRemoveAt _ | .pqRemoveVal _ | .tbBuild | .encode
  | .decode => true
  | _ => false

/-- The commands that write `root`, `root_valid` and `empty_flag` (R29, R35). -/
def writesRoot : Instr → Bool
  | .clear | .tbBuild | .encode | .decode => true
  | _ => false

/-- The commands that write `CODE` (R30). -/
def writesCode : Instr → Bool
  | .clear | .cgGen | .encode | .decode => true
  | _ => false

/-- The commands that write `codes_valid` (R35). -/
def writesCodesValid : Instr → Bool
  | .clear | .cgGen | .tbBuild | .encode | .decode => true
  | _ => false

/-- The commands that write `IBUF` and `ILEN` (R31). -/
def writesIbuf : Instr → Bool
  | .ibReset | .ibPut _ => true
  | _ => false

/-- The commands that write `OBUF` and `OLEN` (R32). -/
def writesObuf : Instr → Bool
  | .clear | .hdCreate | .encode | .decode => true
  | _ => false

/-- The commands that write `CONFIG` (R34). -/
def writesPack : Instr → Bool
  | .csrWrite _ _ => true
  | _ => false

/-! ### Trees and codes, without the procedures that make them -/

/-- The byte values of non-zero frequency, ascending. -/
def present (freq : Table Nat) : List Byte :=
  (freq.entries.filter fun vw => vw.2 != 0).map Prod.fst

/-- The node reached from `n` along a path, left on 0 and right on 1; none where the path leaves the
tree (42_code_table.md R130). -/
def descend (nodes : List Node) : Nat → List Bool → Option Nat
  | n, [] => some n
  | n, b :: rest =>
    match (nodeAt nodes n).kids with
    | none => none
    | some (l, r) => descend nodes (if b then r else l) rest

/-- `path` leads from `root` to a leaf of byte `v`. -/
def LeadsTo (nodes : List Node) (root : Nat) (v : Byte) (path : List Bool) : Prop :=
  ∃ p, descend nodes root path = some p ∧ (nodeAt nodes p).kids = none ∧ (nodeAt nodes p).value = v

/-- Slot `p` is allocated before slot `n` and is no child of a slot before `n`: in a build it is in
the sequence when slot `n` is filled (41_tree_builder.md R120). -/
def Unmerged (nodes : List Node) (n p : Nat) : Prop :=
  p < n ∧ ∀ m l r, m < n → (nodeAt nodes m).kids = some (l, r) → p ≠ l ∧ p ≠ r

/-- The code table of a frequency table: `GenCodes` after `BuildTree` (43_encoder.md R145). -/
def codesOf (freq : Table Nat) : Table CodeEntry := genTable (builtNodes freq) (builtRoot freq)

/-- A proper prefix of a present byte's code, the empty one among them: what is left over when a body
ends in the middle of a code. -/
def PartOfCode (freq : Table Nat) (x : List Bool) : Prop :=
  ∃ v ∈ present freq, x <+: codeBits ((codesOf freq).get v) ∧ x ≠ codeBits ((codesOf freq).get v)

/-- What is wrong with token number `k` of a header, by itself (45_header_codec.md R180, R182). -/
def tokenFault (wFreq k : Nat) (t : List Byte) : Option Kind :=
  if ¬ isNumeric t then some .malformedHeader
  else if k % 2 = 0 then (if 255 < decVal t then some .malformedHeader else none)
  else if 2 ^ wFreq ≤ decVal t then some .capacity
  else none

/-! ### Runs -/

/-- The commands one after the other, the host accepting each response (30_encoding.md R72). -/
def runCommands : List Instr → State → Result
  | [], s => .next s
  | i :: rest, s =>
    match exec i s with
    | .next t => runCommands rest (t.setRsp none)
    | .fault f => .fault f
    | .refused r => .refused r

/-- The sequencer, from the acceptance of `i`, comes back to `IDLE` after finitely many state visits,
with the state and the response that the command's rule gives (log 9). -/
def SequencerAgrees (i : Instr) (s : State) : Prop :=
  ∃ n, (microRun n (Micro.begin i s)).seq = .idle
    ∧ exec i s = .next (microRun n (Micro.begin i s)).st

/-! ### The invariant -/

/-- The records of node memory are as R22 clauses (e) and (f) say. -/
structure NodesOk (wFreq : Nat) (nodes : List Node) : Prop where
  /-- Clause (e): an internal record's children have smaller indices, its weight is the sum of
  theirs, below `2^W_WEIGHT`, and its value the minimum of theirs. -/
  internal : ∀ p l r, p < nodes.length → (nodeAt nodes p).kids = some (l, r) →
    l < p ∧ r < p
      ∧ (nodeAt nodes p).weight = (nodeAt nodes l).weight + (nodeAt nodes r).weight
      ∧ (nodeAt nodes p).weight < 2 ^ (wFreq + 8)
      ∧ (nodeAt nodes p).value = minByte (nodeAt nodes l).value (nodeAt nodes r).value
  /-- Clause (f): a leaf's weight fits a counter. -/
  leaf : ∀ p, p < nodes.length → (nodeAt nodes p).kids = none →
    (nodeAt nodes p).weight < 2 ^ wFreq

/-- The sequence is in rank order (R22 clause c). -/
def RankOrdered (nodes : List Node) (pq : List Nat) : Prop :=
  pq.Pairwise fun p q => less nodes q p = false

/-- The invariant of 10_state.md R22, with the widths and the legal values that R20, R34 to R36 and
60_exceptions.md R201 give, and the two properties of every tree `GenCodes` meets (00_scope.md R7
clause c, 70_reset_and_hazards.md R223 clause d). Clause (d) of R22 holds by the form of the state. -/
structure Inv (s : State) : Prop where
  /-- The parameters are legal (00_scope.md R6). -/
  params : legalParams s.par = true
  /-- A counter has `W_FREQ` bits (R26). -/
  counters : ∀ v, s.freq.get v < 2 ^ s.par.wFreq
  /-- Clause (a). -/
  nodeCount : s.nodes.length ≤ nNode
  /-- Clause (a). -/
  sequenceSize : s.pq.length ≤ pqCap
  /-- Clause (b). -/
  sequenceAllocated : ∀ p ∈ s.pq, p < s.nodes.length
  /-- Clause (c). -/
  rankOrder : RankOrdered s.nodes s.pq
  /-- Clauses (e) and (f). -/
  nodes : NodesOk s.par.wFreq s.nodes
  /-- Clause (g). -/
  rootAllocated : ∀ r, s.root = some r → r < s.nodes.length
  /-- Every path of the current tree has at most `MAX_CODE_LEN` bits (R7 clause c). -/
  rootDepth : ∀ vp ∈ treePaths s.nodes s.root, vp.2.length ≤ maxCodeLen
  /-- The leaves of the current tree have distinct bytes (R223 clause d). -/
  rootLeaves : ((treePaths s.nodes s.root).map Prod.fst).Nodup
  /-- Clause (h). -/
  codes : s.codesValid = true → s.code = genTable s.nodes s.root
  /-- Bits of a code table entry at and beyond its length are 0 (R30). -/
  codeTail : ∀ v k, (s.code.get v).len.toNat ≤ k → (s.code.get v).bits.getLsbD k = false
  /-- Clause (i). -/
  inputFits : s.ibuf.length ≤ s.par.ibufCap
  /-- Clause (i). -/
  outputFits : s.obuf.length ≤ s.par.obufCap
  /-- Clause (j). -/
  notRootAndEmpty : ¬ (s.root.isSome = true ∧ s.emptyFlag = true)
  /-- `LASTERR` is 0 or a status code of R201. -/
  errorCode : s.lastErr.toNat ≤ 7
  /-- `CONFIG.PACK = 1` only where PACKED8 is implemented (R34). -/
  packLegal : s.pack = true → s.par.packSupported = true

end Sys2Proof.Machine
end

