-- ==== Sys2Proof/Certificates/Slice0/Obligations.lean ====
section
/-! DEFINITION. The statements for the provers, each a proposition about the model. A docstring cites
the rules of spec/ a statement formalises; a reset value, a parameter value or a layout that is the
model's own choice is named with its log entry. -/

section

open Sys2Proof Sys2Proof.Machine

/-! ### Encoding -/

/-- R73, R76, R80: every command that can be written as a word is read back from its word, with every
operand at every value its field holds. -/
def Obligations.DecodeEncodeRoundTrip : Prop :=
  ∀ i : Instr, i.wellFormed = true →
    decodeWord (encode i) = .ok i ∧ decodeTableWord 64 (encode i).toNat = some i

/-- R74, R75: the opcode alone selects the command; an operand is the whole of its field as an unsigned
integer; a field the format ignores has no effect, and assemblers write 0 there. -/
def Obligations.FormatsSelectOperandFields : Prop :=
  (∀ w i, decodeWord w = .ok i →
      opcode i = opField w ∧ i.wellFormed = true
        ∧ (format i = .a ∨ format i = .ab → operandA i = aField w)
        ∧ (format i = .b ∨ format i = .ab → operandB i = bField w)
        ∧ (format i = .z ∨ format i = .b → operandA i = 0)
        ∧ (format i = .z ∨ format i = .a → operandB i = 0))
    ∧ (∀ w w' i, decodeWord w = .ok i → opField w' = opField w →
      (format i = .a ∨ format i = .ab → aField w' = aField w) →
      (format i = .b ∨ format i = .ab → bField w' = bField w) →
      decodeWord w' = .ok i)
    ∧ ∀ i, (format i = .z ∨ format i = .b → aField (encode i) = 0)
      ∧ (format i = .z ∨ format i = .a → bField (encode i) = 0)

/-- R79: the 226 other opcodes are illegal; such a word fails with `IllegalCommand` and changes nothing
but `LASTERR`; the all-zero word is one of them, and no other word is refused. -/
def Obligations.IllegalOpcodeFailsWithIllegalCommand : Prop :=
  ((List.range 256).filter illegalOpcode).length = 226
    ∧ illegalOpcode (opField 0#64).toNat = true
    ∧ (∀ w, illegalOpcode (opField w).toNat = true ↔ ∀ i, decodeWord w ≠ .ok i)
    ∧ ∀ w s, illegalOpcode (opField w).toNat = true →
      runWord w s = .next { s with lastErr := 6#8, rsp := some ⟨6#8, 0#64⟩ }

/-- R73, R76: words written out by hand from the encoding, one per group of the opcode map. -/
def Obligations.WrittenOutWordsDecode : Prop :=
  decodeWord 0x0300000000000001#64 = .ok (.csrWrite 0 1)
    ∧ decodeWord 0x1100610000000000#64 = .ok (.ibPut 97)
    ∧ decodeWord 0x2100710000000017#64 = .ok (.fqWrite 113 23)
    ∧ decodeWord 0x31FFFEFFFFFFFFFF#64 = .ok (.ndMerge 65534 1099511627775)
    ∧ decodeWord 0x4212348000000000#64 = .ok (.pqRemoveAt 549755813888)
    ∧ decodeWord 0x5300610000000003#64 = .ok (.ctBits 97 3)
    ∧ decodeWord 0x6100000000000000#64 = .ok .hdParse
    ∧ decodeWord 0x71FFFFFFFFFFFFFF#64 = .ok .decode
    ∧ decodeWord 0x7200000000000000#64 = .error (.illegalOpcode 0x72#8)

/-! ### Ports, steps, reset -/

/-- R71, R72, R78: at an edge at which the host offers a word that decodes to `i` and the block can
accept it, the step is `exec i`, the pin levels of that edge consumed; and that is the step of the state
in which a word is placed as the next command. That the command has run to completion within the edge is
the model's choice (log 3), as is the queue of pin levels (log 2). -/
def Obligations.StepRunsAcceptedCommand : Prop :=
  (∀ s p rest i, legalParams s.par = true → s.inputs = p :: rest → p.rst = false →
      p.cmdValid = true → s.rsp = none → decodeWord p.cmdWord = .ok i →
      step s = exec i { s with inputs := rest })
    ∧ ∀ (s : State) w i, legalParams s.par = true → decodeTableWord 64 w = some i →
      step (s.withFetchWord 64 w) = exec i { s with rsp := none }

/-- R71: when a command and when a response is accepted, at an edge without reset; a response not yet
accepted does not change. Two things are the model's choice and no rule of the spec. A command accepted at
an edge completes within it, so between steps exactly one of `cmd_ready` and `rsp_valid` is 1, where by
R72 both are 0 while a command runs (log 3). The pin levels are a queue, one taken at each edge
(log 2). -/
def Obligations.PortHandshake : Prop :=
  ∀ s p rest, legalParams s.par = true → s.inputs = p :: rest → p.rst = false →
    ((portOut p.rst s).cmdReady = true → p.cmdValid = true →
        step s = runWord p.cmdWord { s with inputs := rest })
      ∧ ((portOut p.rst s).cmdReady = true → p.cmdValid = false →
        step s = .next { s with inputs := rest })
      ∧ ((portOut p.rst s).rspValid = true → p.rspReady = true →
        step s = .next { s with inputs := rest, rsp := none })
      ∧ ((portOut p.rst s).rspValid = true → p.rspReady = false →
        step s = .next { s with inputs := rest }
          ∧ (portOut p.rst { s with inputs := rest }).rsp = (portOut p.rst s).rsp)
      ∧ (portOut p.rst s).cmdReady = !(portOut p.rst s).rspValid

/-- R39, R220: a rising edge with `rst = 1` gives the reset state, with the value of every item, from
every state, and in the middle of a command too, whatever the sequencer was doing; the ports are 0 while
`rst` stays 1 and the block can accept a command once it is 0; CLEAR differs in `IBUF` and `PACK`
only. That the ports are 0 at the first edge with `rst = 1` too, from every state, is the model's choice
(log 14). -/
def Obligations.ResetFromEveryState : Prop :=
  (∀ s p rest, legalParams s.par = true → s.inputs = p :: rest → p.rst = true →
      ∃ t, step s = .next t ∧ AtResetValues t ∧ t.par = s.par)
    ∧ AtResetValues State.reset
    ∧ (∀ s, portOut true s = ⟨false, false, none, false⟩)
    ∧ (∀ s, AtResetValues s → (portOut false s).cmdReady = true)
    ∧ (∀ m : Micro, m.doReset.seq = .idle ∧ m.doReset.work = Work.reset
      ∧ AtResetValues m.doReset.st)
    ∧ ∀ s t : State, exec .clear s = .next t →
      AtResetValues { t with ibuf := [], pack := false, rsp := none }

/-- R21, R39, R191: what the host can read right after reset. -/
def Obligations.ResetReadOut : Prop :=
  ∀ par, let r := State.resetWith par
    (∀ a, a ≤ 6 → exec (.csrRead a) r = .next (r.ok 0#64))
      ∧ (∀ a, a ≤ 255 → exec (.fqRead a) r = .next (r.ok 0#64))
      ∧ (∀ a, a ≤ 255 → exec (.ctLen a) r = .next (r.ok 0#64))
      ∧ exec .pqSize r = .next (r.ok 0#64)
      ∧ (∀ a, exec (.ndRead a) r = .next (r.err 7#8))
      ∧ (∀ b, exec (.pqPeekAt b) r = .next (r.err 1#8))
      ∧ ∀ b, exec (.obGet b) r = .next (r.err 7#8)

/-- R22: the invariant holds right after reset, for all legal parameters and at the defaults. -/
def Obligations.ResetStateSatisfiesInvariant : Prop :=
  (∀ par, legalParams par = true → Inv (State.resetWith par)) ∧ Inv State.reset

/-- R22: every command, and every step, preserves the invariant from every state that has it. -/
def Obligations.EveryStepKeepsInvariant : Prop :=
  (∀ i (s t : State), Inv s → exec i s = .next t → Inv t)
    ∧ ∀ s t : State, Inv s → step s = .next t → Inv t

/-- R6, R12, R212: a step is refused exactly when a parameter is outside its legal range, and otherwise
gives a next state. -/
def Obligations.OnlyIllegalParametersAreRefused : Prop :=
  ∀ s : State,
    ((1 ≤ s.par.wFreq ∧ s.par.wFreq ≤ 32 ∧ s.par.ibufCap ≤ 2 ^ s.par.wFreq - 1
        ∧ 1 ≤ s.par.obufCap ∧ s.par.obufCap ≤ 2 ^ 40) → ∃ t, step s = .next t)
      ∧ (¬ (1 ≤ s.par.wFreq ∧ s.par.wFreq ≤ 32 ∧ s.par.ibufCap ≤ 2 ^ s.par.wFreq - 1
        ∧ 1 ≤ s.par.obufCap ∧ s.par.obufCap ≤ 2 ^ 40) → step s = .refused .illegalParameters)

/-! ### All commands -/

/-- R12, R77, R212: every command and every word, in every state, gives a next state with exactly one
response; a failure carries a code from 1 to 7 and data 0. -/
def Obligations.EveryCommandAnswersOnce : Prop :=
  (∀ i s, ∃ t r, exec i s = .next t ∧ t.rsp = some r ∧ r.status.toNat ≤ 7
      ∧ (r.status ≠ 0#8 → r.data = 0#64))
    ∧ ∀ w s, ∃ t r, runWord w s = .next t ∧ t.rsp = some r ∧ r.status.toNat ≤ 7
      ∧ (r.status ≠ 0#8 → r.data = 0#64)

/-- R200, R203: what a failed command leaves, by class: the state it found, but `OLEN = 0` after
HD.CREATE, a zero `FREQ` after HD.PARSE and wiped tables after ENCODE and DECODE; `LASTERR` and the
response carry the code of one kind. Of which kind: one that the table of R202 has for the command. -/
def Obligations.FailureLeavesTheStateOfItsClass : Prop :=
  (∀ i s t r, exec i s = .next t → t.rsp = some r → r.status ≠ 0#8 →
      ∃ k ∈ errorKinds i, r = ⟨k.code, 0#64⟩
        ∧ t = { s.afterFailure i with lastErr := k.code, rsp := some ⟨k.code, 0#64⟩ })
    ∧ ∀ w s, (∀ i, decodeWord w ≠ .ok i) →
      runWord w s = .next { s with lastErr := 6#8, rsp := some ⟨6#8, 0#64⟩ }

/-- R56: the read commands change nothing when they succeed but the response they offer, and a
repeated read answers the same. -/
def Obligations.ReadsHaveNoSideEffect : Prop :=
  ∀ i s t d, isRead i = true → exec i s = .next t → t.rsp = some ⟨0#8, d⟩ →
    t = { s with rsp := some ⟨0#8, d⟩ } ∧ exec i { t with rsp := none } = .next t

/-- R26 to R36: each piece of state has its writers, and every other command leaves it as it was, every
entry and every byte; the parameters and the host's coming pin levels are written by none. -/
def Obligations.EachPieceOfStateHasItsWriters : Prop :=
  ∀ i (s t : State), exec i s = .next t →
    t.par = s.par ∧ t.inputs = s.inputs
      ∧ (writesFreq i = false → ∀ v, t.freq.get v = s.freq.get v)
      ∧ (writesNodes i = false → t.nodes = s.nodes)
      ∧ (writesPq i = false → t.pq = s.pq)
      ∧ (writesRoot i = false → t.root = s.root ∧ t.emptyFlag = s.emptyFlag)
      ∧ (writesCode i = false → ∀ v, t.code.get v = s.code.get v)
      ∧ (writesCodesValid i = false → t.codesValid = s.codesValid)
      ∧ (writesIbuf i = false →
        t.ibuf.length = s.ibuf.length ∧ ∀ a, byteAt t.ibuf a = byteAt s.ibuf a)
      ∧ (writesObuf i = false →
        t.obuf.length = s.obuf.length ∧ ∀ a, byteAt t.obuf a = byteAt s.obuf a)
      ∧ (writesPack i = false → t.pack = s.pack)
      ∧ (i ≠ .clear → (∀ d, t.rsp = some ⟨0#8, d⟩ → t.lastErr = s.lastErr))

/-- R27, R105: a record of node memory is never changed while it is allocated, and none is given back,
until a command sets `nd_count` back to 0. -/
def Obligations.NodeRecordsAreImmutable : Prop :=
  ∀ i (s t : State), exec i s = .next t → restartsNodes i = false →
    s.nodes.length ≤ t.nodes.length ∧ t.nodes.length ≤ s.nodes.length + 1
      ∧ ∀ p, p < s.nodes.length → nodeAt t.nodes p = nodeAt s.nodes p

/-- R38: who writes the flags as a side effect, the whole table. -/
def Obligations.FlagWriters : Prop :=
  ∀ i s t r, exec i s = .next t → t.rsp = some r →
    (i = .tbBuild → (t.root.isSome = true ↔ ∃ v, s.freq.get v ≠ 0)
        ∧ t.emptyFlag = !t.root.isSome ∧ t.codesValid = false ∧ t.lastErr = s.lastErr)
      ∧ (i = .cgGen → t.root = s.root ∧ t.emptyFlag = s.emptyFlag ∧ t.codesValid = true
        ∧ t.lastErr = s.lastErr)
      ∧ (i = .encode → r.status = 0#8 → (t.root.isSome = true ↔ ∃ v, t.freq.get v ≠ 0)
        ∧ t.emptyFlag = !t.root.isSome ∧ (t.codesValid = true ↔ 2 ≤ (present t.freq).length)
        ∧ t.lastErr = s.lastErr)
      ∧ (i = .decode → r.status = 0#8 → (t.root.isSome = true ↔ ∃ v, t.freq.get v ≠ 0)
        ∧ t.emptyFlag = !t.root.isSome ∧ t.codesValid = false ∧ t.lastErr = s.lastErr)
      ∧ (i = .encode ∨ i = .decode → r.status ≠ 0#8 → t.root = none ∧ t.emptyFlag = false
        ∧ t.codesValid = false ∧ t.lastErr = r.status)
      ∧ (i = .clear → t.root = none ∧ t.emptyFlag = false ∧ t.codesValid = false
        ∧ t.lastErr = 0#8)
      ∧ (i ≠ .tbBuild → i ≠ .cgGen → i ≠ .encode → i ≠ .decode → i ≠ .clear →
        t.root = s.root ∧ t.emptyFlag = s.emptyFlag ∧ t.codesValid = s.codesValid
          ∧ t.lastErr = if r.status = 0#8 then s.lastErr else r.status)

/-- R57, R72, R81: a host that offers commands and accepts each response gets the commands' effects in
the order it issues them, two edges a command (log 3); and what the loading pseudo-commands do. -/
def Obligations.CommandsRunInOrder : Prop :=
  (∀ is s rest, legalParams s.par = true → s.rsp = none → (∀ i ∈ is, i.wellFormed = true) →
      s.inputs = hostProgram is ++ rest →
      Host.Core.run core (2 * is.length) s = runCommands is { s with inputs := rest })
    ∧ (∀ bytes s, s.rsp = none → bytes.length ≤ s.par.ibufCap →
      runCommands (expand (.ibLoad bytes)) s = .next { s with ibuf := bytes })
    ∧ (∀ pairs s, s.rsp = none → (∀ p ∈ pairs, p.2 < 2 ^ s.par.wFreq) →
      ∃ F, runCommands (expand (.fqLoad pairs)) s = .next { s with freq := F }
        ∧ (∀ v, (∀ p ∈ pairs, p.1 ≠ v) → F.get v = 0)
        ∧ ∀ before v f after, pairs = before ++ (v, f) :: after → (∀ p ∈ after, p.1 ≠ v) →
          F.get v = f)
    ∧ expand .pqPopMin = [.pqRemoveAt 0] ∧ expand .pqPeekMin = [.pqPeekAt 0]

/-! ### System commands and buffers -/

/-- R190: CLEAR, and the state it leaves against the reset state. -/
def Obligations.ClearWipesWorkingState : Prop :=
  ∀ (s : State) a b, decodeOp 0x01#8 a b = some .clear
    ∧ exec .clear s = .next
      { s with
        freq := Table.fill 0, pq := [], nodes := [], root := none, emptyFlag := false
        codesValid := false, code := Table.fill CodeEntry.empty, obuf := [], lastErr := 0#8
        rsp := some ⟨0#8, 0#64⟩ }
    ∧ exec .clear s = .next
      { State.resetWith s.par with
        ibuf := s.ibuf, pack := s.pack, inputs := s.inputs, rsp := some ⟨0#8, 0#64⟩ }

/-- R191 with the layouts of R33 to R37: CSR.READ of each register, and of an index that does not exist.
The root of a state within the invariant fits its 9 bits. -/
def Obligations.CsrReadLayouts : Prop :=
  ∀ (s : State) a b, decodeOp 0x02#8 a b = some (.csrRead a)
    ∧ (6 < a → exec (.csrRead a) s = .next (s.err 7#8))
    ∧ exec (.csrRead 0) s = .next (s.ok (natWord (if s.pack then 1 else 0)))
    ∧ exec (.csrRead 1) s = .next (s.ok (natWord
        ((if s.root.isSome then 1 else 0)
          + (match s.root with
            | none => 0
            | some r => if (nodeAt s.nodes r).kids = none then 2 else 0)
          + (if s.emptyFlag then 4 else 0) + (if s.codesValid then 8 else 0))))
    ∧ exec (.csrRead 2) s = .next (s.ok (natWord s.lastErr.toNat))
    ∧ exec (.csrRead 3) s = .next (s.ok (natWord s.ibuf.length))
    ∧ exec (.csrRead 4) s = .next (s.ok (natWord s.obuf.length))
    ∧ exec (.csrRead 5) s = .next (s.ok (natWord s.nodes.length))
    ∧ (s.root = none → exec (.csrRead 6) s = .next (s.ok 0#64))
    ∧ ∀ r, Inv s → s.root = some r → exec (.csrRead 6) s = .next (s.ok (natWord (65536 + r)))

/-- R192: CSR.WRITE, in the order of its checks; only bit 0 of `b` is used. -/
def Obligations.CsrWriteSetsPackOnly : Prop :=
  ∀ (s : State) a b, decodeOp 0x03#8 a b = some (.csrWrite a b)
    ∧ (a ≠ 0 → exec (.csrWrite a b) s = .next (s.err 7#8))
    ∧ (b % 2 = 1 → s.par.packSupported = false →
      exec (.csrWrite 0 b) s = .next (s.err 7#8))
    ∧ (b % 2 = 1 → s.par.packSupported = true →
      exec (.csrWrite 0 b) s = .next ({ s with pack := true }.ok 0#64))
    ∧ (b % 2 = 0 → exec (.csrWrite 0 b) s = .next ({ s with pack := false }.ok 0#64))

/-- R193, R194, R195: IB.RESET, IB.PUT and OB.GET; IB.PUT stores at index `ILEN` and leaves every other
byte as it was. -/
def Obligations.BufferCommands : Prop :=
  ∀ (s : State) a b,
    (decodeOp 0x10#8 a b = some .ibReset ∧ decodeOp 0x11#8 a b = some (.ibPut a)
        ∧ decodeOp 0x12#8 a b = some (.obGet b))
      ∧ exec .ibReset s = .next ({ s with ibuf := [] }.ok 0#64)
      ∧ (255 < a → exec (.ibPut a) s = .next (s.err 7#8))
      ∧ (a ≤ 255 → s.ibuf.length = s.par.ibufCap → exec (.ibPut a) s = .next (s.err 5#8))
      ∧ (a ≤ 255 → s.ibuf.length ≠ s.par.ibufCap →
        ∃ buf, exec (.ibPut a) s
            = .next ({ s with ibuf := buf }.ok (natWord (s.ibuf.length + 1)))
          ∧ buf.length = s.ibuf.length + 1
          ∧ byteAt buf s.ibuf.length = some (byteOf a)
          ∧ ∀ j, j ≠ s.ibuf.length → byteAt buf j = byteAt s.ibuf j)
      ∧ (s.obuf.length ≤ b → exec (.obGet b) s = .next (s.err 7#8))
      ∧ ∀ x, byteAt s.obuf b = some x → exec (.obGet b) s = .next (s.ok (x.setWidth 64))

/-! ### The frequency table -/

/-- R140, R141, R142: FQ.CLEAR, FQ.WRITE and FQ.READ; a write leaves every other entry. -/
def Obligations.FrequencyEntryCommands : Prop :=
  ∀ (s : State) a b,
    (decodeOp 0x20#8 a b = some .fqClear ∧ decodeOp 0x21#8 a b = some (.fqWrite a b)
        ∧ decodeOp 0x22#8 a b = some (.fqRead a))
      ∧ (∃ F, exec .fqClear s = .next ({ s with freq := F }.ok 0#64) ∧ ∀ v, F.get v = 0)
      ∧ (255 < a → exec (.fqWrite a b) s = .next (s.err 7#8))
      ∧ (2 ^ s.par.wFreq ≤ b → exec (.fqWrite a b) s = .next (s.err 7#8))
      ∧ (a ≤ 255 → b < 2 ^ s.par.wFreq →
        ∃ F, exec (.fqWrite a b) s = .next ({ s with freq := F }.ok 0#64)
          ∧ F.get (byteOf a) = b ∧ ∀ v, v ≠ byteOf a → F.get v = s.freq.get v)
      ∧ (255 < a → exec (.fqRead a) s = .next (s.err 7#8))
      ∧ (a ≤ 255 → exec (.fqRead a) s = .next (s.ok (natWord (s.freq.get (byteOf a)))))

/-- R143, R144: FQ.COUNT counts every byte of the input, whatever its value; the entries sum to `ILEN`,
and within the invariant none overflows its counter. -/
def Obligations.CountFrequencies : Prop :=
  ∀ (s : State) a b, decodeOp 0x23#8 a b = some .fqCount
    ∧ ∃ F, exec .fqCount s = .next ({ s with freq := F }.ok (natWord s.ibuf.length))
      ∧ (∀ v, F.get v = s.ibuf.count v)
      ∧ F.cells.sum = s.ibuf.length
      ∧ (Inv s → ∀ v, F.get v < 2 ^ s.par.wFreq)

/-! ### Nodes -/

/-- R108 to R111: ND.LEAF and ND.MERGE, with their checks in order; the record appended and its pointer
as the response. -/
def Obligations.NodeAllocation : Prop :=
  ∀ (s : State) a b,
    (decodeOp 0x30#8 a b = some (.ndLeaf a b) ∧ decodeOp 0x31#8 a b = some (.ndMerge a b))
      ∧ (255 < a ∨ 2 ^ s.par.wFreq ≤ b → exec (.ndLeaf a b) s = .next (s.err 7#8))
      ∧ (a ≤ 255 → b < 2 ^ s.par.wFreq → s.nodes.length = 511 →
        exec (.ndLeaf a b) s = .next (s.err 5#8))
      ∧ (a ≤ 255 → b < 2 ^ s.par.wFreq → s.nodes.length ≠ 511 →
        exec (.ndLeaf a b) s
          = .next ({ s with nodes := s.nodes ++ [(⟨byteOf a, b, none⟩ : Node)] }.ok
              (natWord s.nodes.length)))
      ∧ (s.nodes.length ≤ a ∨ s.nodes.length ≤ b →
        exec (.ndMerge a b) s = .next (s.err 7#8))
      ∧ ∀ l r, s.nodes[a]? = some l → s.nodes[b]? = some r →
        (s.nodes.length = 511 ∨ 2 ^ (s.par.wFreq + 8) ≤ l.weight + r.weight →
            exec (.ndMerge a b) s = .next (s.err 5#8))
          ∧ (s.nodes.length ≠ 511 → l.weight + r.weight < 2 ^ (s.par.wFreq + 8) →
            ∃ n, exec (.ndMerge a b) s
                = .next ({ s with nodes := s.nodes ++ [n] }.ok (natWord s.nodes.length))
              ∧ n.value.toNat = min l.value.toNat r.value.toNat
              ∧ n.weight = l.weight + r.weight ∧ n.kids = some (a, b))

/-- R112, R113: the packed results of ND.READ and ND.KIDS, in a state within the invariant, and their
errors in every state. -/
def Obligations.NodeReadOut : Prop :=
  ∀ (s : State) a b,
    (decodeOp 0x32#8 a b = some (.ndRead a) ∧ decodeOp 0x33#8 a b = some (.ndKids a))
      ∧ (s.nodes.length ≤ a →
        exec (.ndRead a) s = .next (s.err 7#8) ∧ exec (.ndKids a) s = .next (s.err 7#8))
      ∧ (∀ v w, s.nodes[a]? = some ⟨v, w, none⟩ → exec (.ndKids a) s = .next (s.err 7#8))
      ∧ (∀ v w, Inv s → s.nodes[a]? = some ⟨v, w, none⟩ →
        exec (.ndRead a) s = .next (s.ok (natWord (2 ^ 48 + v.toNat * 2 ^ 40 + w))))
      ∧ ∀ v w l r, Inv s → s.nodes[a]? = some ⟨v, w, some (l, r)⟩ →
        exec (.ndRead a) s = .next (s.ok (natWord (v.toNat * 2 ^ 40 + w)))
          ∧ exec (.ndKids a) s = .next (s.ok (natWord (r * 2 ^ 16 + l)))

/-- R106: the total order on nodes is lexicographic on the weight and then the value, both unsigned,
and looks at nothing else; `Greater` is `Less` turned round. -/
def Obligations.NodeOrderIsLexicographic : Prop :=
  ∀ nodes p q,
    (less nodes p q = true ↔
        (nodeAt nodes p).weight < (nodeAt nodes q).weight
          ∨ ((nodeAt nodes p).weight = (nodeAt nodes q).weight
            ∧ (nodeAt nodes p).value.toNat < (nodeAt nodes q).value.toNat))
      ∧ greater nodes p q = less nodes q p
      ∧ ∀ nodes' p' q', (nodeAt nodes' p').weight = (nodeAt nodes p).weight →
        (nodeAt nodes' p').value = (nodeAt nodes p).value →
        (nodeAt nodes' q').weight = (nodeAt nodes q).weight →
        (nodeAt nodes' q').value = (nodeAt nodes q).value →
        less nodes' p' q' = less nodes p q

/-- R107, R114: ND.EQ and the equality it answers: the recursion of R107, an equivalence that implies
equal keys, in a state within the invariant; and no two nodes of one built tree are equal. -/
def Obligations.StructuralEquality : Prop :=
  (∀ (s : State) a b, decodeOp 0x34#8 a b = some (.ndEq a b)
      ∧ (s.nodes.length ≤ a ∨ s.nodes.length ≤ b →
        exec (.ndEq a b) s = .next (s.err 7#8))
      ∧ (a < s.nodes.length → b < s.nodes.length →
        exec (.ndEq a b) s = .next (s.ok (if nodeEq s.nodes a b then 1#64 else 0#64))))
    ∧ (∀ (s : State) p q o, Inv s → p < s.nodes.length → q < s.nodes.length → o < s.nodes.length →
      (nodeEq s.nodes p q = true ↔
          (nodeAt s.nodes p).value = (nodeAt s.nodes q).value
            ∧ (nodeAt s.nodes p).weight = (nodeAt s.nodes q).weight
            ∧ (((nodeAt s.nodes p).kids = none ∧ (nodeAt s.nodes q).kids = none)
              ∨ ∃ l r l' r', (nodeAt s.nodes p).kids = some (l, r)
                ∧ (nodeAt s.nodes q).kids = some (l', r')
                ∧ nodeEq s.nodes l l' = true ∧ nodeEq s.nodes r r' = true))
        ∧ nodeEq s.nodes p p = true
        ∧ nodeEq s.nodes p q = nodeEq s.nodes q p
        ∧ (nodeEq s.nodes p q = true → nodeEq s.nodes q o = true → nodeEq s.nodes p o = true))
    ∧ ∀ freq p q, p < (builtNodes freq).length → q < (builtNodes freq).length → p ≠ q →
      nodeEq (builtNodes freq) p q = false

/-! ### The Ordered Sequence -/

/-- R94, R100: PQ.CLEAR and PQ.SIZE; within the invariant the size is at most 256. -/
def Obligations.SequenceClearAndSize : Prop :=
  ∀ (s : State) a b,
    (decodeOp 0x40#8 a b = some .pqClear ∧ decodeOp 0x46#8 a b = some .pqSize)
      ∧ exec .pqClear s = .next ({ s with pq := [] }.ok 0#64)
      ∧ exec .pqSize s = .next (s.ok (natWord s.pq.length))
      ∧ (Inv s → s.pq.length ≤ 256)

/-- R91, R95: PQ.INSERT puts the pointer immediately before the first element strictly greater than it,
answers the position, and keeps the rank order. -/
def Obligations.InsertBeforeFirstGreater : Prop :=
  ∀ (s : State) a b, decodeOp 0x41#8 a b = some (.pqInsert a)
    ∧ (s.nodes.length ≤ a → exec (.pqInsert a) s = .next (s.err 7#8))
    ∧ (a < s.nodes.length → s.pq.length = 256 → exec (.pqInsert a) s = .next (s.err 5#8))
    ∧ (a < s.nodes.length → s.pq.length ≠ 256 →
      ∃ i, i ≤ s.pq.length
        ∧ exec (.pqInsert a) s
          = .next ({ s with pq := s.pq.take i ++ a :: s.pq.drop i }.ok (natWord i))
        ∧ (∀ q ∈ s.pq.take i, greater s.nodes q a = false)
        ∧ (∀ q, s.pq[i]? = some q → greater s.nodes q a = true)
        ∧ (RankOrdered s.nodes s.pq → RankOrdered s.nodes (s.pq.take i ++ a :: s.pq.drop i)))

/-- R93: stability, step by step. In a sequence in rank order an insertion leaves every element with the
new one's key before it, and an insertion or a removal keeps the order of the others. -/
def Obligations.EqualKeysKeepInsertionOrder : Prop :=
  (∀ s t a d, RankOrdered s.nodes s.pq → exec (.pqInsert a) s = .next t →
      t.rsp = some ⟨0#8, d⟩ →
      ∃ before after, t.pq = before ++ a :: after ∧ s.pq = before ++ after
        ∧ ∀ q ∈ after, ¬ ((nodeAt s.nodes q).weight = (nodeAt s.nodes a).weight
          ∧ (nodeAt s.nodes q).value = (nodeAt s.nodes a).value))
    ∧ ∀ s t i b, i = .pqRemoveAt b ∨ i = .pqRemoveVal b → exec i s = .next t →
      t.pq.Sublist s.pq

/-- R92, R96, R97: PQ.REMOVEAT and PQ.PEEKAT; a removal closes the gap and keeps the rank order. -/
def Obligations.RemoveAndPeekByIndex : Prop :=
  ∀ (s : State) a b,
    (decodeOp 0x42#8 a b = some (.pqRemoveAt b) ∧ decodeOp 0x43#8 a b = some (.pqPeekAt b))
      ∧ (s.pq.length ≤ b → exec (.pqRemoveAt b) s = .next (s.err 1#8)
        ∧ exec (.pqPeekAt b) s = .next (s.err 1#8))
      ∧ ∀ p, s.pq[b]? = some p →
        exec (.pqRemoveAt b) s
            = .next ({ s with pq := s.pq.take b ++ s.pq.drop (b + 1) }.ok (natWord p))
          ∧ exec (.pqPeekAt b) s = .next (s.ok (natWord p))
          ∧ (RankOrdered s.nodes s.pq →
            RankOrdered s.nodes (s.pq.take b ++ s.pq.drop (b + 1)))

/-- R98, R99: PQ.REMOVEVAL removes the first structurally equal element, PQ.CONTAINS tells whether there
is one; the early stop never hides a match, in a state within the invariant. -/
def Obligations.RemoveAndFindByValue : Prop :=
  ∀ (s : State) a b,
    (decodeOp 0x44#8 a b = some (.pqRemoveVal a) ∧ decodeOp 0x45#8 a b = some (.pqContains a))
      ∧ (s.nodes.length ≤ a → exec (.pqRemoveVal a) s = .next (s.err 7#8)
        ∧ exec (.pqContains a) s = .next (s.err 7#8))
      ∧ (Inv s → a < s.nodes.length → (∀ q ∈ s.pq, nodeEq s.nodes q a = false) →
        exec (.pqRemoveVal a) s = .next (s.err 2#8)
          ∧ exec (.pqContains a) s = .next (s.ok 0#64))
      ∧ ∀ i q, Inv s → a < s.nodes.length → s.pq[i]? = some q → nodeEq s.nodes q a = true →
        (∀ q' ∈ s.pq.take i, nodeEq s.nodes q' a = false) →
        exec (.pqRemoveVal a) s
            = .next ({ s with pq := s.pq.take i ++ s.pq.drop (i + 1) }.ok (natWord i))
          ∧ exec (.pqContains a) s = .next (s.ok 1#64)

/-! ### The tree builder -/

/-- R117, R121 and the slots of R116: TB.BUILD is a function of `FREQ` alone, and with CG.GEN behind it
so is the code table; the leaves take the first slots in ascending byte value, and the root is the last
of `2 L - 1` slots. -/
def Obligations.TreeBuild : Prop :=
  (∀ a b, decodeOp 0x50#8 a b = some .tbBuild)
    ∧ (∀ freq : Table Nat, ∃ (nodes : List Node) (root : Option Nat),
      (∀ s : State, s.freq = freq → exec .tbBuild s = .next
          ({ s with
            nodes := nodes, pq := [], root := root, emptyFlag := root.isNone
            codesValid := false }.ok
              (natWord (match root with | none => 0 | some r => 65536 + r))))
        ∧ (present freq = [] → nodes = [] ∧ root = none)
        ∧ (∀ v, present freq = [v] → nodes = [⟨v, freq.get v, none⟩] ∧ root = some 0)
        ∧ (present freq ≠ [] → nodes.length = 2 * (present freq).length - 1
          ∧ root = some (2 * (present freq).length - 2))
        ∧ ∀ (k : Nat) v, (present freq)[k]? = some v →
          nodes[k]? = some (⟨v, freq.get v, none⟩ : Node))
    ∧ ∀ s s' t t' u u' : State, s.freq = s'.freq → exec .tbBuild s = .next t →
      exec .tbBuild s' = .next t' → exec .cgGen t = .next u → exec .cgGen t' = .next u' →
      u.nodes = u'.nodes ∧ u.root = u'.root ∧ u.code = u'.code

/-- R115: the contract of the tree builder. No root, a leaf, or an internal root; every byte of
non-zero frequency is at exactly one leaf below the root and no other byte is; `L` leaves and `L - 1`
internal nodes. -/
def Obligations.TreeBuilderContract : Prop :=
  ∀ s t : State, exec .tbBuild s = .next t →
    ((present s.freq).length = 0 → t.root = none)
      ∧ ((present s.freq).length = 1 → ∃ r, t.root = some r ∧ (nodeAt t.nodes r).kids = none)
      ∧ (2 ≤ (present s.freq).length →
        ∃ r, t.root = some r ∧ (nodeAt t.nodes r).kids ≠ none)
      ∧ (∀ r v, t.root = some r → s.freq.get v ≠ 0 → ∃! path, LeadsTo t.nodes r v path)
      ∧ (∀ r v path, t.root = some r → LeadsTo t.nodes r v path → s.freq.get v ≠ 0)
      ∧ (t.nodes.filter fun n => n.isLeaf).length = (present s.freq).length
      ∧ (t.nodes.filter fun n => !n.isLeaf).length = (present s.freq).length - 1

/-- R116, R119, R120: every slot above the leaves is the merge of the two lowest-ranked nodes that no
earlier merge took, the lower-ranked one as the left child; its weight is the sum and its value the
minimum of theirs; and the nodes still to be merged have different values, so no two have equal
keys. -/
def Obligations.MergesTakeTheTwoLowestRanked : Prop :=
  ∀ s t : State, exec .tbBuild s = .next t →
    (∀ n, (present s.freq).length ≤ n → n < t.nodes.length →
        ∃ l r, (nodeAt t.nodes n).kids = some (l, r)
          ∧ (nodeAt t.nodes n).weight = (nodeAt t.nodes l).weight + (nodeAt t.nodes r).weight
          ∧ (nodeAt t.nodes n).value.toNat
            = min (nodeAt t.nodes l).value.toNat (nodeAt t.nodes r).value.toNat
          ∧ Unmerged t.nodes n l ∧ Unmerged t.nodes n r ∧ less t.nodes l r = true
          ∧ ∀ p, Unmerged t.nodes n p → p ≠ l → p ≠ r → less t.nodes r p = true)
      ∧ ∀ n p q, (present s.freq).length ≤ n → n ≤ t.nodes.length → Unmerged t.nodes n p →
        Unmerged t.nodes n q → p ≠ q → (nodeAt t.nodes p).value ≠ (nodeAt t.nodes q).value

/-- R7, R105: the bounds of a build, and what its root carries: the sum of all frequencies and the
smallest byte of non-zero frequency. -/
def Obligations.BuildStaysWithinBounds : Prop :=
  ∀ freq w, (∀ v, freq.get v < 2 ^ w) →
    (leafScan freq).pq.length ≤ 256 ∧ (builtNodes freq).length ≤ 511
      ∧ (∀ n ∈ builtNodes freq, n.weight < 2 ^ (w + 8))
      ∧ ∀ r, builtRoot freq = some r →
        (∀ v path, LeadsTo (builtNodes freq) r v path → path.length ≤ 255)
          ∧ (nodeAt (builtNodes freq) r).weight = freq.cells.sum
          ∧ (present freq).head? = some (nodeAt (builtNodes freq) r).value

/-! ### The code table -/

/-- R130, R132, R133: CG.GEN. A byte's code is the path to its leaf, bit `k` of the entry being bit `k`
of the path; every other entry is empty; the response is the number of leaves. It holds of every tree
within the invariant, and for no tree the table is empty and the response 0. -/
def Obligations.CodesArePaths : Prop :=
  ∀ (s : State) a b, decodeOp 0x51#8 a b = some .cgGen
    ∧ ∃ C n, exec .cgGen s = .next ({ s with code := C, codesValid := true }.ok (natWord n))
      ∧ (s.root = none → n = 0 ∧ ∀ v, C.get v = ⟨0#8, 0#256⟩)
      ∧ ∀ r, Inv s → s.root = some r →
        (∀ v path, LeadsTo s.nodes r v path → (C.get v).len.toNat = path.length
            ∧ ∀ k, (C.get v).bits.getLsbD k = path.getD k false)
          ∧ (∀ v, (∀ path, ¬ LeadsTo s.nodes r v path) → C.get v = ⟨0#8, 0#256⟩)
          ∧ ∃ leaves : List (Byte × List Bool), leaves.Nodup ∧ leaves.length = n
            ∧ ∀ v path, (v, path) ∈ leaves ↔ LeadsTo s.nodes r v path

/-- R135, R136: CT.LEN and CT.BITS read the table as it is; bits at and beyond the length read as 0 in a
state within the invariant. -/
def Obligations.CodeTableReadOut : Prop :=
  ∀ (s : State) a b,
    (decodeOp 0x52#8 a b = some (.ctLen a) ∧ decodeOp 0x53#8 a b = some (.ctBits a b))
      ∧ (255 < a → exec (.ctLen a) s = .next (s.err 7#8)
        ∧ exec (.ctBits a b) s = .next (s.err 7#8))
      ∧ (3 < b → exec (.ctBits a b) s = .next (s.err 7#8))
      ∧ (a ≤ 255 → exec (.ctLen a) s
        = .next (s.ok (natWord (s.code.get (byteOf a)).len.toNat)))
      ∧ (a ≤ 255 → b ≤ 3 → ∃ d, exec (.ctBits a b) s = .next (s.ok d)
        ∧ ∀ k, k < 64 → d.getLsbD k = (s.code.get (byteOf a)).bits.getLsbD (64 * b + k)
          ∧ (Inv s → (s.code.get (byteOf a)).len.toNat ≤ 64 * b + k → d.getLsbD k = false))

/-- R137: in the table of a tree with two or more leaves every present byte has a code of at least one
bit, no code is a prefix of another, and the sum of `2^(-len)` is exactly 1. -/
def Obligations.CodeIsPrefixFreeAndComplete : Prop :=
  ∀ freq : Table Nat, 2 ≤ (present freq).length →
    (∀ v ∈ present freq, 1 ≤ ((codesOf freq).get v).len.toNat)
      ∧ (∀ u ∈ present freq, ∀ v ∈ present freq, u ≠ v →
        ¬ codeBits ((codesOf freq).get u) <+: codeBits ((codesOf freq).get v))
      ∧ ((present freq).map fun v => 2 ^ (255 - ((codesOf freq).get v).len.toNat)).sum = 2 ^ 255

/-! ### The header -/

/-- R11: `Dec` is the shortest decimal spelling, and `DecVal` reads digits, leading zeros allowed, and
is its inverse. -/
def Obligations.DecimalSpelling : Prop :=
  dec 0 = [0x30#8]
    ∧ (∀ n, decVal (dec n) = n ∧ (∀ c ∈ dec n, isDigit c = true) ∧ dec n ≠ [])
    ∧ (∀ n, n ≠ 0 → (dec n).head? ≠ some 0x30#8)
    ∧ (∀ t, decVal (0x30#8 :: t) = decVal t)
    ∧ ∀ t d, d < 10 → decVal (t ++ [byteOf (0x30 + d)]) = 10 * decVal t + d

/-- R175, R176: the header is the pairs `Dec(byte) Dec(frequency)` of the bytes of non-zero frequency in
ascending order, one space between numbers and none at the end; it has digits and spaces only, and at
`W_FREQ = 32` at most 3729 bytes. -/
def Obligations.HeaderGrammar : Prop :=
  ∀ freq : Table Nat,
    createHeader freq = List.intercalate [0x20#8]
        ((present freq).map fun v => dec v.toNat ++ 0x20#8 :: dec (freq.get v))
      ∧ (∀ c ∈ createHeader freq, isDigit c = true ∨ c = 0x20#8)
      ∧ charNewline ∉ createHeader freq
      ∧ ((∀ v, freq.get v < 2 ^ 32) → (createHeader freq).length ≤ 3729)

/-- R177: HD.CREATE. -/
def Obligations.HeaderCreate : Prop :=
  ∀ (s : State) a b, decodeOp 0x60#8 a b = some .hdCreate
    ∧ (s.par.obufCap < (createHeader s.freq).length →
      exec .hdCreate s = .next ({ s with obuf := [] }.err 5#8))
    ∧ ((createHeader s.freq).length ≤ s.par.obufCap →
      exec .hdCreate s
        = .next ({ s with obuf := createHeader s.freq }.ok
            (natWord (createHeader s.freq).length)))

/-- R178: the tokens of a string are its maximal runs of bytes that are not one of the six whitespace
bytes, in order. -/
def Obligations.TokensAreMaximalRuns : Prop :=
  (∀ c, isSpace c = true ↔ c ∈ [0x09#8, 0x0A#8, 0x0B#8, 0x0C#8, 0x0D#8, 0x20#8])
    ∧ tokens [] = []
    ∧ (∀ c rest, isSpace c = true → tokens (c :: rest) = tokens rest)
    ∧ (∀ t, t ≠ [] → (∀ c ∈ t, isSpace c = false) → tokens t = [t])
    ∧ ∀ t c rest, t ≠ [] → (∀ x ∈ t, isSpace x = false) → isSpace c = true →
      tokens (t ++ c :: rest) = t :: tokens rest

/-- R180 to R183: HD.PARSE. With no token at fault and an even number of them the table holds, for each
byte value, the frequency of its last pair, else 0; otherwise the first token at fault gives the
error, and an odd number of tokens is looked at last. -/
def Obligations.HeaderParse : Prop :=
  ∀ (s : State) a b, let toks := tokens s.ibuf
    decodeOp 0x61#8 a b = some .hdParse
      ∧ ((∀ k t, toks[k]? = some t → tokenFault s.par.wFreq k t = none) →
        toks.length % 2 = 0 →
        ∃ T, exec .hdParse s = .next ({ s with freq := T }.ok (natWord (toks.length / 2)))
          ∧ (∀ j x f, toks[2 * j]? = some x → toks[2 * j + 1]? = some f →
            (∀ j' y, j < j' → toks[2 * j']? = some y → decVal y ≠ decVal x) →
            T.get (byteOf (decVal x)) = decVal f)
          ∧ ∀ v : Byte, (∀ j x, toks[2 * j]? = some x → decVal x ≠ v.toNat) → T.get v = 0)
      ∧ (∀ k t kind, toks[k]? = some t → tokenFault s.par.wFreq k t = some kind →
        (∀ j u, j < k → toks[j]? = some u → tokenFault s.par.wFreq j u = none) →
        exec .hdParse s = .next ({ s with freq := Table.fill 0 }.err kind.code))
      ∧ ((∀ k t, toks[k]? = some t → tokenFault s.par.wFreq k t = none) →
        toks.length % 2 = 1 →
        exec .hdParse s = .next ({ s with freq := Table.fill 0 }.err 3#8))

/-- R184: header round trip. -/
def Obligations.HeaderRoundTrip : Prop :=
  ∀ w (freq : Table Nat), (∀ v, freq.get v < 2 ^ w) →
    parseHeader w (createHeader freq) = .ok (freq, (present freq).length)

/-! ### ENCODE -/

/-- R145, R146: ENCODE writes the stream of R145, or fails when it does not fit; and what it leaves. -/
def Obligations.EncodeWritesTheStream : Prop :=
  ∀ (s : State) a b, decodeOp 0x70#8 a b = some .encode
    ∧ (s.par.obufCap < (encodedStream s.pack s.ibuf).length →
      exec .encode s = .next (s.wiped.err 5#8))
    ∧ ((encodedStream s.pack s.ibuf).length ≤ s.par.obufCap →
      exec .encode s = .next
        ({ s with
          freq := countBytes s.ibuf
          nodes := builtNodes (countBytes s.ibuf)
          pq := []
          root := builtRoot (countBytes s.ibuf)
          emptyFlag := (builtRoot (countBytes s.ibuf)).isNone
          code := if 2 ≤ (present (countBytes s.ibuf)).length then codesOf (countBytes s.ibuf)
            else s.code
          codesValid := decide (2 ≤ (present (countBytes s.ibuf)).length)
          obuf := encodedStream s.pack s.ibuf }.ok
            (natWord (encodedStream s.pack s.ibuf).length)))
    ∧ ((present (countBytes s.ibuf)).length ≤ 1 →
      encodedStream s.pack s.ibuf = createHeader (countBytes s.ibuf) ++ [0x0A#8])
    ∧ (2 ≤ (present (countBytes s.ibuf)).length →
      encodedStream s.pack s.ibuf = createHeader (countBytes s.ibuf) ++ 0x0A#8 ::
        bodyBytes s.pack
          (s.ibuf.flatMap fun x => codeBits ((codesOf (countBytes s.ibuf)).get x)))

/-- R54, R150, R151: the two body formats: one byte 0x30 or 0x31 a bit; or bit `j` at bit
`7 - (j mod 8)` of byte `floor(j / 8)`, `ceil(T / 8)` bytes, the unused low bits of the last 0. -/
def Obligations.BodyFormats : Prop :=
  ∀ bits : List Bool,
    bodyBytes false bits = bits.map (fun x => if x then 0x31#8 else 0x30#8)
      ∧ (bodyBytes true bits).length = (bits.length + 7) / 8
      ∧ ∀ j y, (bodyBytes true bits)[j / 8]? = some y →
        y.getLsbD (7 - j % 8) = bits.getD j false

/-- R148, R154: with two or more distinct bytes every looked-up code is non-empty and the body has
`T = sum FREQ[s] * len(s)` bits; the length of the output; and ENCODE fails with `Capacity` exactly
when it exceeds `OBUF_CAP`.

The last three clauses are 00_scope.md R7 clause f. An ENCODE output in ASCII mode is below
`3841 + 255 * (2^32 - 1)` bytes. With `OBUF_CAP = 2^40` no command overflows the output buffer: HD.CREATE
and ENCODE succeed, and DECODE's one `Capacity` is its header parser's. The longest DECODE output is
`2^32 - 1` bytes in ASCII mode; clause f says so of PACKED8 too, where by R165 it is not, and the bound
there is the model's inference: eight symbols for each of `2^32 - 1` body bytes (DEDUCED, log 13). -/
def Obligations.OutputLength : Prop :=
  (∀ B : List Byte, let F := countBytes B
    let H := (createHeader F).length
    let T := ((present F).map fun v => F.get v * ((codesOf F).get v).len.toNat).sum
    (2 ≤ (present F).length → (∀ x ∈ B, 1 ≤ ((codesOf F).get x).len.toNat)
        ∧ (B.flatMap fun x => codeBits ((codesOf F).get x)).length = T ∧ B.length ≤ T
        ∧ (encodedStream false B).length = H + 1 + T
        ∧ (encodedStream true B).length = H + 1 + (T + 7) / 8)
      ∧ ((present F).length ≤ 1 → ∀ pack, (encodedStream pack B).length = H + 1)
      ∧ ∀ s t r, s.ibuf = B → exec .encode s = .next t → t.rsp = some r →
        (r.status = 5#8 ↔ s.par.obufCap < (encodedStream s.pack B).length))
    ∧ (∀ B : List Byte, B.length ≤ 2 ^ 32 - 1 →
      (encodedStream false B).length < 3841 + 255 * (2 ^ 32 - 1))
    ∧ (∀ s : State, Inv s → s.par.obufCap = 2 ^ 40 →
      (∃ t d, exec .hdCreate s = .next t ∧ t.rsp = some ⟨0#8, d⟩)
        ∧ (∃ t d, exec .encode s = .next t ∧ t.rsp = some ⟨0#8, d⟩)
        ∧ ∀ t r, exec .decode s = .next t → t.rsp = some r →
          (r.status = 5#8 ↔ parseHeader s.par.wFreq (headerLine s.ibuf) = .error .capacity))
    ∧ ∀ s t : State, Inv s → exec .decode s = .next t →
      (s.pack = false → t.obuf.length ≤ 2 ^ 32 - 1) ∧ t.obuf.length ≤ 8 * (2 ^ 32 - 1)

/-- R147, R207: the degenerate inputs, in both body formats: empty input is no error and gives the one
newline byte; one distinct byte gives its header line. `CODE` stays. -/
def Obligations.DegenerateInputs : Prop :=
  (∀ s : State, s.ibuf = [] → 1 ≤ s.par.obufCap →
      exec .encode s = .next
        ({ s with
          freq := Table.fill 0, nodes := [], pq := [], root := none, emptyFlag := true
          codesValid := false, obuf := [0x0A#8] }.ok 1#64))
    ∧ (∀ s : State, s.freq = Table.fill 0 → exec .tbBuild s = .next
        ({ s with nodes := [], pq := [], root := none, emptyFlag := true, codesValid := false }.ok
          0#64))
    ∧ (∀ (s : State) n, parseHeader s.par.wFreq (headerLine s.ibuf) = .ok (Table.fill 0, n) →
      exec .decode s = .next
        ({ s with
          freq := Table.fill 0, nodes := [], pq := [], root := none, emptyFlag := true
          codesValid := false, obuf := [] }.ok 0#64))
    ∧ ∀ (s : State) v n, s.ibuf = List.replicate (n + 1) v →
      (dec v.toNat ++ 0x20#8 :: dec (n + 1) ++ [0x0A#8]).length ≤ s.par.obufCap →
      exec .encode s = .next
        ({ s with
          freq := (Table.fill 0).set v (n + 1), nodes := [⟨v, n + 1, none⟩], pq := []
          root := some 0, emptyFlag := false, codesValid := false
          obuf := dec v.toNat ++ 0x20#8 :: dec (n + 1) ++ [0x0A#8] }.ok
            (natWord (dec v.toNat ++ 0x20#8 :: dec (n + 1) ++ [0x0A#8]).length))

/-- R153, R169: ENCODE and DECODE read nothing but `IBUF`, `ILEN` and `CONFIG.PACK` (and the parameters):
from two states that agree on these, the response, the output and the tables are the same. -/
def Obligations.EncodeAndDecodeReadOnlyTheInput : Prop :=
  ∀ i s s' t t', i = .encode ∨ i = .decode → s.par = s'.par → s.ibuf = s'.ibuf →
    s.pack = s'.pack → exec i s = .next t → exec i s' = .next t' →
    t.rsp = t'.rsp ∧ t.obuf = t'.obuf ∧ t.freq = t'.freq ∧ t.nodes = t'.nodes ∧ t.pq = t'.pq
      ∧ t.root = t'.root ∧ t.emptyFlag = t'.emptyFlag ∧ t.codesValid = t'.codesValid
      ∧ t.ibuf = s.ibuf ∧ t.pack = s.pack

/-! ### DECODE -/

/-- R160: the input splits at the first newline, which belongs to neither part; with no newline all of
it is the header line. -/
def Obligations.InputSplitsAtFirstNewline : Prop :=
  ∀ E : List Byte, charNewline ∉ headerLine E
    ∧ (charNewline ∈ E → E = headerLine E ++ 0x0A#8 :: bodyPart E)
    ∧ (charNewline ∉ E → headerLine E = E ∧ bodyPart E = [])

/-- R161, R162: DECODE when the header is at fault, and in the cases of no and of one byte of non-zero
frequency, in which the body is not looked at. -/
def Obligations.DecodeShortCases : Prop :=
  ∀ (s : State) a b, decodeOp 0x71#8 a b = some .decode
    ∧ (∀ k, parseHeader s.par.wFreq (headerLine s.ibuf) = .error k →
      exec .decode s = .next (s.wiped.err k.code))
    ∧ ∀ T n, parseHeader s.par.wFreq (headerLine s.ibuf) = .ok (T, n) →
      (present T = [] → exec .decode s = .next
          ({ s with
            freq := T, nodes := [], pq := [], root := none, emptyFlag := true
            codesValid := false, obuf := [] }.ok 0#64))
        ∧ (∀ v, present T = [v] → T.get v ≤ s.par.obufCap → exec .decode s = .next
          ({ s with
            freq := T, nodes := [⟨v, T.get v, none⟩], pq := [], root := some 0
            emptyFlag := false, codesValid := false
            obuf := List.replicate (T.get v) v }.ok (natWord (T.get v))))
        ∧ (∀ v, present T = [v] → s.par.obufCap < T.get v →
          exec .decode s = .next (s.wiped.err 5#8))

/-- R162 to R164, R166: DECODE of an ASCII body under a header of two or more bytes. A concatenation of
codes, of whatever number, decodes to its bytes; an incomplete code at the end and a symbol other than
0x30 and 0x31 are `MalformedBody`; one byte more than fits is `Capacity`, whatever follows. -/
def Obligations.DecodeAsciiBody : Prop :=
  ∀ (s : State) T n B, parseHeader s.par.wFreq (headerLine s.ibuf) = .ok (T, n) →
    2 ≤ (present T).length → s.pack = false → (∀ x ∈ B, x ∈ present T) →
    let bits := B.flatMap fun x => codeBits ((codesOf T).get x)
    (bodyPart s.ibuf = bits.map bitChar → B.length ≤ s.par.obufCap →
        exec .decode s = .next
          ({ s with
            freq := T, nodes := builtNodes T, pq := [], root := builtRoot T
            emptyFlag := false, codesValid := false, obuf := B }.ok (natWord B.length)))
      ∧ (∀ x, PartOfCode T x → x ≠ [] → bodyPart s.ibuf = (bits ++ x).map bitChar →
        B.length ≤ s.par.obufCap → exec .decode s = .next (s.wiped.err 4#8))
      ∧ (∀ x c rest, PartOfCode T x → c ≠ 0x30#8 → c ≠ 0x31#8 →
        bodyPart s.ibuf = (bits ++ x).map bitChar ++ c :: rest → B.length ≤ s.par.obufCap →
        exec .decode s = .next (s.wiped.err 4#8))
      ∧ (∀ rest, bodyPart s.ibuf = bits.map bitChar ++ rest → B.length = s.par.obufCap + 1 →
        exec .decode s = .next (s.wiped.err 5#8))

/-- R162, R165: DECODE of a PACKED8 body under a header of two or more bytes: the walk stops after as
many symbols as the frequencies sum to, and looks at nothing behind them; a body that ends before is
`MalformedBody`; one byte more than fits is `Capacity`. -/
def Obligations.DecodePackedBody : Prop :=
  ∀ (s : State) T n B, parseHeader s.par.wFreq (headerLine s.ibuf) = .ok (T, n) →
    2 ≤ (present T).length → s.pack = true → (∀ x ∈ B, x ∈ present T) →
    let bits := B.flatMap fun x => codeBits ((codesOf T).get x)
    let body := (bodyPart s.ibuf).flatMap msbFirst
    let total := T.cells.sum
    (bits <+: body → B.length = total → B.length ≤ s.par.obufCap →
        exec .decode s = .next
          ({ s with
            freq := T, nodes := builtNodes T, pq := [], root := builtRoot T
            emptyFlag := false, codesValid := false, obuf := B }.ok (natWord B.length)))
      ∧ (∀ x, PartOfCode T x → body = bits ++ x → B.length < total →
        B.length ≤ s.par.obufCap → exec .decode s = .next (s.wiped.err 4#8))
      ∧ (bits <+: body → B.length = s.par.obufCap + 1 → B.length ≤ total →
        exec .decode s = .next (s.wiped.err 5#8))

/-- R168: round trip, in both body formats: what ENCODE writes, DECODE on any block of the same
parameters turns back into the input. Besides R168's premises the input itself must fit the output
buffer (log 10). -/
def Obligations.RoundTrip : Prop :=
  ∀ s s' : State, legalParams s.par = true → s'.par = s.par → s'.pack = s.pack →
    s.ibuf.length ≤ s.par.ibufCap → s.ibuf.length ≤ s.par.obufCap →
    (encodedStream s.pack s.ibuf).length ≤ s.par.obufCap →
    (encodedStream s.pack s.ibuf).length ≤ s.par.ibufCap →
    s'.ibuf = encodedStream s.pack s.ibuf →
    ∃ t t', exec .encode s = .next t ∧ t.obuf = s'.ibuf
      ∧ t.rsp = some ⟨0#8, natWord s'.ibuf.length⟩
      ∧ exec .decode s' = .next t' ∧ t'.obuf = s.ibuf
      ∧ t'.rsp = some ⟨0#8, natWord s.ibuf.length⟩

/-! ### The sequencer -/

/-- R101, R118, R134, R152, R230: the FSM tables of the sequence, the frequency counter, the tree builder
and the code generator end after finitely many state visits with what the procedures give; the code
generator's in every state within the invariant, the others' in every state. The sequencer model, which
`step` does not use, and what it adds to the tables are the model's choice (log 9). -/
def Obligations.UnitSequencersAgree : Prop :=
  (∀ s a, SequencerAgrees (.pqInsert a) s ∧ SequencerAgrees (.pqRemoveAt a) s
      ∧ SequencerAgrees (.pqRemoveVal a) s ∧ SequencerAgrees (.pqContains a) s)
    ∧ (∀ s, SequencerAgrees .fqCount s ∧ SequencerAgrees .tbBuild s)
    ∧ ∀ s : State, Inv s → SequencerAgrees .cgGen s

/-- R185, R186, R230: the header emitter and the header parser likewise, in the sequencer model of log 9.
The emitter agrees because it checks the finished header against `OBUF_CAP` and not each Put, which is the
model's choice (log 9); the parser's saturating accumulator needs a counter that can hold a byte value, so
`W_FREQ` below 8 is left out (log 9). -/
def Obligations.HeaderSequencersAgree : Prop :=
  ∀ s : State, SequencerAgrees .hdCreate s ∧ (8 ≤ s.par.wFreq → SequencerAgrees .hdParse s)

/-- R152, R230: the FSM table of ENCODE likewise, in the sequencer model of log 9; every byte of its
header goes through Put, as R152 has it. -/
def Obligations.EncodeSequencerAgrees : Prop := ∀ s : State, SequencerAgrees .encode s

/-- R167, R230: the FSM table of DECODE likewise, in the sequencer model of log 9; its header parser needs
a counter that can hold a byte value, so `W_FREQ` below 8 is left out (log 9). -/
def Obligations.DecodeSequencerAgrees : Prop :=
  ∀ s : State, 8 ≤ s.par.wFreq → SequencerAgrees .decode s

end
end

