-- ==== Sys2Proof/Laws/Encoding.lean ====
section
/-! SUPPORT. The fields of an assembled command word (30_encoding.md R73). -/

namespace Sys2Proof

theorem opField_assemble (op : BitVec 8) (a b : Nat) : opField (assemble op a b) = op := by
  unfold opField assemble
  refine BitVec.eq_of_getLsbD_eq fun i hi => ?_
  have hl : ¬ (56 + i < 40) := by omega
  have hm : ¬ (56 + i - 40 < 16) := by omega
  simp only [BitVec.getLsbD_extractLsb', hi, decide_true, Bool.true_and, BitVec.getLsbD_append, hl,
    hm, if_false]
  congr 1
  omega

theorem aField_assemble (op : BitVec 8) (a b : Nat) : aField (assemble op a b) = a % 2 ^ 16 := by
  have h : (assemble op a b).extractLsb' 40 16 = BitVec.ofNat 16 a := by
    unfold assemble
    refine BitVec.eq_of_getLsbD_eq fun i hi => ?_
    have hl : ¬ (40 + i < 40) := by omega
    have hm : 40 + i - 40 < 16 := by omega
    simp only [BitVec.getLsbD_extractLsb', hi, decide_true, Bool.true_and, BitVec.getLsbD_append,
      hl, hm, if_false, if_true]
    congr 1
    omega
  rw [aField, h, BitVec.toNat_ofNat]

theorem bField_assemble (op : BitVec 8) (a b : Nat) : bField (assemble op a b) = b % 2 ^ 40 := by
  have h : (assemble op a b).extractLsb' 0 40 = BitVec.ofNat 40 b := by
    unfold assemble
    refine BitVec.eq_of_getLsbD_eq fun i hi => ?_
    have hl : 0 + i < 40 := by omega
    simp only [BitVec.getLsbD_extractLsb', hi, decide_true, Bool.true_and, BitVec.getLsbD_append,
      hl, if_true]
    congr 1
    omega
  rw [bField, h, BitVec.toNat_ofNat]

end Sys2Proof
end

