-- ==== Sys2Proof/Laws/State.lean ====
section
/-! SUPPORT. One lemma per field and named update of the state, true by unfolding, so that no proof
unfolds a record update. -/

namespace Sys2Proof.Machine

/-! ### `setFreq` -/

@[simp] theorem State.setFreq_par (t : Table Nat) (s : State) :
    (s.setFreq t).par = s.par := rfl

@[simp] theorem State.setFreq_freq (t : Table Nat) (s : State) :
    (s.setFreq t).freq = t := rfl

@[simp] theorem State.setFreq_nodes (t : Table Nat) (s : State) :
    (s.setFreq t).nodes = s.nodes := rfl

@[simp] theorem State.setFreq_pq (t : Table Nat) (s : State) :
    (s.setFreq t).pq = s.pq := rfl

@[simp] theorem State.setFreq_root (t : Table Nat) (s : State) :
    (s.setFreq t).root = s.root := rfl

@[simp] theorem State.setFreq_code (t : Table Nat) (s : State) :
    (s.setFreq t).code = s.code := rfl

@[simp] theorem State.setFreq_codesValid (t : Table Nat) (s : State) :
    (s.setFreq t).codesValid = s.codesValid := rfl

@[simp] theorem State.setFreq_emptyFlag (t : Table Nat) (s : State) :
    (s.setFreq t).emptyFlag = s.emptyFlag := rfl

@[simp] theorem State.setFreq_ibuf (t : Table Nat) (s : State) :
    (s.setFreq t).ibuf = s.ibuf := rfl

@[simp] theorem State.setFreq_obuf (t : Table Nat) (s : State) :
    (s.setFreq t).obuf = s.obuf := rfl

@[simp] theorem State.setFreq_pack (t : Table Nat) (s : State) :
    (s.setFreq t).pack = s.pack := rfl

@[simp] theorem State.setFreq_lastErr (t : Table Nat) (s : State) :
    (s.setFreq t).lastErr = s.lastErr := rfl

@[simp] theorem State.setFreq_rsp (t : Table Nat) (s : State) :
    (s.setFreq t).rsp = s.rsp := rfl

@[simp] theorem State.setFreq_inputs (t : Table Nat) (s : State) :
    (s.setFreq t).inputs = s.inputs := rfl

/-! ### `setNodes` -/

@[simp] theorem State.setNodes_par (l : List Node) (s : State) :
    (s.setNodes l).par = s.par := rfl

@[simp] theorem State.setNodes_freq (l : List Node) (s : State) :
    (s.setNodes l).freq = s.freq := rfl

@[simp] theorem State.setNodes_nodes (l : List Node) (s : State) :
    (s.setNodes l).nodes = l := rfl

@[simp] theorem State.setNodes_pq (l : List Node) (s : State) :
    (s.setNodes l).pq = s.pq := rfl

@[simp] theorem State.setNodes_root (l : List Node) (s : State) :
    (s.setNodes l).root = s.root := rfl

@[simp] theorem State.setNodes_code (l : List Node) (s : State) :
    (s.setNodes l).code = s.code := rfl

@[simp] theorem State.setNodes_codesValid (l : List Node) (s : State) :
    (s.setNodes l).codesValid = s.codesValid := rfl

@[simp] theorem State.setNodes_emptyFlag (l : List Node) (s : State) :
    (s.setNodes l).emptyFlag = s.emptyFlag := rfl

@[simp] theorem State.setNodes_ibuf (l : List Node) (s : State) :
    (s.setNodes l).ibuf = s.ibuf := rfl

@[simp] theorem State.setNodes_obuf (l : List Node) (s : State) :
    (s.setNodes l).obuf = s.obuf := rfl

@[simp] theorem State.setNodes_pack (l : List Node) (s : State) :
    (s.setNodes l).pack = s.pack := rfl

@[simp] theorem State.setNodes_lastErr (l : List Node) (s : State) :
    (s.setNodes l).lastErr = s.lastErr := rfl

@[simp] theorem State.setNodes_rsp (l : List Node) (s : State) :
    (s.setNodes l).rsp = s.rsp := rfl

@[simp] theorem State.setNodes_inputs (l : List Node) (s : State) :
    (s.setNodes l).inputs = s.inputs := rfl

/-! ### `setPq` -/

@[simp] theorem State.setPq_par (l : List Nat) (s : State) :
    (s.setPq l).par = s.par := rfl

@[simp] theorem State.setPq_freq (l : List Nat) (s : State) :
    (s.setPq l).freq = s.freq := rfl

@[simp] theorem State.setPq_nodes (l : List Nat) (s : State) :
    (s.setPq l).nodes = s.nodes := rfl

@[simp] theorem State.setPq_pq (l : List Nat) (s : State) :
    (s.setPq l).pq = l := rfl

@[simp] theorem State.setPq_root (l : List Nat) (s : State) :
    (s.setPq l).root = s.root := rfl

@[simp] theorem State.setPq_code (l : List Nat) (s : State) :
    (s.setPq l).code = s.code := rfl

@[simp] theorem State.setPq_codesValid (l : List Nat) (s : State) :
    (s.setPq l).codesValid = s.codesValid := rfl

@[simp] theorem State.setPq_emptyFlag (l : List Nat) (s : State) :
    (s.setPq l).emptyFlag = s.emptyFlag := rfl

@[simp] theorem State.setPq_ibuf (l : List Nat) (s : State) :
    (s.setPq l).ibuf = s.ibuf := rfl

@[simp] theorem State.setPq_obuf (l : List Nat) (s : State) :
    (s.setPq l).obuf = s.obuf := rfl

@[simp] theorem State.setPq_pack (l : List Nat) (s : State) :
    (s.setPq l).pack = s.pack := rfl

@[simp] theorem State.setPq_lastErr (l : List Nat) (s : State) :
    (s.setPq l).lastErr = s.lastErr := rfl

@[simp] theorem State.setPq_rsp (l : List Nat) (s : State) :
    (s.setPq l).rsp = s.rsp := rfl

@[simp] theorem State.setPq_inputs (l : List Nat) (s : State) :
    (s.setPq l).inputs = s.inputs := rfl

/-! ### `setCode` -/

@[simp] theorem State.setCode_par (t : Table CodeEntry) (s : State) :
    (s.setCode t).par = s.par := rfl

@[simp] theorem State.setCode_freq (t : Table CodeEntry) (s : State) :
    (s.setCode t).freq = s.freq := rfl

@[simp] theorem State.setCode_nodes (t : Table CodeEntry) (s : State) :
    (s.setCode t).nodes = s.nodes := rfl

@[simp] theorem State.setCode_pq (t : Table CodeEntry) (s : State) :
    (s.setCode t).pq = s.pq := rfl

@[simp] theorem State.setCode_root (t : Table CodeEntry) (s : State) :
    (s.setCode t).root = s.root := rfl

@[simp] theorem State.setCode_code (t : Table CodeEntry) (s : State) :
    (s.setCode t).code = t := rfl

@[simp] theorem State.setCode_codesValid (t : Table CodeEntry) (s : State) :
    (s.setCode t).codesValid = true := rfl

@[simp] theorem State.setCode_emptyFlag (t : Table CodeEntry) (s : State) :
    (s.setCode t).emptyFlag = s.emptyFlag := rfl

@[simp] theorem State.setCode_ibuf (t : Table CodeEntry) (s : State) :
    (s.setCode t).ibuf = s.ibuf := rfl

@[simp] theorem State.setCode_obuf (t : Table CodeEntry) (s : State) :
    (s.setCode t).obuf = s.obuf := rfl

@[simp] theorem State.setCode_pack (t : Table CodeEntry) (s : State) :
    (s.setCode t).pack = s.pack := rfl

@[simp] theorem State.setCode_lastErr (t : Table CodeEntry) (s : State) :
    (s.setCode t).lastErr = s.lastErr := rfl

@[simp] theorem State.setCode_rsp (t : Table CodeEntry) (s : State) :
    (s.setCode t).rsp = s.rsp := rfl

@[simp] theorem State.setCode_inputs (t : Table CodeEntry) (s : State) :
    (s.setCode t).inputs = s.inputs := rfl

/-! ### `setIbuf` -/

@[simp] theorem State.setIbuf_par (l : List Byte) (s : State) :
    (s.setIbuf l).par = s.par := rfl

@[simp] theorem State.setIbuf_freq (l : List Byte) (s : State) :
    (s.setIbuf l).freq = s.freq := rfl

@[simp] theorem State.setIbuf_nodes (l : List Byte) (s : State) :
    (s.setIbuf l).nodes = s.nodes := rfl

@[simp] theorem State.setIbuf_pq (l : List Byte) (s : State) :
    (s.setIbuf l).pq = s.pq := rfl

@[simp] theorem State.setIbuf_root (l : List Byte) (s : State) :
    (s.setIbuf l).root = s.root := rfl

@[simp] theorem State.setIbuf_code (l : List Byte) (s : State) :
    (s.setIbuf l).code = s.code := rfl

@[simp] theorem State.setIbuf_codesValid (l : List Byte) (s : State) :
    (s.setIbuf l).codesValid = s.codesValid := rfl

@[simp] theorem State.setIbuf_emptyFlag (l : List Byte) (s : State) :
    (s.setIbuf l).emptyFlag = s.emptyFlag := rfl

@[simp] theorem State.setIbuf_ibuf (l : List Byte) (s : State) :
    (s.setIbuf l).ibuf = l := rfl

@[simp] theorem State.setIbuf_obuf (l : List Byte) (s : State) :
    (s.setIbuf l).obuf = s.obuf := rfl

@[simp] theorem State.setIbuf_pack (l : List Byte) (s : State) :
    (s.setIbuf l).pack = s.pack := rfl

@[simp] theorem State.setIbuf_lastErr (l : List Byte) (s : State) :
    (s.setIbuf l).lastErr = s.lastErr := rfl

@[simp] theorem State.setIbuf_rsp (l : List Byte) (s : State) :
    (s.setIbuf l).rsp = s.rsp := rfl

@[simp] theorem State.setIbuf_inputs (l : List Byte) (s : State) :
    (s.setIbuf l).inputs = s.inputs := rfl

/-! ### `setObuf` -/

@[simp] theorem State.setObuf_par (l : List Byte) (s : State) :
    (s.setObuf l).par = s.par := rfl

@[simp] theorem State.setObuf_freq (l : List Byte) (s : State) :
    (s.setObuf l).freq = s.freq := rfl

@[simp] theorem State.setObuf_nodes (l : List Byte) (s : State) :
    (s.setObuf l).nodes = s.nodes := rfl

@[simp] theorem State.setObuf_pq (l : List Byte) (s : State) :
    (s.setObuf l).pq = s.pq := rfl

@[simp] theorem State.setObuf_root (l : List Byte) (s : State) :
    (s.setObuf l).root = s.root := rfl

@[simp] theorem State.setObuf_code (l : List Byte) (s : State) :
    (s.setObuf l).code = s.code := rfl

@[simp] theorem State.setObuf_codesValid (l : List Byte) (s : State) :
    (s.setObuf l).codesValid = s.codesValid := rfl

@[simp] theorem State.setObuf_emptyFlag (l : List Byte) (s : State) :
    (s.setObuf l).emptyFlag = s.emptyFlag := rfl

@[simp] theorem State.setObuf_ibuf (l : List Byte) (s : State) :
    (s.setObuf l).ibuf = s.ibuf := rfl

@[simp] theorem State.setObuf_obuf (l : List Byte) (s : State) :
    (s.setObuf l).obuf = l := rfl

@[simp] theorem State.setObuf_pack (l : List Byte) (s : State) :
    (s.setObuf l).pack = s.pack := rfl

@[simp] theorem State.setObuf_lastErr (l : List Byte) (s : State) :
    (s.setObuf l).lastErr = s.lastErr := rfl

@[simp] theorem State.setObuf_rsp (l : List Byte) (s : State) :
    (s.setObuf l).rsp = s.rsp := rfl

@[simp] theorem State.setObuf_inputs (l : List Byte) (s : State) :
    (s.setObuf l).inputs = s.inputs := rfl

/-! ### `setPack` -/

@[simp] theorem State.setPack_par (v : Bool) (s : State) :
    (s.setPack v).par = s.par := rfl

@[simp] theorem State.setPack_freq (v : Bool) (s : State) :
    (s.setPack v).freq = s.freq := rfl

@[simp] theorem State.setPack_nodes (v : Bool) (s : State) :
    (s.setPack v).nodes = s.nodes := rfl

@[simp] theorem State.setPack_pq (v : Bool) (s : State) :
    (s.setPack v).pq = s.pq := rfl

@[simp] theorem State.setPack_root (v : Bool) (s : State) :
    (s.setPack v).root = s.root := rfl

@[simp] theorem State.setPack_code (v : Bool) (s : State) :
    (s.setPack v).code = s.code := rfl

@[simp] theorem State.setPack_codesValid (v : Bool) (s : State) :
    (s.setPack v).codesValid = s.codesValid := rfl

@[simp] theorem State.setPack_emptyFlag (v : Bool) (s : State) :
    (s.setPack v).emptyFlag = s.emptyFlag := rfl

@[simp] theorem State.setPack_ibuf (v : Bool) (s : State) :
    (s.setPack v).ibuf = s.ibuf := rfl

@[simp] theorem State.setPack_obuf (v : Bool) (s : State) :
    (s.setPack v).obuf = s.obuf := rfl

@[simp] theorem State.setPack_pack (v : Bool) (s : State) :
    (s.setPack v).pack = v := rfl

@[simp] theorem State.setPack_lastErr (v : Bool) (s : State) :
    (s.setPack v).lastErr = s.lastErr := rfl

@[simp] theorem State.setPack_rsp (v : Bool) (s : State) :
    (s.setPack v).rsp = s.rsp := rfl

@[simp] theorem State.setPack_inputs (v : Bool) (s : State) :
    (s.setPack v).inputs = s.inputs := rfl

/-! ### `setLastErr` -/

@[simp] theorem State.setLastErr_par (c : BitVec 8) (s : State) :
    (s.setLastErr c).par = s.par := rfl

@[simp] theorem State.setLastErr_freq (c : BitVec 8) (s : State) :
    (s.setLastErr c).freq = s.freq := rfl

@[simp] theorem State.setLastErr_nodes (c : BitVec 8) (s : State) :
    (s.setLastErr c).nodes = s.nodes := rfl

@[simp] theorem State.setLastErr_pq (c : BitVec 8) (s : State) :
    (s.setLastErr c).pq = s.pq := rfl

@[simp] theorem State.setLastErr_root (c : BitVec 8) (s : State) :
    (s.setLastErr c).root = s.root := rfl

@[simp] theorem State.setLastErr_code (c : BitVec 8) (s : State) :
    (s.setLastErr c).code = s.code := rfl

@[simp] theorem State.setLastErr_codesValid (c : BitVec 8) (s : State) :
    (s.setLastErr c).codesValid = s.codesValid := rfl

@[simp] theorem State.setLastErr_emptyFlag (c : BitVec 8) (s : State) :
    (s.setLastErr c).emptyFlag = s.emptyFlag := rfl

@[simp] theorem State.setLastErr_ibuf (c : BitVec 8) (s : State) :
    (s.setLastErr c).ibuf = s.ibuf := rfl

@[simp] theorem State.setLastErr_obuf (c : BitVec 8) (s : State) :
    (s.setLastErr c).obuf = s.obuf := rfl

@[simp] theorem State.setLastErr_pack (c : BitVec 8) (s : State) :
    (s.setLastErr c).pack = s.pack := rfl

@[simp] theorem State.setLastErr_lastErr (c : BitVec 8) (s : State) :
    (s.setLastErr c).lastErr = c := rfl

@[simp] theorem State.setLastErr_rsp (c : BitVec 8) (s : State) :
    (s.setLastErr c).rsp = s.rsp := rfl

@[simp] theorem State.setLastErr_inputs (c : BitVec 8) (s : State) :
    (s.setLastErr c).inputs = s.inputs := rfl

/-! ### `setRsp` -/

@[simp] theorem State.setRsp_par (r : Option Response) (s : State) :
    (s.setRsp r).par = s.par := rfl

@[simp] theorem State.setRsp_freq (r : Option Response) (s : State) :
    (s.setRsp r).freq = s.freq := rfl

@[simp] theorem State.setRsp_nodes (r : Option Response) (s : State) :
    (s.setRsp r).nodes = s.nodes := rfl

@[simp] theorem State.setRsp_pq (r : Option Response) (s : State) :
    (s.setRsp r).pq = s.pq := rfl

@[simp] theorem State.setRsp_root (r : Option Response) (s : State) :
    (s.setRsp r).root = s.root := rfl

@[simp] theorem State.setRsp_code (r : Option Response) (s : State) :
    (s.setRsp r).code = s.code := rfl

@[simp] theorem State.setRsp_codesValid (r : Option Response) (s : State) :
    (s.setRsp r).codesValid = s.codesValid := rfl

@[simp] theorem State.setRsp_emptyFlag (r : Option Response) (s : State) :
    (s.setRsp r).emptyFlag = s.emptyFlag := rfl

@[simp] theorem State.setRsp_ibuf (r : Option Response) (s : State) :
    (s.setRsp r).ibuf = s.ibuf := rfl

@[simp] theorem State.setRsp_obuf (r : Option Response) (s : State) :
    (s.setRsp r).obuf = s.obuf := rfl

@[simp] theorem State.setRsp_pack (r : Option Response) (s : State) :
    (s.setRsp r).pack = s.pack := rfl

@[simp] theorem State.setRsp_lastErr (r : Option Response) (s : State) :
    (s.setRsp r).lastErr = s.lastErr := rfl

@[simp] theorem State.setRsp_rsp (r : Option Response) (s : State) :
    (s.setRsp r).rsp = r := rfl

@[simp] theorem State.setRsp_inputs (r : Option Response) (s : State) :
    (s.setRsp r).inputs = s.inputs := rfl

/-! ### `setInputs` -/

@[simp] theorem State.setInputs_par (l : List PortIn) (s : State) :
    (s.setInputs l).par = s.par := rfl

@[simp] theorem State.setInputs_freq (l : List PortIn) (s : State) :
    (s.setInputs l).freq = s.freq := rfl

@[simp] theorem State.setInputs_nodes (l : List PortIn) (s : State) :
    (s.setInputs l).nodes = s.nodes := rfl

@[simp] theorem State.setInputs_pq (l : List PortIn) (s : State) :
    (s.setInputs l).pq = s.pq := rfl

@[simp] theorem State.setInputs_root (l : List PortIn) (s : State) :
    (s.setInputs l).root = s.root := rfl

@[simp] theorem State.setInputs_code (l : List PortIn) (s : State) :
    (s.setInputs l).code = s.code := rfl

@[simp] theorem State.setInputs_codesValid (l : List PortIn) (s : State) :
    (s.setInputs l).codesValid = s.codesValid := rfl

@[simp] theorem State.setInputs_emptyFlag (l : List PortIn) (s : State) :
    (s.setInputs l).emptyFlag = s.emptyFlag := rfl

@[simp] theorem State.setInputs_ibuf (l : List PortIn) (s : State) :
    (s.setInputs l).ibuf = s.ibuf := rfl

@[simp] theorem State.setInputs_obuf (l : List PortIn) (s : State) :
    (s.setInputs l).obuf = s.obuf := rfl

@[simp] theorem State.setInputs_pack (l : List PortIn) (s : State) :
    (s.setInputs l).pack = s.pack := rfl

@[simp] theorem State.setInputs_lastErr (l : List PortIn) (s : State) :
    (s.setInputs l).lastErr = s.lastErr := rfl

@[simp] theorem State.setInputs_rsp (l : List PortIn) (s : State) :
    (s.setInputs l).rsp = s.rsp := rfl

@[simp] theorem State.setInputs_inputs (l : List PortIn) (s : State) :
    (s.setInputs l).inputs = l := rfl

/-! ### `setTree` -/

@[simp] theorem State.setTree_par (l : List Node) (r : Option Nat) (s : State) :
    (s.setTree l r).par = s.par := rfl

@[simp] theorem State.setTree_freq (l : List Node) (r : Option Nat) (s : State) :
    (s.setTree l r).freq = s.freq := rfl

@[simp] theorem State.setTree_nodes (l : List Node) (r : Option Nat) (s : State) :
    (s.setTree l r).nodes = l := rfl

@[simp] theorem State.setTree_pq (l : List Node) (r : Option Nat) (s : State) :
    (s.setTree l r).pq = [] := rfl

@[simp] theorem State.setTree_root (l : List Node) (r : Option Nat) (s : State) :
    (s.setTree l r).root = r := rfl

@[simp] theorem State.setTree_code (l : List Node) (r : Option Nat) (s : State) :
    (s.setTree l r).code = s.code := rfl

@[simp] theorem State.setTree_codesValid (l : List Node) (r : Option Nat) (s : State) :
    (s.setTree l r).codesValid = false := rfl

@[simp] theorem State.setTree_emptyFlag (l : List Node) (r : Option Nat) (s : State) :
    (s.setTree l r).emptyFlag = r.isNone := rfl

@[simp] theorem State.setTree_ibuf (l : List Node) (r : Option Nat) (s : State) :
    (s.setTree l r).ibuf = s.ibuf := rfl

@[simp] theorem State.setTree_obuf (l : List Node) (r : Option Nat) (s : State) :
    (s.setTree l r).obuf = s.obuf := rfl

@[simp] theorem State.setTree_pack (l : List Node) (r : Option Nat) (s : State) :
    (s.setTree l r).pack = s.pack := rfl

@[simp] theorem State.setTree_lastErr (l : List Node) (r : Option Nat) (s : State) :
    (s.setTree l r).lastErr = s.lastErr := rfl

@[simp] theorem State.setTree_rsp (l : List Node) (r : Option Nat) (s : State) :
    (s.setTree l r).rsp = s.rsp := rfl

@[simp] theorem State.setTree_inputs (l : List Node) (r : Option Nat) (s : State) :
    (s.setTree l r).inputs = s.inputs := rfl

/-! ### `wipeWork` -/

@[simp] theorem State.wipeWork_par (s : State) : s.wipeWork.par = s.par := rfl

@[simp] theorem State.wipeWork_freq (s : State) : s.wipeWork.freq = Table.fill 0 := rfl

@[simp] theorem State.wipeWork_nodes (s : State) : s.wipeWork.nodes = [] := rfl

@[simp] theorem State.wipeWork_pq (s : State) : s.wipeWork.pq = [] := rfl

@[simp] theorem State.wipeWork_root (s : State) : s.wipeWork.root = none := rfl

@[simp] theorem State.wipeWork_code (s : State) : s.wipeWork.code = Table.fill CodeEntry.empty := rfl

@[simp] theorem State.wipeWork_codesValid (s : State) : s.wipeWork.codesValid = false := rfl

@[simp] theorem State.wipeWork_emptyFlag (s : State) : s.wipeWork.emptyFlag = false := rfl

@[simp] theorem State.wipeWork_ibuf (s : State) : s.wipeWork.ibuf = s.ibuf := rfl

@[simp] theorem State.wipeWork_obuf (s : State) : s.wipeWork.obuf = [] := rfl

@[simp] theorem State.wipeWork_pack (s : State) : s.wipeWork.pack = s.pack := rfl

@[simp] theorem State.wipeWork_lastErr (s : State) : s.wipeWork.lastErr = s.lastErr := rfl

@[simp] theorem State.wipeWork_rsp (s : State) : s.wipeWork.rsp = s.rsp := rfl

@[simp] theorem State.wipeWork_inputs (s : State) : s.wipeWork.inputs = s.inputs := rfl

/-! ### `ok` and `err` -/

@[simp] theorem State.ok_par (d : Word) (s : State) : (s.ok d).par = s.par := rfl

@[simp] theorem State.ok_freq (d : Word) (s : State) : (s.ok d).freq = s.freq := rfl

@[simp] theorem State.ok_nodes (d : Word) (s : State) : (s.ok d).nodes = s.nodes := rfl

@[simp] theorem State.ok_pq (d : Word) (s : State) : (s.ok d).pq = s.pq := rfl

@[simp] theorem State.ok_root (d : Word) (s : State) : (s.ok d).root = s.root := rfl

@[simp] theorem State.ok_code (d : Word) (s : State) : (s.ok d).code = s.code := rfl

@[simp] theorem State.ok_codesValid (d : Word) (s : State) : (s.ok d).codesValid = s.codesValid := rfl

@[simp] theorem State.ok_emptyFlag (d : Word) (s : State) : (s.ok d).emptyFlag = s.emptyFlag := rfl

@[simp] theorem State.ok_ibuf (d : Word) (s : State) : (s.ok d).ibuf = s.ibuf := rfl

@[simp] theorem State.ok_obuf (d : Word) (s : State) : (s.ok d).obuf = s.obuf := rfl

@[simp] theorem State.ok_pack (d : Word) (s : State) : (s.ok d).pack = s.pack := rfl

@[simp] theorem State.ok_lastErr (d : Word) (s : State) : (s.ok d).lastErr = s.lastErr := rfl

@[simp] theorem State.ok_rsp (d : Word) (s : State) : (s.ok d).rsp = some ⟨0#8, d⟩ := rfl

@[simp] theorem State.ok_inputs (d : Word) (s : State) : (s.ok d).inputs = s.inputs := rfl

@[simp] theorem State.err_par (c : BitVec 8) (s : State) : (s.err c).par = s.par := rfl

@[simp] theorem State.err_freq (c : BitVec 8) (s : State) : (s.err c).freq = s.freq := rfl

@[simp] theorem State.err_nodes (c : BitVec 8) (s : State) : (s.err c).nodes = s.nodes := rfl

@[simp] theorem State.err_pq (c : BitVec 8) (s : State) : (s.err c).pq = s.pq := rfl

@[simp] theorem State.err_root (c : BitVec 8) (s : State) : (s.err c).root = s.root := rfl

@[simp] theorem State.err_code (c : BitVec 8) (s : State) : (s.err c).code = s.code := rfl

@[simp] theorem State.err_codesValid (c : BitVec 8) (s : State) : (s.err c).codesValid = s.codesValid := rfl

@[simp] theorem State.err_emptyFlag (c : BitVec 8) (s : State) : (s.err c).emptyFlag = s.emptyFlag := rfl

@[simp] theorem State.err_ibuf (c : BitVec 8) (s : State) : (s.err c).ibuf = s.ibuf := rfl

@[simp] theorem State.err_obuf (c : BitVec 8) (s : State) : (s.err c).obuf = s.obuf := rfl

@[simp] theorem State.err_pack (c : BitVec 8) (s : State) : (s.err c).pack = s.pack := rfl

@[simp] theorem State.err_lastErr (c : BitVec 8) (s : State) : (s.err c).lastErr = c := rfl

@[simp] theorem State.err_rsp (c : BitVec 8) (s : State) : (s.err c).rsp = some ⟨c, 0#64⟩ := rfl

@[simp] theorem State.err_inputs (c : BitVec 8) (s : State) : (s.err c).inputs = s.inputs := rfl

/-! ### `resetWith` -/

@[simp] theorem State.resetWith_par (p : Params) : (State.resetWith p).par = p := rfl

@[simp] theorem State.resetWith_freq (p : Params) : (State.resetWith p).freq = Table.fill 0 := rfl

@[simp] theorem State.resetWith_nodes (p : Params) : (State.resetWith p).nodes = [] := rfl

@[simp] theorem State.resetWith_pq (p : Params) : (State.resetWith p).pq = [] := rfl

@[simp] theorem State.resetWith_root (p : Params) : (State.resetWith p).root = none := rfl

@[simp] theorem State.resetWith_code (p : Params) : (State.resetWith p).code = Table.fill CodeEntry.empty := rfl

@[simp] theorem State.resetWith_codesValid (p : Params) : (State.resetWith p).codesValid = false := rfl

@[simp] theorem State.resetWith_emptyFlag (p : Params) : (State.resetWith p).emptyFlag = false := rfl

@[simp] theorem State.resetWith_ibuf (p : Params) : (State.resetWith p).ibuf = [] := rfl

@[simp] theorem State.resetWith_obuf (p : Params) : (State.resetWith p).obuf = [] := rfl

@[simp] theorem State.resetWith_pack (p : Params) : (State.resetWith p).pack = false := rfl

@[simp] theorem State.resetWith_lastErr (p : Params) : (State.resetWith p).lastErr = 0#8 := rfl

@[simp] theorem State.resetWith_rsp (p : Params) : (State.resetWith p).rsp = none := rfl

@[simp] theorem State.resetWith_inputs (p : Params) : (State.resetWith p).inputs = [] := rfl

end Sys2Proof.Machine
end

