-- ==== Sys2Proof/Laws/Table.lean ====
section
/-! SUPPORT. The laws of a 256-entry table: read after write, a filled table, equality by entries,
and the list of entries a loop over the byte values goes through. -/

namespace Sys2Proof.Machine

variable {α : Type}

@[simp] theorem Table.get_fill (v : α) (s : Byte) : (Table.fill v).get s = v := by
  simp [Table.get, Table.fill]

theorem Table.get_set (t : Table α) (s u : Byte) (v : α) :
    (t.set s v).get u = if u = s then v else t.get u := by
  simp only [Table.get, Table.set, List.getElem_set, eq_comm (a := u), BitVec.toNat_inj]

@[simp] theorem Table.get_set_self (t : Table α) (s : Byte) (v : α) : (t.set s v).get s = v := by
  simp [Table.get_set]

theorem Table.get_set_ne (t : Table α) {s u : Byte} (v : α) (h : u ≠ s) :
    (t.set s v).get u = t.get u := by
  simp [Table.get_set, h]

theorem Table.ext_get {t t' : Table α} (h : ∀ s, t.get s = t'.get s) : t = t' := by
  obtain ⟨c, hc⟩ := t
  obtain ⟨c', hc'⟩ := t'
  congr 1
  refine List.ext_getElem (hc.trans hc'.symm) fun i hi hi' => ?_
  have hlt : i < 256 := by rw [hc] at hi; exact hi
  simpa [Table.get, Nat.mod_eq_of_lt hlt] using h (BitVec.ofNat 8 i)

@[simp] theorem symbols_length : symbols.length = nSym := by simp [symbols]

theorem symbols_getElem (i : Nat) (h : i < symbols.length) : symbols[i] = BitVec.ofNat 8 i := by
  simp [symbols]

theorem mem_symbols (s : Byte) : s ∈ symbols :=
  List.mem_map.mpr ⟨s.toNat, List.mem_range.mpr s.isLt, by simp⟩

theorem symbols_nodup : symbols.Nodup := by
  refine (List.nodup_range (n := nSym)).map_on fun a ha b hb h => ?_
  have ha' : a < 256 := List.mem_range.mp ha
  have hb' : b < 256 := List.mem_range.mp hb
  have := congrArg BitVec.toNat h
  simpa [Nat.mod_eq_of_lt ha', Nat.mod_eq_of_lt hb'] using this

/-- The entries are the byte values in ascending order, each with its entry. -/
theorem Table.entries_eq (t : Table α) : t.entries = symbols.map fun s => (s, t.get s) := by
  refine List.ext_getElem (by simp [Table.entries, t.full]) fun i h h' => ?_
  have hlt : i < 256 := by simpa using h'
  simp [Table.entries, Table.get, symbols_getElem, Nat.mod_eq_of_lt hlt]

theorem Table.mem_entries (t : Table α) (s : Byte) (v : α) :
    (s, v) ∈ t.entries ↔ t.get s = v := by
  rw [Table.entries_eq, List.mem_map]
  exact ⟨fun ⟨u, _, h⟩ => by cases h; rfl, fun h => ⟨s, mem_symbols s, by rw [h]⟩⟩

end Sys2Proof.Machine
end

