-- ==== Sys2Proof/Laws/Ops.lean ====
section
/-! SUPPORT. The laws of the shared operations: responding, raising, node memory and the output
buffer. -/

namespace Sys2Proof.Machine

/-- `respond` answers `OK` and changes nothing else. -/
theorem respond_eq (d : Word) (s : State) : respond d s = .next (s.ok d) := rfl

/-- A failing primitive command changes `LASTERR` and nothing else (R203). -/
theorem raise_primitive (k : Kind) (s : State) : raise .primitive k s = .next (s.err k.code) := rfl

/-- A failing HD.CREATE empties the output buffer (R203). -/
theorem raise_headerWriter (k : Kind) (s : State) :
    raise .headerWriter k s = .next ((s.setObuf []).err k.code) := rfl

/-- A failing HD.PARSE clears the frequency table (R203). -/
theorem raise_headerReader (k : Kind) (s : State) :
    raise .headerReader k s = .next ((s.setFreq (Table.fill 0)).err k.code) := rfl

/-- A failing ENCODE or DECODE wipes the working state (R203). -/
theorem raise_composite (k : Kind) (s : State) :
    raise .composite k s = .next (s.wipeWork.err k.code) := rfl

theorem wiped_eq_wipeWork (s : State) : s.wiped = s.wipeWork := rfl

theorem Kind.code_le (k : Kind) : k.code.toNat ≤ 7 := by cases k <;> decide

theorem Kind.code_ne_zero (k : Kind) : k.code ≠ 0#8 := by cases k <;> decide

/-! ### Node memory -/

theorem nodeAt_lt {nodes : List Node} {p : Nat} (h : p < nodes.length) :
    nodeAt nodes p = nodes[p] := by
  simp [nodeAt, h]

/-- A record below the count is what it was before an allocation above it. -/
theorem nodeAt_append_lt {nodes : List Node} {p : Nat} (h : p < nodes.length) (more : List Node) :
    nodeAt (nodes ++ more) p = nodeAt nodes p := by
  simp [nodeAt, List.getElem?_append_left h]

/-! ### The output buffer -/

/-- `Put` in full: it appends, or the buffer is full. -/
theorem put_ok_iff {cap : Nat} {x : Byte} {out o : List Byte} :
    put cap x out = .ok o ↔ out.length ≠ cap ∧ o = out ++ [x] := by
  unfold put
  split <;> simp_all [eq_comm]

theorem put_error_iff {cap : Nat} {x : Byte} {out : List Byte} {k : Kind} :
    put cap x out = .error k ↔ out.length = cap ∧ k = .capacity := by
  unfold put
  split <;> simp_all [eq_comm]

/-- `Put` of a list of bytes on a buffer within its capacity: all of them when they fit, else
`Capacity`. -/
theorem putAll_eq {cap : Nat} {xs out : List Byte} (h : out.length ≤ cap) :
    putAll cap xs out
      = if out.length + xs.length ≤ cap then .ok (out ++ xs) else .error .capacity := by
  induction xs generalizing out with
  | nil => simp [putAll, h]
  | cons x xs ih =>
    by_cases hc : out.length = cap
    · simp [putAll, put, hc]
    · have hl : (out ++ [x]).length ≤ cap := by simp; omega
      simp only [putAll, put, hc, if_false, ih hl]
      simp [Nat.add_assoc, Nat.add_comm 1]

/-- `Put` of one byte `n` times is `Put` of the list that repeats it. -/
theorem putRepeat_eq_putAll (cap : Nat) (x : Byte) (n : Nat) (out : List Byte) :
    putRepeat cap x n out = putAll cap (List.replicate n x) out := by
  induction n generalizing out with
  | zero => rfl
  | succ n ih =>
    simp only [putRepeat, List.replicate_succ, putAll]
    cases put cap x out <;> simp [ih]

end Sys2Proof.Machine
end

