-- ==== Sys2Proof/Laws/Invariant.lean ====
section
/-! SUPPORT. A check of the invariant (10_state.md R22) that can be evaluated on a concrete state. -/

namespace Sys2Proof.Machine

/-- Clauses (e) and (f) for the record of index `p`. -/
def nodeCheck (wFreq : Nat) (nodes : List Node) (p : Nat) : Bool :=
  match (nodeAt nodes p).kids with
  | none => decide ((nodeAt nodes p).weight < 2 ^ wFreq)
  | some (l, r) =>
    decide (l < p) && decide (r < p)
      && decide ((nodeAt nodes p).weight = (nodeAt nodes l).weight + (nodeAt nodes r).weight)
      && decide ((nodeAt nodes p).weight < 2 ^ (wFreq + 8))
      && decide ((nodeAt nodes p).value = minByte (nodeAt nodes l).value (nodeAt nodes r).value)

/-- No bit of the entry is set at or beyond its length. -/
def codeCheck (c : CodeEntry) : Bool := c.bits >>> c.len.toNat == 0#256

/-- Every clause of the invariant. -/
def invCheck (s : State) : Bool :=
  legalParams s.par && s.freq.cells.all (fun f => decide (f < 2 ^ s.par.wFreq))
    && decide (s.nodes.length ≤ nNode) && decide (s.pq.length ≤ pqCap)
    && s.pq.all (fun p => decide (p < s.nodes.length))
    && decide (s.pq.Pairwise fun p q => less s.nodes q p = false)
    && (List.range s.nodes.length).all (nodeCheck s.par.wFreq s.nodes)
    && s.root.all (fun r => decide (r < s.nodes.length))
    && (treePaths s.nodes s.root).all (fun vp => decide (vp.2.length ≤ maxCodeLen))
    && decide (((treePaths s.nodes s.root).map Prod.fst).Nodup)
    && (!s.codesValid || decide (s.code = genTable s.nodes s.root))
    && s.code.cells.all codeCheck
    && Memory.wf s && !(s.root.isSome && s.emptyFlag) && decide (s.lastErr.toNat ≤ 7)
    && (!s.pack || s.par.packSupported)

theorem Table.get_mem {α : Type} (t : Table α) (s : Byte) : t.get s ∈ t.cells :=
  List.getElem_mem _

/-- A state that passes the check is within the invariant. -/
theorem inv_of_check {s : State} (h : invCheck s = true) : Inv s := by
  simp only [invCheck, Bool.and_eq_true, decide_eq_true_eq, List.all_eq_true, List.mem_range,
    Memory.wf, Bool.or_eq_true, Bool.not_eq_true', Option.all_eq_true] at h
  obtain ⟨⟨⟨⟨⟨⟨⟨⟨⟨⟨⟨⟨⟨⟨⟨hpar, hfreq⟩, hn⟩, hq⟩, halloc⟩, hrank⟩, hnodes⟩, hroot⟩, hdepth⟩,
    hleaves⟩, hcodes⟩, htail⟩, hmem⟩, hflags⟩, herr⟩, hpack⟩ := h
  refine
    { params := hpar
      counters := fun v => hfreq _ (s.freq.get_mem v)
      nodeCount := hn
      sequenceSize := hq
      sequenceAllocated := halloc
      rankOrder := hrank
      nodes := ⟨fun p l r hp hk => ?_, fun p hp hk => ?_⟩
      rootAllocated := fun r hr => hroot r hr
      rootDepth := hdepth
      rootLeaves := hleaves
      codes := fun hv => ?_
      codeTail := fun v k hk => ?_
      inputFits := hmem.1
      outputFits := hmem.2
      notRootAndEmpty := ?_
      errorCode := herr
      packLegal := fun hp => ?_ }
  · have := hnodes p hp
    simp only [nodeCheck, hk, Bool.and_eq_true, decide_eq_true_eq] at this
    obtain ⟨⟨⟨⟨h1, h2⟩, h3⟩, h4⟩, h5⟩ := this
    exact ⟨h1, h2, h3, h4, h5⟩
  · have := hnodes p hp
    simpa only [nodeCheck, hk, decide_eq_true_eq] using this
  · rcases hcodes with hc | hc
    · rw [hv] at hc; cases hc
    · exact hc
  · have hz := htail _ (s.code.get_mem v)
    simp only [codeCheck, beq_iff_eq] at hz
    have := congrArg (fun b : BitVec 256 => b.getLsbD (k - (s.code.get v).len.toNat)) hz
    simpa [BitVec.getLsbD_ushiftRight, Nat.add_sub_cancel' hk] using this
  · simpa using hflags
  · rcases hpack with hc | hc
    · rw [hp] at hc; cases hc
    · exact hc

end Sys2Proof.Machine
end

