-- ==== Sys2Proof/Laws/Memory.lean ====
section
/-! SUPPORT. The byte buffers stay within their capacities (`Memory.wf`): at reset, and under every
operation that writes one of them. -/

namespace Sys2Proof.Machine

theorem Memory.wf_iff (s : State) :
    Memory.wf s = true ↔ s.ibuf.length ≤ s.par.ibufCap ∧ s.obuf.length ≤ s.par.obufCap := by
  simp [Memory.wf]

/-- The reset state's buffers are empty. -/
theorem Memory.wf_reset (p : Params) : Memory.wf (State.resetWith p) = true := by
  simp [Memory.wf_iff]

theorem put_length_le {cap : Nat} {x : Byte} {out o : List Byte} (h : put cap x out = .ok o)
    (hl : out.length ≤ cap) : o.length ≤ cap := by
  obtain ⟨hne, rfl⟩ := put_ok_iff.mp h
  simp only [List.length_append, List.length_singleton]
  omega

theorem putAll_length_le {cap : Nat} {xs out o : List Byte} (h : putAll cap xs out = .ok o)
    (hl : out.length ≤ cap) : o.length ≤ cap := by
  rw [putAll_eq hl] at h
  split at h
  · cases h; simpa using ‹_›
  · cases h

theorem emitBit_length_le {cap : Nat} {pack bit : Bool} {p p' : Packer}
    (h : emitBit cap pack bit p = .ok p') (hl : p.out.length ≤ cap) : p'.out.length ≤ cap := by
  unfold emitBit at h
  cases pack with
  | false =>
    simp only at h
    split at h
    · cases h; exact put_length_le ‹_› hl
    · cases h
  | true =>
    simp only at h
    split at h
    · split at h
      · cases h; exact put_length_le ‹_› hl
      · cases h
    · cases h; exact hl

theorem emitBits_length_le {cap : Nat} {pack : Bool} {bits : List Bool} {p p' : Packer}
    (h : emitBits cap pack bits p = .ok p') (hl : p.out.length ≤ cap) : p'.out.length ≤ cap := by
  induction bits generalizing p with
  | nil => cases h; exact hl
  | cons b rest ih =>
    simp only [emitBits] at h
    split at h
    · exact ih h (emitBit_length_le ‹_› hl)
    · cases h

theorem flushBits_length_le {cap : Nat} {pack : Bool} {p p' : Packer}
    (h : flushBits cap pack p = .ok p') (hl : p.out.length ≤ cap) : p'.out.length ≤ cap := by
  unfold flushBits at h
  cases pack with
  | false => cases h; exact hl
  | true =>
    simp only at h
    split at h
    · split at h
      · cases h; exact put_length_le ‹_› hl
      · cases h
    · cases h; exact hl

/-- After `FlushBits` no bit waits in the packer, in PACKED8 mode (R149). -/
theorem flushBits_pkCnt {cap : Nat} {p p' : Packer} (h : flushBits cap true p = .ok p') :
    p'.pkCnt = 0 := by
  simp only [flushBits] at h
  split at h
  · split at h
    · cases h; rfl
    · cases h
  · cases h; omega

theorem emitBody_length_le {cap : Nat} {pack : Bool} {bits : List Bool} {out o : List Byte}
    (h : emitBody cap pack bits out = .ok o) (hl : out.length ≤ cap) : o.length ≤ cap := by
  simp only [emitBody] at h
  split at h
  · rename_i p hp
    cases hf : flushBits cap pack p with
    | error k => rw [hf] at h; cases h
    | ok p' =>
      rw [hf] at h
      cases h
      exact flushBits_length_le hf (emitBits_length_le hp hl)
  · cases h

theorem walkBit_length_le {nodes : List Node} {root cap : Nat} {bit : Bool} {w w' : Walk}
    (h : walkBit nodes root cap bit w = .ok w') (hl : w.out.length ≤ cap) :
    w'.out.length ≤ cap := by
  unfold walkBit at h
  generalize (if bit = true then (nodeAt nodes w.cur).right else (nodeAt nodes w.cur).left) = n at h
  simp only at h
  split at h
  · split at h
    · cases h; exact put_length_le ‹_› hl
    · cases h
  · cases h; exact hl

theorem walkAscii_length_le {nodes : List Node} {root cap : Nat} {body o : List Byte} {w : Walk}
    (h : walkAscii nodes root cap body w = .ok o) (hl : w.out.length ≤ cap) : o.length ≤ cap := by
  induction body generalizing w with
  | nil =>
    simp only [walkAscii] at h
    split at h
    · cases h; exact hl
    · cases h
  | cons c rest ih =>
    simp only [walkAscii] at h
    split at h
    · cases h
    · split at h
      · cases h
      · exact ih h (walkBit_length_le ‹_› hl)

theorem walkBits_length_le {nodes : List Node} {root cap total : Nat} {bits : List Bool}
    {w w' : Walk} (h : walkBits nodes root cap total bits w = .ok w')
    (hl : w.out.length ≤ cap) : w'.out.length ≤ cap := by
  induction bits generalizing w with
  | nil => cases h; exact hl
  | cons b rest ih =>
    simp only [walkBits] at h
    split at h
    · split at h
      · cases h
      · exact ih h (walkBit_length_le ‹_› hl)
    · cases h; exact hl

theorem walkPacked_length_le {nodes : List Node} {root cap total : Nat} {body o : List Byte}
    {w : Walk} (h : walkPacked nodes root cap total body w = .ok o)
    (hl : w.out.length ≤ cap) : o.length ≤ cap := by
  induction body generalizing w with
  | nil =>
    simp only [walkPacked] at h
    split at h
    · cases h
    · cases h; exact hl
  | cons b rest ih =>
    simp only [walkPacked] at h
    split at h
    · split at h
      · cases h
      · exact ih h (walkBits_length_le ‹_› hl)
    · cases h; exact hl

theorem decodeOutput_length_le {cap : Nat} {pack : Bool} {nodes : List Node} {root : Option Nat}
    {body o : List Byte} (h : decodeOutput cap pack nodes root body = .ok o) : o.length ≤ cap := by
  unfold decodeOutput at h
  split at h
  · cases h; exact Nat.zero_le _
  · split at h
    · rw [putRepeat_eq_putAll] at h
      exact putAll_length_le h (Nat.zero_le _)
    · cases pack with
      | false => exact walkAscii_length_le h (Nat.zero_le _)
      | true => exact walkPacked_length_le h (Nat.zero_le _)

/-- What a successful ENCODE leaves in the buffers. -/
theorem encodeRun_buffers {s t : State} (h : encodeRun s = .ok t) :
    t.par = s.par ∧ t.ibuf = s.ibuf ∧ t.obuf.length ≤ s.par.obufCap := by
  unfold encodeRun at h
  split at h
  · cases h
  · have hp := putAll_length_le ‹_› (Nat.zero_le _)
    split at h
    · split at h
      · cases h
      · cases h; exact ⟨rfl, rfl, emitBody_length_le ‹_› hp⟩
    · cases h; exact ⟨rfl, rfl, hp⟩

/-- What a successful DECODE leaves in the buffers. -/
theorem decodeRun_buffers {s t : State} (h : decodeRun s = .ok t) :
    t.par = s.par ∧ t.ibuf = s.ibuf ∧ t.obuf.length ≤ s.par.obufCap := by
  unfold decodeRun at h
  split at h
  · cases h
  · split at h
    · cases h
    · cases h; exact ⟨rfl, rfl, decodeOutput_length_le ‹_›⟩

/-! ### Every command keeps the form -/

theorem Memory.wf_respond {d : Word} {s t : State} (h : respond d s = .next t)
    (hw : Memory.wf s = true) : Memory.wf t = true := by
  cases h
  exact hw

theorem Memory.wf_raise {c : FailClass} {k : Kind} {s t : State} (h : raise c k s = .next t)
    (hw : Memory.wf s = true) : Memory.wf t = true := by
  rw [Memory.wf_iff] at hw
  cases c <;> cases h <;> simp [Memory.wf_iff, failEffect, hw]

/-- Every command keeps both buffers within their capacities (R22 clause i). -/
theorem Memory.wf_exec {i : Instr} {s t : State} (h : exec i s = .next t)
    (hw : Memory.wf s = true) : Memory.wf t = true := by
  have hb := (Memory.wf_iff s).mp hw
  cases i with
  | clear | ibReset => cases h; simp [Memory.wf_iff, hb]
  | fqClear | fqCount | pqClear | pqSize | tbBuild | cgGen => cases h; exact hw
  | csrRead a | csrWrite a b | obGet b | fqWrite a b | fqRead a | ndLeaf a b | ndMerge a b
  | ndRead a | ndKids a | ndEq a b | pqInsert a | pqRemoveAt b | pqPeekAt b | pqRemoveVal a
  | pqContains a | ctLen a | ctBits a b =>
    simp only [exec, execCsrRead, execCsrWrite, execObGet, execFqWrite, execFqRead, execNdLeaf,
      execNdMerge, execNdRead, execNdKids, execNdEq, execPqInsert, execPqRemoveAt, execPqPeekAt,
      execPqRemoveVal, execPqContains, execCtLen, execCtBits] at h
    repeat' split at h
    all_goals first | exact Memory.wf_raise h hw | (cases h; exact hw)
  | ibPut a =>
    simp only [exec, execIbPut] at h
    repeat' split at h
    · exact Memory.wf_raise h hw
    · exact Memory.wf_raise h hw
    · cases h
      have hne : s.ibuf.length ≠ s.par.ibufCap := by assumption
      simp [Memory.wf_iff, hb]
      omega
  | hdCreate =>
    simp only [exec, execHdCreate] at h
    split at h
    · exact Memory.wf_raise h hw
    · cases h
      simp [Memory.wf_iff, hb]
      omega
  | hdParse =>
    simp only [exec, execHdParse] at h
    split at h
    · exact Memory.wf_raise h hw
    · cases h; exact hw
  | encode =>
    simp only [exec, execEncode] at h
    split at h
    · exact Memory.wf_raise h hw
    · cases h
      obtain ⟨hp, hi, ho⟩ := encodeRun_buffers ‹_›
      simp [Memory.wf_iff, hp, hi, hb, ho]
  | decode =>
    simp only [exec, execDecode] at h
    split at h
    · exact Memory.wf_raise h hw
    · cases h
      obtain ⟨hp, hi, ho⟩ := decodeRun_buffers ‹_›
      simp [Memory.wf_iff, hp, hi, hb, ho]

end Sys2Proof.Machine
end

