-- ==== Sys2Proof/Laws/Nodes.lean ====
section
/-! SUPPORT. The laws of the node order (41_tree_builder.md R106) and of the byte minimum. -/

namespace Sys2Proof.Machine

theorem keyLess_iff (m n : Node) :
    keyLess m n = true ↔
      m.weight < n.weight ∨ (m.weight = n.weight ∧ m.value.toNat < n.value.toNat) := by
  simp [keyLess]

theorem keyLess_false_iff (m n : Node) :
    keyLess m n = false ↔
      n.weight < m.weight ∨ (m.weight = n.weight ∧ n.value.toNat ≤ m.value.toNat) := by
  rw [← Bool.not_eq_true, keyLess_iff]
  omega

theorem keyLess_asymm {m n : Node} (h : keyLess m n = true) : keyLess n m = false := by
  rw [keyLess_iff] at h
  rw [keyLess_false_iff]
  omega

theorem keyLess_trans {m n o : Node} (h : keyLess m n = true) (h' : keyLess n o = true) :
    keyLess m o = true := by
  rw [keyLess_iff] at *
  omega

/-- `not (b < a)` is a total preorder: the rank order of the sequence. -/
theorem not_keyLess_trans {m n o : Node} (h : keyLess n m = false) (h' : keyLess o n = false) :
    keyLess o m = false := by
  rw [keyLess_false_iff] at *
  omega

theorem minByte_toNat (x y : Byte) : (minByte x y).toNat = min x.toNat y.toNat := by
  unfold minByte
  split <;> omega

end Sys2Proof.Machine
end

