-- ==== Sys2Proof/Laws/PerInstr.lean ====
section
/-! SUPPORT. The per-instruction family `Encoding`: the three fields of every command's word
(30_encoding.md R73, R76, R80). -/

namespace Sys2Proof.Laws.Encoding

/-- The word of a command holds its opcode, and, when it is well formed, its operands, 0 where its
format has none. -/
def Statement (i : Instr) : Prop :=
  opField (encode i) = opcode i
    ∧ (i.wellFormed = true →
      aField (encode i) = operandA i ∧ bField (encode i) = operandB i)

/-- What is left to show of a command: its operands fit their fields. -/
theorem of_fits {i : Instr}
    (h : i.wellFormed = true → operandA i < 2 ^ 16 ∧ operandB i < 2 ^ 40) : Statement i := by
  refine ⟨opField_assemble _ _ _, fun hw => ?_⟩
  obtain ⟨ha, hb⟩ := h hw
  rw [encode, aField_assemble, bField_assemble, Nat.mod_eq_of_lt ha, Nat.mod_eq_of_lt hb]
  exact ⟨rfl, rfl⟩

theorem clear : Statement .clear :=
  of_fits fun _ => by decide

theorem csrRead (a : Nat) : Statement (.csrRead a) :=
  of_fits fun h => by simpa [Instr.wellFormed, fitsA, operandA, operandB] using h

theorem csrWrite (a b : Nat) : Statement (.csrWrite a b) :=
  of_fits fun h => by simpa [Instr.wellFormed, fitsA, fitsB, operandA, operandB] using h

theorem ibReset : Statement .ibReset :=
  of_fits fun _ => by decide

theorem ibPut (a : Nat) : Statement (.ibPut a) :=
  of_fits fun h => by simpa [Instr.wellFormed, fitsA, operandA, operandB] using h

theorem obGet (b : Nat) : Statement (.obGet b) :=
  of_fits fun h => by simpa [Instr.wellFormed, fitsB, operandA, operandB] using h

theorem fqClear : Statement .fqClear :=
  of_fits fun _ => by decide

theorem fqWrite (a b : Nat) : Statement (.fqWrite a b) :=
  of_fits fun h => by simpa [Instr.wellFormed, fitsA, fitsB, operandA, operandB] using h

theorem fqRead (a : Nat) : Statement (.fqRead a) :=
  of_fits fun h => by simpa [Instr.wellFormed, fitsA, operandA, operandB] using h

theorem fqCount : Statement .fqCount :=
  of_fits fun _ => by decide

theorem ndLeaf (a b : Nat) : Statement (.ndLeaf a b) :=
  of_fits fun h => by simpa [Instr.wellFormed, fitsA, fitsB, operandA, operandB] using h

theorem ndMerge (a b : Nat) : Statement (.ndMerge a b) :=
  of_fits fun h => by simpa [Instr.wellFormed, fitsA, fitsB, operandA, operandB] using h

theorem ndRead (a : Nat) : Statement (.ndRead a) :=
  of_fits fun h => by simpa [Instr.wellFormed, fitsA, operandA, operandB] using h

theorem ndKids (a : Nat) : Statement (.ndKids a) :=
  of_fits fun h => by simpa [Instr.wellFormed, fitsA, operandA, operandB] using h

theorem ndEq (a b : Nat) : Statement (.ndEq a b) :=
  of_fits fun h => by simpa [Instr.wellFormed, fitsA, fitsB, operandA, operandB] using h

theorem pqClear : Statement .pqClear :=
  of_fits fun _ => by decide

theorem pqInsert (a : Nat) : Statement (.pqInsert a) :=
  of_fits fun h => by simpa [Instr.wellFormed, fitsA, operandA, operandB] using h

theorem pqRemoveAt (b : Nat) : Statement (.pqRemoveAt b) :=
  of_fits fun h => by simpa [Instr.wellFormed, fitsB, operandA, operandB] using h

theorem pqPeekAt (b : Nat) : Statement (.pqPeekAt b) :=
  of_fits fun h => by simpa [Instr.wellFormed, fitsB, operandA, operandB] using h

theorem pqRemoveVal (a : Nat) : Statement (.pqRemoveVal a) :=
  of_fits fun h => by simpa [Instr.wellFormed, fitsA, operandA, operandB] using h

theorem pqContains (a : Nat) : Statement (.pqContains a) :=
  of_fits fun h => by simpa [Instr.wellFormed, fitsA, operandA, operandB] using h

theorem pqSize : Statement .pqSize :=
  of_fits fun _ => by decide

theorem tbBuild : Statement .tbBuild :=
  of_fits fun _ => by decide

theorem cgGen : Statement .cgGen :=
  of_fits fun _ => by decide

theorem ctLen (a : Nat) : Statement (.ctLen a) :=
  of_fits fun h => by simpa [Instr.wellFormed, fitsA, operandA, operandB] using h

theorem ctBits (a b : Nat) : Statement (.ctBits a b) :=
  of_fits fun h => by simpa [Instr.wellFormed, fitsA, fitsB, operandA, operandB] using h

theorem hdCreate : Statement .hdCreate :=
  of_fits fun _ => by decide

theorem hdParse : Statement .hdParse :=
  of_fits fun _ => by decide

theorem encode : Statement .encode :=
  of_fits fun _ => by decide

theorem decode : Statement .decode :=
  of_fits fun _ => by decide

end Sys2Proof.Laws.Encoding
end

