-- ==== Sys2Proof/Laws/Sequence.lean ====
section
/-! SUPPORT. The laws of the Ordered Sequence's procedures (40_ordered_sequence.md R91, R92, R98). -/

namespace Sys2Proof.Machine

theorem pqPosition_le (nodes : List Node) (p : Nat) (pq : List Nat) :
    pqPosition nodes p pq ≤ pq.length := by
  induction pq with
  | nil => exact Nat.le_refl _
  | cons q rest ih =>
    simp only [pqPosition, List.length_cons]
    split <;> omega

/-- `PqInsert` in full: the leading elements that are not greater, the new element, the rest (R91). -/
theorem pqInsert_eq (nodes : List Node) (p : Nat) (pq : List Nat) :
    pqInsert nodes p pq
      = pq.take (pqPosition nodes p pq) ++ p :: pq.drop (pqPosition nodes p pq) := by
  unfold pqInsert
  induction pq with
  | nil => rfl
  | cons q rest ih =>
    simp only [pqPosition]
    split
    · rfl
    · simp [ih]

/-- Every element before the position is not `Greater` than the new one (R91). -/
theorem pqPosition_before {nodes : List Node} {p : Nat} {pq : List Nat} {i : Nat}
    (h : i < pqPosition nodes p pq) : greater nodes (pqAt i pq) p = false := by
  induction pq generalizing i with
  | nil => exact absurd h (Nat.not_lt_zero _)
  | cons q rest ih =>
    simp only [pqPosition] at h
    split at h
    · exact absurd h (Nat.not_lt_zero _)
    · cases i with
      | zero => simpa [pqAt] using ‹¬greater nodes q p = true›
      | succ i => simpa [pqAt] using ih (Nat.lt_of_succ_lt_succ h)

/-- The element at the position, when there is one, is `Greater` than the new one (R91). -/
theorem pqPosition_at {nodes : List Node} {p : Nat} {pq : List Nat}
    (h : pqPosition nodes p pq < pq.length) :
    greater nodes (pqAt (pqPosition nodes p pq) pq) p = true := by
  induction pq with
  | nil => exact absurd h (Nat.not_lt_zero _)
  | cons q rest ih =>
    by_cases hg : greater nodes q p = true
    · simp [pqPosition, hg, pqAt]
    · simp only [pqPosition, hg, List.length_cons] at h ⊢
      simpa [pqAt] using ih (by simpa using h)

@[simp] theorem pqInsert_length (nodes : List Node) (p : Nat) (pq : List Nat) :
    (pqInsert nodes p pq).length = pq.length + 1 := by
  have := pqPosition_le nodes p pq
  simp only [pqInsert_eq, List.length_append, List.length_cons, List.length_take, List.length_drop]
  omega

theorem pqInsert_perm (nodes : List Node) (p : Nat) (pq : List Nat) :
    (pqInsert nodes p pq).Perm (p :: pq) := by
  rw [pqInsert_eq]
  exact List.perm_middle.trans (by rw [List.take_append_drop])

theorem mem_pqInsert {nodes : List Node} {p q : Nat} {pq : List Nat} :
    q ∈ pqInsert nodes p pq ↔ q = p ∨ q ∈ pq := by
  rw [(pqInsert_perm nodes p pq).mem_iff, List.mem_cons]

/-- The scan reads only the nodes of the sequence and of the new element. -/
theorem pqPosition_append {nodes : List Node} {p : Nat} {pq : List Nat} (more : List Node)
    (hp : p < nodes.length) (h : ∀ q ∈ pq, q < nodes.length) :
    pqPosition (nodes ++ more) p pq = pqPosition nodes p pq := by
  induction pq with
  | nil => rfl
  | cons q rest ih =>
    have hq := h q (by simp)
    have hg : greater (nodes ++ more) q p = greater nodes q p := by
      simp [greater, less, nodeAt_append_lt hp, nodeAt_append_lt hq]
    simp only [pqPosition, hg, ih fun x hx => h x (by simp [hx])]

/-- Removal in full: the elements below and above the position (R92). -/
theorem pqRemoveAt_eq (i : Nat) (pq : List Nat) :
    pqRemoveAt i pq = pq.take i ++ pq.drop (i + 1) := by
  simp [pqRemoveAt, List.eraseIdx_eq_take_drop_succ]

theorem pqFind_lt {nodes : List Node} {a i : Nat} {pq : List Nat}
    (h : pqFind nodes a pq = some i) : i < pq.length := by
  induction pq generalizing i with
  | nil => cases h
  | cons q rest ih =>
    simp only [pqFind] at h
    split at h
    · cases h; simp
    · split at h
      · cases h
      · obtain ⟨j, hj, rfl⟩ := Option.map_eq_some_iff.mp h
        simpa using ih hj

end Sys2Proof.Machine
end

