-- ==== Sys2Proof/Laws/Step.lean ====
section
/-! SUPPORT. What one step can do, once and for all: every proof about a step starts here. -/

namespace Sys2Proof.Machine

theorem step_legal {s : State} (h : legalParams s.par = true) : step s = nextEdge s := by
  simp [step, h]

/-- A step that gives a next state is a step of a block with legal parameters, and is one of five
things: nothing (no pin levels left), a reset, the response's acceptance, a wait, or the run of an
accepted word. -/
theorem step_cases {s t : State} (h : step s = .next t) :
    legalParams s.par = true ∧
      ((s.inputs = [] ∧ t = s) ∨
        ∃ p rest, s.inputs = p :: rest ∧
          ((p.rst = true ∧ t = (s.setInputs rest).doReset) ∨
            (p.rst = false ∧ s.rsp.isSome = true ∧ p.rspReady = true
              ∧ t = (s.setInputs rest).setRsp none) ∨
            (p.rst = false ∧ s.rsp.isSome = true ∧ p.rspReady = false ∧ t = s.setInputs rest) ∨
            (p.rst = false ∧ s.rsp = none ∧ p.cmdValid = false ∧ t = s.setInputs rest) ∨
            (p.rst = false ∧ s.rsp = none ∧ p.cmdValid = true
              ∧ runWord p.cmdWord (s.setInputs rest) = .next t))) := by
  unfold step at h
  split at h
  · refine ⟨by assumption, ?_⟩
    unfold nextEdge at h
    split at h
    · exact .inl ⟨by assumption, by cases h; rfl⟩
    · rename_i p rest hin
      refine .inr ⟨p, rest, hin, ?_⟩
      unfold edge at h
      cases hr : p.rst <;> cases hs : s.rsp <;> cases hy : p.rspReady <;> cases hv : p.cmdValid
        <;> simp_all
  · cases h

/-- A word is a command, or is answered with `IllegalCommand` (R78, R79). -/
theorem runWord_cases (w : Word) (s : State) :
    (∃ i, decodeWord w = .ok i ∧ runWord w s = exec i s) ∨
      (decodeWord w = .error (.illegalOpcode (opField w)) ∧ runWord w s = .next (s.err 6#8)) := by
  unfold runWord
  cases h : decodeWord w with
  | ok i => exact .inl ⟨i, rfl, rfl⟩
  | error e =>
    refine .inr ⟨?_, rfl⟩
    unfold decodeWord at h
    split at h
    · cases h
    · cases h; rfl

end Sys2Proof.Machine
end

