-- ==== Sys2Proof/Laws/Tree.lean ====
section
/-! SUPPORT. The laws of the tree builder's procedures (41_tree_builder.md R116) and of the list of
present bytes. -/

namespace Sys2Proof.Machine

theorem present_eq_filter (freq : Table Nat) :
    present freq = symbols.filter fun v => freq.get v != 0 := by
  simp only [present, Table.entries_eq, List.filter_map, List.map_map]
  simp [Function.comp_def]

theorem mem_present {freq : Table Nat} {v : Byte} : v ∈ present freq ↔ freq.get v ≠ 0 := by
  simp [present_eq_filter, mem_symbols]

theorem present_nodup (freq : Table Nat) : (present freq).Nodup := by
  rw [present_eq_filter]
  exact symbols_nodup.filter _

theorem present_length_le (freq : Table Nat) : (present freq).length ≤ nSym := by
  rw [present_eq_filter, ← symbols_length]
  exact List.length_filter_le ..

/-- A leaf enters node memory and the sequence. -/
theorem addLeaf_lengths (v : Byte) (w : Nat) (f : Forest) :
    (f.addLeaf v w).nodes.length = f.nodes.length + 1
      ∧ (f.addLeaf v w).pq.length = f.pq.length + 1 := by
  simp [Forest.addLeaf, alloc]

/-- A merged node enters node memory and the sequence. -/
theorem addMerged_lengths (l r : Nat) (f : Forest) :
    (f.addMerged l r).nodes.length = f.nodes.length + 1
      ∧ (f.addMerged l r).pq.length = f.pq.length + 1 := by
  simp [Forest.addMerged, alloc]

/-- The merge loop ends with one element, or with none when it started with none; every turn adds one
node. -/
theorem mergeLoop_lengths (turns : Nat) (f : Forest) (h : f.pq.length ≤ turns) :
    (mergeLoop turns f).pq.length = min 1 f.pq.length
      ∧ (mergeLoop turns f).nodes.length = f.nodes.length + (f.pq.length - 1) := by
  induction turns generalizing f with
  | zero =>
    have h0 : f.pq.length = 0 := Nat.le_zero.mp h
    simp [mergeLoop, h0]
  | succ turns ih =>
    unfold mergeLoop
    split
    · rename_i l r rest hpq
      have hlen : f.pq.length = rest.length + 2 := by simp [hpq]
      obtain ⟨hn, hq⟩ := addMerged_lengths l r ⟨f.nodes, rest⟩
      have hq' : (Forest.addMerged l r ⟨f.nodes, rest⟩).pq.length = rest.length + 1 := hq
      have hn' : (Forest.addMerged l r ⟨f.nodes, rest⟩).nodes.length = f.nodes.length + 1 := hn
      obtain ⟨h1, h2⟩ := ih (Forest.addMerged l r ⟨f.nodes, rest⟩) (by omega)
      rw [h1, h2, hq', hn', hlen]
      omega
    · rename_i hnot
      match hpq : f.pq with
      | [] => simp
      | [_] => simp
      | l :: r :: rest => exact absurd hpq (hnot l r rest)

end Sys2Proof.Machine
end

