-- ==== Sys2Proof/Tests/Slice0.lean ====
section
/-! SUPPORT. The model's own tests: the WellFormed checks, one written-out word per command, at most two
small tests per command with the expected result taken from an example of spec/ (named in the comment),
and for every statement with hypotheses a witness that meets them. -/

namespace Sys2Proof.Tests

open Sys2Proof Sys2Proof.Machine

/- One theorem at a time: each evaluation in the kernel would otherwise hold a thread of its own. -/
set_option Elab.async false

/-! ### Helpers -/

/-- The response of a result. -/
def answer (o : Result) : Option Response :=
  match o with
  | .next t => t.rsp
  | .fault _ => none
  | .refused _ => none

/-- The data of a successful response; `none` for a failure. -/
def okData (o : Result) : Option Word :=
  match answer o with
  | none => none
  | some r => if r.status = 0#8 then some r.data else none

/-- The status of a response. -/
def status (o : Result) : Option (BitVec 8) := (answer o).map Response.status

/-- The state a result leaves, or `s`. -/
def after (s : State) (o : Result) : State :=
  match o with
  | .next t => t
  | .fault _ => s
  | .refused _ => s

/-- The frequencies 97:5, 98:10 of 41_tree_builder.md R117. -/
def freqAb : Table Nat := ((Table.fill 0).set 97#8 5).set 98#8 10

/-- The three nodes of the example of 41_tree_builder.md R110, R111. -/
def nodesAb : List Node := [⟨97#8, 5, none⟩, ⟨98#8, 10, none⟩, ⟨97#8, 15, some (0, 1)⟩]

/-- The code table of 42_code_table.md R133's example: "0" for 97, "1" for 98. -/
def codeAb : Table CodeEntry :=
  ((Table.fill CodeEntry.empty).set 97#8 ⟨1#8, 0#256⟩).set 98#8 ⟨1#8, 1#256⟩

/-- After FQ.LOAD of `freqAb`. -/
def loaded : State := { State.reset with freq := freqAb }

/-- After FQ.LOAD of `freqAb` and TB.BUILD. -/
def built : State := { loaded with nodes := nodesAb, root := some 2 }

/-- After CG.GEN on it. -/
def generated : State := { built with code := codeAb, codesValid := true }

/-- Two leaves, both in the sequence, and a third node outside it. -/
def queued : State := { State.reset with nodes := nodesAb, pq := [0, 1] }

/-- The leaves (0,3), (0,3), (0,5), (0,8) of 40_ordered_sequence.md R98's example and (0,4), with the
sequence p1, p3, p0, p2 written with this file's slots 0, 1, 2, 3. -/
def sameValue : State :=
  { State.reset with
    nodes := [⟨0#8, 3, none⟩, ⟨0#8, 3, none⟩, ⟨0#8, 5, none⟩, ⟨0#8, 8, none⟩, ⟨0#8, 4, none⟩]
    pq := [0, 1, 2, 3] }

/-- Reset parameters with small buffers and counters. -/
def tiny (ibuf obuf : Nat) : State :=
  State.resetWith { Params.default with ibufCap := ibuf, obufCap := obuf }

/-- `"abb"`. -/
def abb : List Byte := [97#8, 98#8, 98#8]

/-- `"97 1 98 2"`, a newline, `"011"`: 43_encoder.md R146's example. -/
def abbStream : List Byte :=
  [0x39#8, 0x37#8, 0x20#8, 0x31#8, 0x20#8, 0x39#8, 0x38#8, 0x20#8, 0x32#8, 0x0A#8, 0x30#8, 0x31#8,
    0x31#8]

/-- The frequencies 97:1, 98:2. -/
def freqAbb : Table Nat := ((Table.fill 0).set 97#8 1).set 98#8 2

/-- The reset state with an input. -/
def input (b : List Byte) : State := { State.reset with ibuf := b }

/-- The same in PACKED8 mode. -/
def packedInput (b : List Byte) : State := { State.reset with ibuf := b, pack := true }

/-- The same with an output buffer of capacity `cap`. -/
def inputCap (cap : Nat) (b : List Byte) : State := { tiny 65536 cap with ibuf := b }

/-! ### WellFormed: an ill-formed term for each check -/

theorem test_wellFormed_a_low : (Instr.ibPut 65535).wellFormed = true := by decide

theorem test_wellFormed_a : (Instr.ibPut 65536).wellFormed = false := by decide

theorem test_wellFormed_b : (Instr.obGet (2 ^ 40)).wellFormed = false := by decide

theorem test_wellFormed_ab :
    (Instr.fqWrite 65536 0).wellFormed = false ∧ (Instr.fqWrite 0 (2 ^ 40)).wellFormed = false
      ∧ (Instr.fqWrite 65535 (2 ^ 40 - 1)).wellFormed = true := by decide

theorem test_wellFormed_every_operand :
    [Instr.csrRead 65536, .csrWrite 65536 0, .csrWrite 0 (2 ^ 40), .fqRead 65536, .ndLeaf 65536 0,
      .ndLeaf 0 (2 ^ 40), .ndMerge 65536 0, .ndMerge 0 (2 ^ 40), .ndRead 65536, .ndKids 65536,
      .ndEq 65536 0, .ndEq 0 (2 ^ 40), .pqInsert 65536, .pqRemoveAt (2 ^ 40), .pqPeekAt (2 ^ 40),
      .pqRemoveVal 65536, .pqContains 65536, .ctLen 65536, .ctBits 65536 0,
      .ctBits 0 (2 ^ 40)].all (fun i => !i.wellFormed) = true := by decide

theorem test_wellFormed_no_operand :
    [Instr.clear, .ibReset, .fqClear, .fqCount, .pqClear, .pqSize, .tbBuild, .cgGen, .hdCreate,
      .hdParse, .encode, .decode].all Instr.wellFormed = true := by decide

/-! ### Decoding: one word per command, written from 30_encoding.md R73 and R76 -/

theorem test_decode_clear : decodeWord 0x0100000000000000#64 = .ok .clear := by decide
theorem test_decode_csrRead : decodeWord 0x0200060000000000#64 = .ok (.csrRead 6) := by decide
theorem test_decode_csrWrite : decodeWord 0x0300000000000001#64 = .ok (.csrWrite 0 1) := by decide
theorem test_decode_ibReset : decodeWord 0x1000000000000000#64 = .ok .ibReset := by decide
theorem test_decode_ibPut : decodeWord 0x1100610000000000#64 = .ok (.ibPut 97) := by decide
theorem test_decode_obGet : decodeWord 0x1200000000000009#64 = .ok (.obGet 9) := by decide
theorem test_decode_fqClear : decodeWord 0x2000000000000000#64 = .ok .fqClear := by decide
theorem test_decode_fqWrite : decodeWord 0x2100710000000017#64 = .ok (.fqWrite 113 23) := by decide
theorem test_decode_fqRead : decodeWord 0x2200710000000000#64 = .ok (.fqRead 113) := by decide
theorem test_decode_fqCount : decodeWord 0x2300000000000000#64 = .ok .fqCount := by decide
theorem test_decode_ndLeaf : decodeWord 0x3000610000000005#64 = .ok (.ndLeaf 97 5) := by decide
theorem test_decode_ndMerge : decodeWord 0x3100000000000001#64 = .ok (.ndMerge 0 1) := by decide
theorem test_decode_ndRead : decodeWord 0x3200020000000000#64 = .ok (.ndRead 2) := by decide
theorem test_decode_ndKids : decodeWord 0x3300020000000000#64 = .ok (.ndKids 2) := by decide
theorem test_decode_ndEq : decodeWord 0x3400000000000002#64 = .ok (.ndEq 0 2) := by decide
theorem test_decode_pqClear : decodeWord 0x4000000000000000#64 = .ok .pqClear := by decide
theorem test_decode_pqInsert : decodeWord 0x4100040000000000#64 = .ok (.pqInsert 4) := by decide
theorem test_decode_pqRemoveAt :
    decodeWord 0x4200008000000000#64 = .ok (.pqRemoveAt 549755813888) := by decide
theorem test_decode_pqPeekAt : decodeWord 0x4300000000000002#64 = .ok (.pqPeekAt 2) := by decide
theorem test_decode_pqRemoveVal :
    decodeWord 0x4400030000000000#64 = .ok (.pqRemoveVal 3) := by decide
theorem test_decode_pqContains : decodeWord 0x4500030000000000#64 = .ok (.pqContains 3) := by decide
theorem test_decode_pqSize : decodeWord 0x4600000000000000#64 = .ok .pqSize := by decide
theorem test_decode_tbBuild : decodeWord 0x5000000000000000#64 = .ok .tbBuild := by decide
theorem test_decode_cgGen : decodeWord 0x5100000000000000#64 = .ok .cgGen := by decide
theorem test_decode_ctLen : decodeWord 0x5200610000000000#64 = .ok (.ctLen 97) := by decide
theorem test_decode_ctBits : decodeWord 0x5300610000000003#64 = .ok (.ctBits 97 3) := by decide
theorem test_decode_hdCreate : decodeWord 0x6000000000000000#64 = .ok .hdCreate := by decide
theorem test_decode_hdParse : decodeWord 0x6100000000000000#64 = .ok .hdParse := by decide
theorem test_decode_encode : decodeWord 0x7000000000000000#64 = .ok .encode := by decide
theorem test_decode_decode : decodeWord 0x7100000000000000#64 = .ok .decode := by decide

/-- The bounds of the operand fields: `a` 16 bits, `b` 40 bits (R73). -/
theorem test_decode_fields :
    decodeWord 0x31FFFF0000000000#64 = .ok (.ndMerge 65535 0)
      ∧ decodeWord 0x310000FFFFFFFFFF#64 = .ok (.ndMerge 0 1099511627775) := by decide

/-- "the all-zero word is illegal on purpose" (R79); the neighbours of the legal opcodes. -/
theorem test_decode_illegal :
    [0x00#8, 0x04#8, 0x0F#8, 0x13#8, 0x1F#8, 0x24#8, 0x2F#8, 0x35#8, 0x3F#8, 0x47#8, 0x4F#8, 0x54#8,
      0x5F#8, 0x62#8, 0x6F#8, 0x72#8, 0xFF#8].all (fun op => (decodeOp op 0 0).isNone) = true := by
  decide

/-- The encoding of a line of R80: `FQ.WRITE 97, 5`. -/
theorem test_encode : encode (.fqWrite 97 5) = 0x2100610000000005#64 := by decide

/-! ### One or two tests per command -/

/-- R190: the tables are wiped, the input buffer and `CONFIG` stay. -/
theorem test_clear :
    let t := after State.reset (exec .clear { generated with ibuf := abb, pack := true })
    t.nodes = [] ∧ t.root = none ∧ t.freq.get 97#8 = 0 ∧ t.ibuf = abb ∧ t.pack = true := by
  decide +kernel

/-- R191: "`CSR.READ 1 -> 0x1`, `CSR.READ 5 -> 3`, `CSR.READ 6 -> 0x10002`". -/
theorem test_csrRead :
    okData (exec (.csrRead 1) built) = some 0x1#64
      ∧ okData (exec (.csrRead 5) built) = some 3#64
      ∧ okData (exec (.csrRead 6) built) = some 0x10002#64 := by decide

theorem test_csrRead_bad : status (exec (.csrRead 7) built) = some 7#8 := by decide

/-- R192: "`CSR.WRITE 0, 1`, then `CSR.READ 0 -> 1`". -/
theorem test_csrWrite :
    okData (exec (.csrRead 0) (after State.reset (exec (.csrWrite 0 1) State.reset))) = some 1#64 := by
  decide

/-- R192: "`CSR.WRITE 1, 0` responds `BadOperand` and then `CSR.READ 2 -> 7`". -/
theorem test_csrWrite_bad :
    okData (exec (.csrRead 2) (after State.reset (exec (.csrWrite 1 0) State.reset))) = some 7#64 := by
  decide

theorem test_ibReset : (after State.reset (exec .ibReset (input abb))).ibuf = [] := by decide

/-- R194: "`IB.PUT 0x61 -> 1`, `IB.PUT 0x0A -> 2`; `IB.PUT 0x100` responds `BadOperand`". -/
theorem test_ibPut :
    okData (exec (.ibPut 0x0A) (input [0x61#8])) = some 2#64
      ∧ (after State.reset (exec (.ibPut 0x0A) (input [0x61#8]))).ibuf = [0x61#8, 0x0A#8] := by decide

theorem test_ibPut_bad : status (exec (.ibPut 0x100) State.reset) = some 7#8 := by decide

/-- R195: "`OB.GET 9 -> 0x0A`, `OB.GET 12 -> 0x31`, and `OB.GET 13` responds `BadOperand`". -/
theorem test_obGet :
    okData (exec (.obGet 9) { State.reset with obuf := abbStream }) = some 0x0A#64
      ∧ okData (exec (.obGet 12) { State.reset with obuf := abbStream }) = some 0x31#64 := by decide

theorem test_obGet_bad :
    status (exec (.obGet 13) { State.reset with obuf := abbStream }) = some 7#8 := by decide

theorem test_fqClear : (after State.reset (exec .fqClear loaded)).freq.get 97#8 = 0 := by
  decide +kernel

/-- R141: "`FQ.WRITE 113, 23`, then `FQ.READ 113 -> 23`". -/
theorem test_fqWrite :
    okData (exec (.fqRead 113) (after State.reset (exec (.fqWrite 113 23) State.reset)))
      = some 23#64 := by decide +kernel

/-- R141: a count has `W_FREQ` bits, 32 by default. -/
theorem test_fqWrite_bound :
    status (exec (.fqWrite 0 (2 ^ 32)) State.reset) = some 7#8
      ∧ status (exec (.fqWrite 0 (2 ^ 32 - 1)) State.reset) = some 0#8 := by decide +kernel

/-- R142: "after reset, `FQ.READ 0 -> 0`". -/
theorem test_fqRead : okData (exec (.fqRead 0) State.reset) = some 0#64 := by decide +kernel

/-- R144: "`IB.LOAD "abb"`, `FQ.COUNT -> 3`, `FQ.READ 97 -> 1`, `FQ.READ 98 -> 2`, `FQ.READ 99 -> 0`". -/
theorem test_fqCount :
    okData (exec .fqCount (input abb)) = some 3#64
      ∧ (after State.reset (exec .fqCount (input abb))).freq = freqAbb := by decide +kernel

/-- R110: "`ND.LEAF 97, 5 -> 0` and `ND.LEAF 98, 10 -> 1`". -/
theorem test_ndLeaf :
    okData (exec (.ndLeaf 98 10) { State.reset with nodes := [⟨97#8, 5, none⟩] }) = some 1#64
      ∧ (after State.reset (exec (.ndLeaf 97 5) State.reset)).nodes = [⟨97#8, 5, none⟩] := by decide

/-- R111: "`ND.MERGE 0, 1 -> 2`, and `NODE[2]` is `leaf 0, value 97, weight 15, left 0, right 1`". -/
theorem test_ndMerge :
    (after State.reset (exec (.ndMerge 0 1)
      { State.reset with nodes := [⟨97#8, 5, none⟩, ⟨98#8, 10, none⟩] })).nodes = nodesAb := by decide

/-- R205: "`ND.MERGE 600, 700` on an empty node memory reports `BadOperand`". -/
theorem test_ndMerge_bad : status (exec (.ndMerge 600 700) State.reset) = some 7#8 := by decide

/-- R112: "`ND.READ 2 -> 0x000061000000000F`" and "`ND.READ 0 -> 0x0001610000000005`". -/
theorem test_ndRead :
    okData (exec (.ndRead 2) built) = some 0x000061000000000F#64
      ∧ okData (exec (.ndRead 0) built) = some 0x0001610000000005#64 := by decide

/-- R113: "`ND.KIDS 2 -> 0x0000000000010000`" and "`ND.KIDS 0 -> !BadOperand`". -/
theorem test_ndKids :
    okData (exec (.ndKids 2) built) = some 0x0000000000010000#64
      ∧ status (exec (.ndKids 0) built) = some 7#8 := by decide

/-- R114: "`ND.EQ 0, 1 -> 1`, `ND.EQ 0, 2 -> 0`". -/
theorem test_ndEq :
    okData (exec (.ndEq 0 1) sameValue) = some 1#64
      ∧ okData (exec (.ndEq 0 2) sameValue) = some 0#64 := by decide

/-- R94: "after `PQ.CLEAR`, `PQ.SIZE -> 0`". -/
theorem test_pqClear :
    okData (exec .pqSize (after State.reset (exec .pqClear queued))) = some 0#64 := by decide

/-- R95: an element of an equal key goes after the one that is there: position 1. -/
theorem test_pqInsert :
    okData (exec (.pqInsert 1) { sameValue with pq := [0, 2, 3] }) = some 1#64
      ∧ (after State.reset (exec (.pqInsert 1) { sameValue with pq := [0, 2, 3] })).pq
        = [0, 1, 2, 3] := by decide

theorem test_pqInsert_bad : status (exec (.pqInsert 3) queued) = some 7#8 := by decide

/-- R96: "with pointers `[4, 7, 2]` in the sequence, `PQ.REMOVEAT 1 -> 7` leaves `[4, 2]`". -/
theorem test_pqRemoveAt :
    okData (exec (.pqRemoveAt 1) { State.reset with pq := [4, 7, 2] }) = some 7#64
      ∧ (after State.reset (exec (.pqRemoveAt 1) { State.reset with pq := [4, 7, 2] })).pq
        = [4, 2] := by decide

/-- R97: "`PQ.PEEKAT 2 -> 2` and `PQ.PEEKAT 3 -> !OutOfRange`". -/
theorem test_pqPeekAt :
    okData (exec (.pqPeekAt 2) { State.reset with pq := [4, 7, 2] }) = some 2#64
      ∧ status (exec (.pqPeekAt 3) { State.reset with pq := [4, 7, 2] }) = some 1#8 := by decide

/-- R98: the second of two equal nodes as operand removes the first. -/
theorem test_pqRemoveVal :
    okData (exec (.pqRemoveVal 1) sameValue) = some 0#64
      ∧ (after State.reset (exec (.pqRemoveVal 1) sameValue)).pq = [1, 2, 3] := by decide

/-- R98: "`PQ.REMOVEVAL p4 -> !NotFound`". -/
theorem test_pqRemoveVal_absent : status (exec (.pqRemoveVal 4) sameValue) = some 2#8 := by decide

/-- R99: "`PQ.CONTAINS p3 -> 1` and `PQ.CONTAINS p4 -> 0`". -/
theorem test_pqContains :
    okData (exec (.pqContains 1) sameValue) = some 1#64
      ∧ okData (exec (.pqContains 4) sameValue) = some 0#64 := by decide

/-- R100: "after `PQ.CLEAR` and two successful `PQ.INSERT`, `PQ.SIZE -> 2`". -/
theorem test_pqSize : okData (exec .pqSize queued) = some 2#64 := by decide

/-- R117: "`FQ.LOAD 97:5, 98:10`, `TB.BUILD -> 0x10002`; the tree is that of rule R111's example". -/
theorem test_tbBuild :
    okData (exec .tbBuild loaded) = some 0x10002#64
      ∧ (after State.reset (exec .tbBuild loaded)).nodes = nodesAb := by decide +kernel

/-- R117: "all-zero table: `nd_count = 0`, response 0, `STATUS.EMPTY = 1`". -/
theorem test_tbBuild_empty :
    okData (exec .tbBuild State.reset) = some 0#64
      ∧ (after State.reset (exec .tbBuild State.reset)).emptyFlag = true := by decide +kernel

/-- R133: "`CG.GEN -> 2`; then `CT.LEN 97 -> 1`, `CT.BITS 97, 0 -> 0`, `CT.LEN 98 -> 1`, `CT.BITS 98, 0 ->
1`, and `CT.LEN 99 -> 0`". -/
theorem test_cgGen :
    okData (exec .cgGen built) = some 2#64
      ∧ (after State.reset (exec .cgGen built)).code = codeAb := by decide +kernel

/-- R132: a single-leaf tree gives an all-empty table; the result is 1. -/
theorem test_cgGen_single :
    let s := { State.reset with nodes := [⟨113#8, 23, none⟩], root := some 0 }
    okData (exec .cgGen s) = some 1#64
      ∧ (after s (exec .cgGen s)).code = Table.fill CodeEntry.empty := by decide +kernel

theorem test_ctLen :
    okData (exec (.ctLen 97) generated) = some 1#64
      ∧ okData (exec (.ctLen 99) generated) = some 0#64 := by decide +kernel

/-- R136: 'a' has code "1100" and 'n' has "1101": quarter 0 is 0x3 and 0xB. -/
theorem test_ctBits :
    let s := { State.reset with
      code := ((Table.fill CodeEntry.empty).set 97#8 ⟨4#8, 3#256⟩).set 110#8 ⟨4#8, 11#256⟩ }
    okData (exec (.ctBits 97 0) s) = some 0x3#64 ∧ okData (exec (.ctBits 110 0) s) = some 0xB#64
      ∧ okData (exec (.ctBits 110 3) s) = some 0#64 := by decide +kernel

/-- R177: "`FQ.LOAD 113:23`, `HD.CREATE -> 6`, and `OBUF` holds 31 31 33 20 32 33". -/
theorem test_hdCreate :
    let s := { State.reset with freq := (Table.fill 0).set 113#8 23 }
    okData (exec .hdCreate s) = some 6#64
      ∧ (after s (exec .hdCreate s)).obuf
        = [0x31#8, 0x31#8, 0x33#8, 0x20#8, 0x32#8, 0x33#8] := by decide +kernel

/-- R181: "`IB.LOAD "97 5 98 10"`, `HD.PARSE -> 2`, then `FQ.READ 97 -> 5`, `FQ.READ 98 -> 10`". -/
theorem test_hdParse :
    let s := input [0x39#8, 0x37#8, 0x20#8, 0x35#8, 0x20#8, 0x39#8, 0x38#8, 0x20#8, 0x31#8, 0x30#8]
    okData (exec .hdParse s) = some 2#64 ∧ (after s (exec .hdParse s)).freq = freqAb := by
  decide +kernel

/-- R182: "`"300 x"` reports `MalformedHeader`", and the table is cleared (R181). -/
theorem test_hdParse_bad :
    let s := { loaded with ibuf := [0x33#8, 0x30#8, 0x30#8, 0x20#8, 0x78#8] }
    status (exec .hdParse s) = some 3#8
      ∧ (after s (exec .hdParse s)).freq = Table.fill 0 := by decide +kernel

/-- R146: "`ENCODE -> 13`", and `OBUF` holds the stream. -/
theorem test_encode_ascii :
    okData (exec .encode (input abb)) = some 13#64
      ∧ (after State.reset (exec .encode (input abb))).obuf = abbStream := by decide +kernel

/-- R146: "In PACKED8 mode the same input gives `ENCODE -> 11` and the body is the one byte `0x60`". -/
theorem test_encode_packed :
    okData (exec .encode (packedInput abb)) = some 11#64
      ∧ (after State.reset (exec .encode (packedInput abb))).obuf
        = abbStream.take 10 ++ [0x60#8] := by decide +kernel

/-- R162: "`DECODE -> 3`, and `OBUF` holds `61 62 62`". -/
theorem test_decode_ascii :
    okData (exec .decode (input abbStream)) = some 3#64
      ∧ (after State.reset (exec .decode (input abbStream))).obuf = abb := by decide +kernel

/-- R163: a body that ends inside a code is `MalformedBody`; the tables are wiped (R203). Here 98 has the
code "1" and 97 and 99 have "00" and "01". -/
theorem test_decode_incomplete :
    let s := input
      [0x39#8, 0x37#8, 0x20#8, 0x31#8, 0x20#8, 0x39#8, 0x38#8, 0x20#8, 0x35#8, 0x20#8, 0x39#8,
        0x39#8, 0x20#8, 0x32#8, 0x0A#8, 0x31#8, 0x30#8]
    status (exec .decode s) = some 4#8
      ∧ (after s (exec .decode s)).nodes = [] := by decide +kernel

/-! ### The interface -/

/-- From reset a placed word is the next thing run. -/
theorem test_withFetchWord :
    after State.reset (step (State.reset.withFetchWord 64 0x1100610000000000))
      = { State.reset with ibuf := [97#8] }.ok 1#64 := by decide +kernel

/-- With no pin levels left the state does not change. -/
theorem test_step_idle : after loaded (step State.reset) = State.reset := by decide +kernel

/-! ### Witnesses: for every statement with hypotheses, values that meet them, clause by clause -/

/-- A fault-free header, in a form that can be evaluated. -/
theorem noFault_of {w : Nat} {toks : List (List Byte)}
    (h : (List.range toks.length).all
      (fun k => decide (tokenFault w k (toks.getD k []) = none)) = true) :
    ∀ k t, toks[k]? = some t → tokenFault w k t = none := by
  intro k t hk
  have hlt : k < toks.length := by
    by_contra hge
    rw [List.getElem?_eq_none (Nat.le_of_not_lt hge)] at hk
    cases hk
  have := List.all_eq_true.mp h k (List.mem_range.mpr hlt)
  simpa [List.getD, hk] using this

/-- A table whose entries are all below `n`, in a form that can be evaluated. -/
theorem below_of {freq : Table Nat} {n : Nat}
    (h : freq.cells.all (fun f => decide (f < n)) = true) : ∀ v, freq.get v < n := fun v =>
  of_decide_eq_true (List.all_eq_true.mp h _ (freq.get_mem v))

/-- A word whose decoding is an error is no command. -/
theorem notOk_of {w : Word} {e : DecodeError} (h : decodeWord w = .error e) :
    ∀ i, decodeWord w ≠ .ok i := by
  intro i hi
  rw [h] at hi
  cases hi

/-- Three bytes, 97:1, 98:5, 99:2, whose codes are "00", "1" and "01". -/
def freqAbc : Table Nat := (((Table.fill 0).set 97#8 1).set 98#8 5).set 99#8 2

/-- Their header line, `"97 1 98 5 99 2"` and a newline. -/
def headerAbc : List Byte :=
  [0x39#8, 0x37#8, 0x20#8, 0x31#8, 0x20#8, 0x39#8, 0x38#8, 0x20#8, 0x35#8, 0x20#8, 0x39#8, 0x39#8,
    0x20#8, 0x32#8, 0x0A#8]

/-- Their tree. -/
def nodesAbc : List Node :=
  [⟨97#8, 1, none⟩, ⟨98#8, 5, none⟩, ⟨99#8, 2, none⟩, ⟨97#8, 3, some (0, 2)⟩,
    ⟨97#8, 8, some (3, 1)⟩]

theorem witness_DecodeEncodeRoundTrip :
    (Instr.ndMerge 65535 (2 ^ 40 - 1)).wellFormed = true := by decide

theorem witness_FormatsSelectOperandFields :
    decodeWord 0x4212348000000000#64 = .ok (.pqRemoveAt (2 ^ 39))
      ∧ format (.pqRemoveAt (2 ^ 39)) = .b
      ∧ opField 0x42FFFF8000000000#64 = opField 0x4212348000000000#64
      ∧ bField 0x42FFFF8000000000#64 = bField 0x4212348000000000#64
      ∧ decodeWord 0x22FFFF0000000001#64 = .ok (.fqRead 65535) ∧ format (.fqRead 65535) = .a
      ∧ aField 0x22FFFFFFFFFFFFFF#64 = aField 0x22FFFF0000000001#64
      ∧ decodeWord 0x46FFFFFFFFFFFFFF#64 = .ok .pqSize ∧ format .pqSize = .z
      ∧ decodeWord 0x34FFFFFFFFFFFFFF#64 = .ok (.ndEq 65535 (2 ^ 40 - 1))
      ∧ format (.ndEq 65535 (2 ^ 40 - 1)) = .ab := by decide

theorem witness_IllegalOpcodeFailsWithIllegalCommand :
    [0x00FFFFFFFFFFFFFF#64, 0x0400000000000000#64, 0x1F00000000000000#64, 0x7200000000000000#64,
      0xFFFFFFFFFFFFFFFF#64].all (fun w => illegalOpcode (opField w).toNat) = true := by decide

theorem witness_StepRunsAcceptedCommand :
    (legalParams State.reset.par = true
        ∧ (State.reset.setInputs [offer (encode .clear)]).inputs = offer (encode .clear) :: []
        ∧ (offer (encode .clear)).rst = false ∧ (offer (encode .clear)).cmdValid = true
        ∧ State.reset.rsp = none ∧ decodeWord (offer (encode .clear)).cmdWord = .ok .clear)
      ∧ decodeTableWord 64 0x7100000000000000 = some .decode := by decide

theorem witness_PortHandshake :
    (portOut false State.reset).cmdReady = true ∧ (offer 0#64).cmdValid = true
      ∧ (offer 0#64).rst = false ∧ accept.rst = false ∧ accept.cmdValid = false
      ∧ (portOut false (State.reset.ok 1#64)).rspValid = true ∧ accept.rspReady = true
      ∧ (offer 0#64).rspReady = false := by decide

theorem witness_ResetFromEveryState :
    legalParams generated.par = true
      ∧ (generated.setInputs [⟨true, true, 0#64, true⟩]).inputs = ⟨true, true, 0#64, true⟩ :: []
      ∧ status (exec .clear generated) = some 0#8 := by decide +kernel

theorem witness_ResetFromEveryState_values : AtResetValues (tiny 1 1) := by
  refine ⟨fun v => Table.get_fill 0 v, rfl, rfl, rfl, fun v => ?_, rfl, rfl, rfl, rfl, rfl, rfl, rfl⟩
  have h : (tiny 1 1).code.get v = CodeEntry.empty := Table.get_fill _ v
  rw [h]
  exact ⟨rfl, rfl⟩

theorem witness_ResetReadOut : (6 : Nat) ≤ 6 ∧ (255 : Nat) ≤ 255 := by decide

theorem witness_ResetStateSatisfiesInvariant :
    legalParams ⟨1, 1, 1, false⟩ = true ∧ legalParams ⟨32, 2 ^ 32 - 1, 2 ^ 40, true⟩ = true
      ∧ legalParams ⟨1, 0, 2 ^ 40, true⟩ = true := by decide

/-- A tree with its codes is within the invariant. -/
theorem inv_generated : Inv generated := inv_of_check (by decide +kernel)

/-- A sequence with two elements is within the invariant. -/
theorem inv_queued : Inv queued := inv_of_check (by decide +kernel)

/-- A sequence with two elements of equal keys is within the invariant. -/
theorem inv_sameValue : Inv sameValue := inv_of_check (by decide +kernel)

/-- An input is within the invariant. -/
theorem inv_input : Inv (input abb) := inv_of_check (by decide +kernel)

theorem witness_EveryStepKeepsInvariant :
    Inv generated ∧ status (exec (.ndMerge 2 2) generated) = some 0#8
      ∧ Inv queued ∧ status (exec (.pqInsert 2) queued) = some 0#8
      ∧ Inv (generated.setInputs [offer (encode .tbBuild)])
      ∧ status (step (generated.setInputs [offer (encode .tbBuild)])) = some 0#8 :=
  ⟨inv_generated, by decide +kernel, inv_queued, by decide +kernel,
    inv_of_check (by decide +kernel), by decide +kernel⟩

theorem witness_OnlyIllegalParametersAreRefused :
    (1 ≤ 32 ∧ 32 ≤ 32 ∧ 2 ^ 32 - 1 ≤ 2 ^ 32 - 1 ∧ 1 ≤ 1 ∧ 2 ^ 40 ≤ 2 ^ 40)
      ∧ [⟨0, 0, 1, true⟩, ⟨33, 0, 1, true⟩, ⟨32, 2 ^ 32, 1, true⟩, ⟨32, 0, 0, true⟩,
        ⟨32, 0, 2 ^ 40 + 1, true⟩].all (fun p => !legalParams p) = true := by decide

theorem witness_FailureLeavesTheStateOfItsClass :
    status (exec (.ibPut 256) State.reset) = some 7#8
      ∧ status (exec .hdCreate { tiny 0 1 with freq := freqAb }) = some 5#8
      ∧ status (exec .hdParse (input [0x31#8])) = some 3#8
      ∧ status (exec .decode (input (abbStream ++ [0x20#8]))) = some 4#8
      ∧ ∀ i, decodeWord 0#64 ≠ .ok i :=
  ⟨by decide, by decide +kernel, by decide +kernel, by decide +kernel,
    notOk_of (e := .illegalOpcode 0#8) (by decide)⟩

theorem witness_ReadsHaveNoSideEffect :
    [Instr.fqRead 97, .ndRead 2, .ndKids 2, .ndEq 0 1, .pqPeekAt 1, .pqContains 2, .pqSize,
      .ctLen 97, .ctBits 97 3, .csrRead 6].all
        (fun i => isRead i && (okData (exec i { generated with pq := [0, 1] })).isSome) = true
      ∧ isRead (.obGet 12) = true
      ∧ okData (exec (.obGet 12) { State.reset with obuf := abbStream }) = some 0x31#64 := by
  decide +kernel

theorem witness_EachPieceOfStateHasItsWriters :
    status (exec .pqSize State.reset) = some 0#8 ∧ writesFreq .pqSize = false
      ∧ writesNodes .pqSize = false ∧ writesPq .pqSize = false ∧ writesRoot .pqSize = false
      ∧ writesCode .pqSize = false ∧ writesCodesValid .pqSize = false
      ∧ writesIbuf .pqSize = false ∧ writesObuf .pqSize = false ∧ writesPack .pqSize = false
      ∧ Instr.pqSize ≠ .clear := by decide

theorem witness_NodeRecordsAreImmutable :
    status (exec (.ndMerge 2 2) generated) = some 0#8 ∧ restartsNodes (.ndMerge 2 2) = false
      ∧ 2 < generated.nodes.length := by decide +kernel

theorem witness_FlagWriters :
    status (exec .tbBuild loaded) = some 0#8 ∧ status (exec .cgGen built) = some 0#8
      ∧ status (exec .encode (input abb)) = some 0#8
      ∧ status (exec .encode (inputCap 12 abb)) = some 5#8
      ∧ status (exec .decode (input abbStream)) = some 0#8
      ∧ status (exec .decode (input [0x31#8])) = some 3#8
      ∧ status (exec .clear loaded) = some 0#8
      ∧ status (exec (.ndLeaf 256 0) generated) = some 7#8
      ∧ status (exec (.ndLeaf 255 0) generated) = some 0#8 := by decide +kernel

theorem witness_CommandsRunInOrder :
    (legalParams State.reset.par = true
        ∧ ([Instr.ibPut 97, .encode].all Instr.wellFormed) = true
        ∧ (State.reset.setInputs (hostProgram [.ibPut 97, .encode] ++ [accept])).inputs
          = hostProgram [.ibPut 97, .encode] ++ [accept])
      ∧ (abb.length ≤ (tiny 3 1).par.ibufCap ∧ (tiny 3 1).rsp = none)
      ∧ (2 ^ 32 - 1 < 2 ^ State.reset.par.wFreq)
      ∧ [(97#8, 5), (98#8, 1), (97#8, 7)] = [(97#8, 5), (98#8, 1)] ++ (97#8, 7) :: [] := by decide

theorem witness_CsrReadLayouts :
    6 < 7 ∧ loaded.root = none ∧ Inv generated ∧ generated.root = some 2 :=
  ⟨by decide, rfl, inv_generated, rfl⟩

theorem witness_CsrWriteSetsPackOnly :
    (1 : Nat) ≠ 0 ∧ (2 ^ 40 - 1) % 2 = 1 ∧ (2 ^ 40 - 2) % 2 = 0
      ∧ (State.resetWith ⟨32, 0, 1, false⟩).par.packSupported = false
      ∧ State.reset.par.packSupported = true := by decide

theorem witness_BufferCommands :
    255 < 256 ∧ (255 : Nat) ≤ 255
      ∧ ({ tiny 1 1 with ibuf := [97#8] } : State).ibuf.length
        = ({ tiny 1 1 with ibuf := [97#8] } : State).par.ibufCap
      ∧ (tiny 1 1).ibuf.length ≠ (tiny 1 1).par.ibufCap
      ∧ ({ State.reset with obuf := abbStream } : State).obuf.length ≤ 13
      ∧ byteAt abbStream 12 = some 0x31#8 ∧ byteAt abbStream 13 = none := by decide

theorem witness_FrequencyEntryCommands :
    255 < 256 ∧ (255 : Nat) ≤ 255 ∧ 2 ^ State.reset.par.wFreq ≤ 2 ^ 32
      ∧ 2 ^ 32 - 1 < 2 ^ State.reset.par.wFreq ∧ 98#8 ≠ byteOf 97 := by decide

theorem witness_CountFrequencies : Inv (input abb) := inv_input

/-- Two leaves whose weights sum to `2^W_WEIGHT` at `W_FREQ = 1`, and one less. -/
theorem witness_NodeAllocation :
    (255 < 256 ∧ (255 : Nat) ≤ 255 ∧ 2 ^ State.reset.par.wFreq ≤ 2 ^ 32
        ∧ 2 ^ 32 - 1 < 2 ^ State.reset.par.wFreq)
      ∧ ({ State.reset with nodes := List.replicate 511 ⟨0#8, 0, none⟩ } : State).nodes.length = 511
      ∧ State.reset.nodes.length ≠ 511 ∧ State.reset.nodes.length ≤ 0
      ∧ (let s : State := { State.reset with
          nodes := [⟨0#8, 2 ^ 39, none⟩, ⟨1#8, 2 ^ 39 - 1, none⟩] }
        s.nodes[0]? = some ⟨0#8, 2 ^ 39, none⟩ ∧ s.nodes[1]? = some ⟨1#8, 2 ^ 39 - 1, none⟩
          ∧ 2 ^ (s.par.wFreq + 8) ≤ 2 ^ 39 + 2 ^ 39
          ∧ 2 ^ 39 + (2 ^ 39 - 1) < 2 ^ (s.par.wFreq + 8)) := by decide +kernel

theorem witness_NodeReadOut :
    generated.nodes.length ≤ 3 ∧ Inv generated
      ∧ generated.nodes[1]? = some ⟨98#8, 10, none⟩
      ∧ generated.nodes[2]? = some ⟨97#8, 15, some (0, 1)⟩ :=
  ⟨by decide, inv_generated, rfl, rfl⟩

theorem witness_NodeOrderIsLexicographic :
    (nodeAt [⟨97#8, 15, none⟩] 0).weight = (nodeAt nodesAb 2).weight
      ∧ (nodeAt [⟨97#8, 15, none⟩] 0).value = (nodeAt nodesAb 2).value := by decide

theorem witness_StructuralEquality :
    sameValue.nodes.length ≤ 5 ∧ 4 < sameValue.nodes.length ∧ Inv sameValue
      ∧ nodeEq sameValue.nodes 0 1 = true ∧ nodeEq sameValue.nodes 1 0 = true
      ∧ 2 < (builtNodes freqAb).length ∧ (0 : Nat) ≠ 2 :=
  ⟨by decide, by decide, inv_sameValue, by decide, by decide, by decide +kernel, by decide⟩

theorem witness_SequenceClearAndSize : Inv queued := inv_queued

theorem witness_InsertBeforeFirstGreater :
    queued.nodes.length ≤ 3 ∧ 2 < queued.nodes.length
      ∧ ({ queued with pq := List.replicate 256 0 } : State).pq.length = 256
      ∧ queued.pq.length ≠ 256 ∧ RankOrdered queued.nodes queued.pq :=
  ⟨by decide, by decide, by decide +kernel, by decide, inv_queued.rankOrder⟩

theorem witness_EqualKeysKeepInsertionOrder :
    RankOrdered sameValue.nodes sameValue.pq ∧ okData (exec (.pqInsert 1) sameValue) = some 2#64
      ∧ status (exec (.pqRemoveAt 3) sameValue) = some 0#8
      ∧ status (exec (.pqRemoveVal 3) sameValue) = some 0#8 :=
  ⟨inv_sameValue.rankOrder, by decide, by decide, by decide⟩

theorem witness_RemoveAndPeekByIndex :
    queued.pq.length ≤ 2 ∧ queued.pq[1]? = some 1 ∧ RankOrdered queued.nodes queued.pq :=
  ⟨by decide, by decide, inv_queued.rankOrder⟩

theorem witness_RemoveAndFindByValue :
    sameValue.nodes.length ≤ 5 ∧ Inv sameValue ∧ 4 < sameValue.nodes.length
      ∧ (∀ q ∈ sameValue.pq, nodeEq sameValue.nodes q 4 = false)
      ∧ sameValue.pq[3]? = some 3 ∧ nodeEq sameValue.nodes 3 3 = true
      ∧ ∀ q ∈ sameValue.pq.take 3, nodeEq sameValue.nodes q 3 = false :=
  ⟨by decide, inv_sameValue, by decide, by decide, by decide, by decide, by decide⟩

theorem witness_TreeBuild :
    loaded.freq = freqAb ∧ loaded.freq = generated.freq
      ∧ status (exec .tbBuild loaded) = some 0#8 ∧ status (exec .tbBuild generated) = some 0#8
      ∧ status (exec .cgGen built) = some 0#8
      ∧ present (Table.fill 0) = []
      ∧ present ((Table.fill 0).set 255#8 23) = [255#8] ∧ present freqAb ≠ []
      ∧ (present (Table.fill 1)).length = 256 ∧ (present freqAb)[1]? = some 98#8 :=
  ⟨rfl, rfl, by decide +kernel, by decide +kernel, by decide +kernel, by decide +kernel,
    by decide +kernel, by decide +kernel, by decide +kernel, by decide +kernel⟩

theorem witness_TreeBuilderContract :
    (present State.reset.freq).length = 0 ∧ status (exec .tbBuild State.reset) = some 0#8
      ∧ (present ((Table.fill 0).set 0#8 1)).length = 1 ∧ 2 ≤ (present loaded.freq).length
      ∧ (after State.reset (exec .tbBuild loaded)).root = some 2 ∧ loaded.freq.get 98#8 ≠ 0
      ∧ LeadsTo (after State.reset (exec .tbBuild loaded)).nodes 2 98#8 [true] :=
  ⟨by decide +kernel, by decide +kernel, by decide +kernel, by decide +kernel, by decide +kernel,
    by decide +kernel, 1, by decide +kernel, by decide +kernel, by decide +kernel⟩

/-- Slots 0 and 1 of three leaves are both unmerged when slot 3 is filled. -/
theorem witness_MergesTakeTheTwoLowestRanked :
    (after State.reset (exec .tbBuild { State.reset with freq := freqAbc })).nodes = nodesAbc
      ∧ (present freqAbc).length ≤ 3 ∧ 3 < nodesAbc.length
      ∧ Unmerged nodesAbc 3 0 ∧ Unmerged nodesAbc 3 1 ∧ (0 : Nat) ≠ 1 := by
  refine ⟨by decide +kernel, by decide +kernel, by decide, ⟨by decide, ?_⟩, ⟨by decide, ?_⟩,
    by decide⟩ <;>
  · intro m l r hm hk
    have : m = 0 ∨ m = 1 ∨ m = 2 := by omega
    rcases this with rfl | rfl | rfl <;> cases hk

theorem witness_BuildStaysWithinBounds :
    (∀ v, freqAb.get v < 2 ^ 4) ∧ builtRoot freqAb = some 2
      ∧ LeadsTo (builtNodes freqAb) 2 97#8 [false] :=
  ⟨below_of (by decide +kernel), by decide +kernel, 0, by decide +kernel, by decide +kernel,
    by decide +kernel⟩

theorem witness_CodesArePaths :
    loaded.root = none ∧ Inv generated ∧ generated.root = some 2
      ∧ LeadsTo generated.nodes 2 98#8 [true] ∧ ∀ path, ¬ LeadsTo generated.nodes 2 99#8 path := by
  refine ⟨rfl, inv_generated, rfl, ⟨1, by decide, by decide, by decide⟩, ?_⟩
  rintro path ⟨p, hp, -, hv⟩
  match path with
  | [] => cases hp; revert hv; decide
  | [false] => cases hp; revert hv; decide
  | [true] => cases hp; revert hv; decide
  | false :: _ :: _ => cases hp
  | true :: _ :: _ => cases hp

theorem witness_CodeTableReadOut :
    255 < 256 ∧ (255 : Nat) ≤ 255 ∧ 3 < 4 ∧ (3 : Nat) ≤ 3 ∧ 63 < 64 ∧ Inv generated
      ∧ (generated.code.get (byteOf 255)).len.toNat ≤ 64 * 3 + 63 :=
  ⟨by decide, by decide, by decide, by decide, by decide, inv_generated, by decide +kernel⟩

theorem witness_CodeIsPrefixFreeAndComplete :
    2 ≤ (present freqAb).length ∧ 97#8 ∈ present freqAb ∧ 98#8 ∈ present freqAb
      ∧ (97#8 : Byte) ≠ 98#8 := by decide +kernel

theorem witness_DecimalSpelling : (10 : Nat) ≠ 0 ∧ 9 < 10 := by decide

theorem witness_HeaderGrammar : ∀ v, freqAb.get v < 2 ^ 32 := below_of (by decide +kernel)

theorem witness_HeaderCreate :
    ({ tiny 0 9 with freq := freqAb } : State).par.obufCap < (createHeader freqAb).length
      ∧ (createHeader freqAb).length ≤ ({ tiny 0 10 with freq := freqAb } : State).par.obufCap := by
  decide +kernel

theorem witness_TokensAreMaximalRuns :
    isSpace 0x0B#8 = true ∧ (∀ c ∈ abb, isSpace c = false) ∧ abb ≠ []
      ∧ isSpace 0x0E#8 = false := by decide

/-- `"97 5"`; `"300 x"` at its first token, `"97 x"` at its second; a frequency of `2^32`; `"97"`. -/
theorem witness_HeaderParse :
    (∀ k t, (tokens [0x39#8, 0x37#8, 0x20#8, 0x35#8])[k]? = some t → tokenFault 32 k t = none)
      ∧ (tokens [0x39#8, 0x37#8, 0x20#8, 0x35#8]).length % 2 = 0
      ∧ (tokens [0x39#8, 0x37#8, 0x20#8, 0x35#8])[2 * 0]? = some [0x39#8, 0x37#8]
      ∧ (tokens [0x39#8, 0x37#8, 0x20#8, 0x35#8])[2 * 0 + 1]? = some [0x35#8]
      ∧ tokenFault 32 0 [0x32#8, 0x35#8, 0x36#8] = some .malformedHeader
      ∧ tokenFault 32 0 [0x32#8, 0x35#8, 0x35#8] = none
      ∧ tokenFault 32 1 [0x78#8] = some .malformedHeader
      ∧ tokenFault 32 1 (dec (2 ^ 32)) = some .capacity
      ∧ tokenFault 32 1 (dec (2 ^ 32 - 1)) = none
      ∧ (∀ k t, (tokens [0x39#8, 0x37#8])[k]? = some t → tokenFault 32 k t = none)
      ∧ (tokens [0x39#8, 0x37#8]).length % 2 = 1 :=
  ⟨noFault_of (by decide), by decide, by decide, by decide, by decide, by decide, by decide,
    by decide +kernel, by decide +kernel, noFault_of (by decide), by decide⟩

theorem witness_HeaderRoundTrip : ∀ v, freqAb.get v < 2 ^ 4 := below_of (by decide +kernel)

theorem witness_EncodeWritesTheStream :
    (inputCap 12 abb).par.obufCap
        < (encodedStream (inputCap 12 abb).pack (inputCap 12 abb).ibuf).length
      ∧ (encodedStream (inputCap 13 abb).pack (inputCap 13 abb).ibuf).length
        ≤ (inputCap 13 abb).par.obufCap
      ∧ (present (countBytes [97#8, 97#8])).length ≤ 1
      ∧ 2 ≤ (present (countBytes abb)).length := by decide +kernel

theorem witness_BodyFormats :
    (bodyBytes true [true])[0 / 8]? = some 0x80#8 ∧ (bodyBytes true [true])[7 / 8]? = some 0x80#8 := by
  decide

/-- The input "abb" under the largest output buffer of R6, where no output overflows (R7 clause f). -/
def inputLargest : State := inputCap (2 ^ 40) abb

theorem inv_inputLargest : Inv inputLargest := inv_of_check (by decide +kernel)

/-- The same as a stream to decode whose one fault is a frequency of 2^32 (R182). -/
def inputBeyondCounter : State :=
  inputCap (2 ^ 40) (dec 97 ++ [0x20#8] ++ dec (2 ^ 32))

theorem inv_inputBeyondCounter : Inv inputBeyondCounter := inv_of_check (by decide +kernel)

theorem witness_OutputLength :
    2 ≤ (present (countBytes abb)).length ∧ (present (countBytes [97#8])).length ≤ 1
      ∧ (inputCap 12 abb).ibuf = abb ∧ status (exec .encode (inputCap 12 abb)) = some 5#8
      ∧ status (exec .encode (inputCap 13 abb)) = some 0#8 ∧ abb.length ≤ 2 ^ 32 - 1
      ∧ inputLargest.par.obufCap = 2 ^ 40 ∧ inputLargest.pack = false
      ∧ status (exec .encode inputLargest) = some 0#8
      ∧ status (exec .decode inputLargest) = some 3#8
      ∧ inputBeyondCounter.par.obufCap = 2 ^ 40
      ∧ status (exec .decode inputBeyondCounter) = some 5#8 := by decide +kernel

/-- With `W_FREQ = 5`: the header "97 31 98 31" and 62 body bits, in PACKED8 mode. -/
def packedBeyondCounter : State :=
  { State.reset with
    par := { State.reset.par with wFreq := 5, ibufCap := 31 }
    ibuf := createHeader (((Table.fill 0).set 97#8 31).set 98#8 31) ++ [0x0A#8]
      ++ List.replicate 8 0x00#8
    pack := true }

/-- By R165 the output is as long as the frequencies sum to, here 62, where the analogue of R7 clause f at
this width would be 31 (log 13). -/
theorem test_packed_output_beyond_counter :
    legalParams packedBeyondCounter.par = true
      ∧ packedBeyondCounter.ibuf.length ≤ packedBeyondCounter.par.ibufCap
      ∧ okData (exec .decode packedBeyondCounter) = some 62#64 := by decide +kernel

theorem witness_DegenerateInputs :
    (inputCap 1 []).ibuf = [] ∧ 1 ≤ (inputCap 1 []).par.obufCap
      ∧ State.reset.freq = Table.fill 0
      ∧ parseHeader 32 (headerLine [0x39#8, 0x37#8, 0x20#8, 0x30#8, 0x0A#8]) = .ok (Table.fill 0, 1)
      ∧ (inputCap 5 [97#8]).ibuf = List.replicate (0 + 1) 97#8
      ∧ (dec 97 ++ 0x20#8 :: dec (0 + 1) ++ [0x0A#8]).length ≤ (inputCap 5 [97#8]).par.obufCap := by
  decide +kernel

theorem witness_EncodeAndDecodeReadOnlyTheInput :
    (input abb).par = generated.par ∧ (input abb).pack = generated.pack
      ∧ status (exec .encode (input abb)) = some 0#8
      ∧ status (exec .encode { generated with ibuf := abb }) = some 0#8
      ∧ status (exec .decode (input abb)) = some 3#8
      ∧ status (exec .decode { generated with ibuf := abb }) = some 3#8 := by decide +kernel

theorem witness_InputSplitsAtFirstNewline :
    charNewline ∈ abbStream ∧ charNewline ∉ abb := by decide

theorem witness_DecodeShortCases :
    parseHeader 32 (headerLine (input [0x31#8]).ibuf) = .error .malformedHeader
      ∧ parseHeader 32 (headerLine (input [0x0A#8, 0x78#8]).ibuf) = .ok (Table.fill 0, 0)
      ∧ present (Table.fill 0) = []
      ∧ parseHeader 32 (headerLine [0x39#8, 0x37#8, 0x20#8, 0x35#8, 0x0A#8, 0x78#8])
        = .ok ((Table.fill 0).set 97#8 5, 1)
      ∧ present ((Table.fill 0).set 97#8 5) = [97#8]
      ∧ ((Table.fill 0).set 97#8 5).get 97#8 ≤ (inputCap 5 []).par.obufCap
      ∧ (inputCap 4 []).par.obufCap < ((Table.fill 0).set 97#8 5).get 97#8 := by decide +kernel

/-- "1" and half of "00" are left over; `MalformedBody` at the end and at a newline; one byte too many. -/
theorem witness_DecodeAsciiBody :
    parseHeader 32 (headerLine (headerAbc ++ [0x31#8])) = .ok (freqAbc, 3)
      ∧ 2 ≤ (present freqAbc).length ∧ (input headerAbc).pack = false ∧ 98#8 ∈ present freqAbc
      ∧ bodyPart (headerAbc ++ [0x31#8])
        = ([98#8].flatMap fun x => codeBits ((codesOf freqAbc).get x)).map bitChar
      ∧ PartOfCode freqAbc [false] ∧ [false] ≠ []
      ∧ bodyPart (headerAbc ++ [0x31#8, 0x30#8])
        = (([98#8].flatMap fun x => codeBits ((codesOf freqAbc).get x)) ++ [false]).map bitChar
      ∧ PartOfCode freqAbc []
      ∧ bodyPart (headerAbc ++ [0x31#8, 0x0A#8])
        = (([98#8].flatMap fun x => codeBits ((codesOf freqAbc).get x)) ++ []).map bitChar
          ++ 0x0A#8 :: []
      ∧ [98#8, 98#8].length = (inputCap 1 []).par.obufCap + 1
      ∧ bodyPart (headerAbc ++ [0x31#8, 0x31#8, 0x78#8])
        = ([98#8, 98#8].flatMap fun x => codeBits ((codesOf freqAbc).get x)).map bitChar
          ++ [0x78#8] :=
  ⟨by decide +kernel, by decide +kernel, rfl, by decide +kernel, by decide +kernel,
    ⟨97#8, by decide +kernel, by decide +kernel, by decide +kernel⟩, by decide, by decide +kernel,
    ⟨98#8, by decide +kernel, by decide +kernel, by decide +kernel⟩, by decide +kernel, by decide,
    by decide +kernel⟩

/-- The frequencies 97:1, 98:2: three bits are the whole body; two leave one byte short. -/
theorem witness_DecodePackedBody :
    parseHeader 32 (headerLine (abbStream.take 10 ++ [0x7F#8])) = .ok (freqAbb, 2)
      ∧ 2 ≤ (present freqAbb).length ∧ (packedInput []).pack = true
      ∧ ((abb.flatMap fun x => codeBits ((codesOf freqAbb).get x)).isPrefixOf
        ((bodyPart (abbStream.take 10 ++ [0x7F#8])).flatMap msbFirst)) = true
      ∧ abb.length = freqAbb.cells.sum
      ∧ PartOfCode freqAbb []
      ∧ (bodyPart (abbStream.take 10)).flatMap msbFirst
        = ([].flatMap fun x => codeBits ((codesOf freqAbb).get x)) ++ []
      ∧ ([] : List Byte).length < freqAbb.cells.sum
      ∧ abb.length = (inputCap 2 []).par.obufCap + 1
      ∧ abb.length ≤ freqAbb.cells.sum :=
  ⟨by decide +kernel, by decide +kernel, rfl, by decide +kernel, by decide +kernel,
    ⟨97#8, by decide +kernel, by decide +kernel, by decide +kernel⟩, by decide +kernel,
    by decide +kernel, by decide, by decide +kernel⟩

theorem witness_RoundTrip :
    legalParams (input abb).par = true ∧ (input abbStream).par = (input abb).par
      ∧ (input abbStream).pack = (input abb).pack
      ∧ (input abb).ibuf.length ≤ (input abb).par.ibufCap
      ∧ (input abb).ibuf.length ≤ (input abb).par.obufCap
      ∧ (encodedStream (input abb).pack (input abb).ibuf).length ≤ (input abb).par.obufCap
      ∧ (encodedStream (input abb).pack (input abb).ibuf).length ≤ (input abb).par.ibufCap
      ∧ (input abbStream).ibuf = encodedStream (input abb).pack (input abb).ibuf := by
  decide +kernel

theorem witness_UnitSequencersAgree : Inv generated := inv_generated

theorem witness_HeaderSequencersAgree : 8 ≤ (State.resetWith ⟨8, 0, 1, true⟩).par.wFreq := by decide

theorem witness_DecodeSequencerAgrees : 8 ≤ State.reset.par.wFreq := by decide

end Sys2Proof.Tests
end

section
/-! SUPPORT. What a command can answer, once for all thirty: success through `respond`, or a failure
through `raise` in the command's own class (60_exceptions.md R200, R203, R212). -/

namespace Sys2Proof.Machine

/-- `o` is a success, or a failure of class `c` of a command that found the block in state `s`. -/
def Answered (c : FailClass) (s : State) (o : Result) : Prop :=
  (∃ d t, o = respond d t) ∨ ∃ k, o = raise c k s

theorem Answered.respond {c : FailClass} {s : State} {d : Word} {t : State} :
    Answered c s (respond d t) := .inl ⟨d, t, rfl⟩

theorem Answered.raise {c : FailClass} {s : State} {k : Kind} : Answered c s (raise c k s) :=
  .inr ⟨k, rfl⟩

/-- A check that raises, before what is answered when it passes. -/
theorem Answered.guard {c : FailClass} {s : State} {p : Prop} {hp : Decidable p} {k : Kind}
    {o : Result} (h : Answered c s o) :
    Answered c s (if p then Machine.raise c k s else o) := by
  split
  · exact Answered.raise
  · exact h

/-- Every command succeeds, or fails in its class. -/
theorem exec_answered (i : Instr) (s : State) : Answered (failClass i) s (exec i s) := by
  cases i with
  | clear | ibReset | fqClear | fqCount | pqClear | pqSize | tbBuild | cgGen => exact .respond
  | csrRead | obGet | fqRead | ndRead | pqPeekAt | pqRemoveAt | pqContains | ctLen | hdCreate =>
    exact .guard .respond
  | ibPut | fqWrite | ndKids | ndEq | pqInsert | ctBits => exact .guard (.guard .respond)
  | csrWrite | ndLeaf => exact .guard (.guard (.guard .respond))
  | ndMerge => exact .guard (.guard (.guard (.guard .respond)))
  | pqRemoveVal a =>
    refine .guard ?_
    cases pqFind s.nodes a s.pq with
    | none => exact .raise
    | some => exact .respond
  | hdParse =>
    simp only [exec, execHdParse]
    cases parseHeader s.par.wFreq s.ibuf with
    | error => exact .raise
    | ok => exact .respond
  | encode =>
    simp only [exec, execEncode]
    cases encodeRun s with
    | error => exact .raise
    | ok => exact .respond
  | decode =>
    simp only [exec, execDecode]
    cases decodeRun s with
    | error => exact .raise
    | ok => exact .respond

/-- A next state with one response, of a status of R201; a failure's data is 0 (R77). -/
def OffersResponse (o : Result) : Prop :=
  ∃ t r, o = .next t ∧ t.rsp = some r ∧ r.status.toNat ≤ 7 ∧ (r.status ≠ 0#8 → r.data = 0#64)

theorem respond_offersResponse (d : Word) (s : State) : OffersResponse (respond d s) :=
  ⟨s.ok d, ⟨0#8, d⟩, rfl, rfl, Nat.zero_le 7, fun h => absurd rfl h⟩

theorem raise_offersResponse (c : FailClass) (k : Kind) (s : State) :
    OffersResponse (raise c k s) :=
  ⟨_, ⟨k.code, 0#64⟩, rfl, rfl, k.code_le, fun _ => rfl⟩

theorem exec_offersResponse (i : Instr) (s : State) : OffersResponse (exec i s) := by
  obtain ⟨d, t, h⟩ | ⟨k, h⟩ := exec_answered i s
  · exact h ▸ respond_offersResponse d t
  · exact h ▸ raise_offersResponse _ k s

theorem runWord_offersResponse (w : Word) (s : State) : OffersResponse (runWord w s) := by
  obtain ⟨i, -, h⟩ | ⟨-, h⟩ := runWord_cases w s
  · exact h ▸ exec_offersResponse i s
  · exact h ▸ raise_offersResponse .primitive .illegalCommand s

/-- Settles O12: a command answers through `respond` or `raise`, and a word is a command or
illegal. -/
theorem everyCommandAnswersOnce : Obligations.EveryCommandAnswersOnce :=
  ⟨exec_offersResponse, runWord_offersResponse⟩

end Sys2Proof.Machine
end

section
/-! SUPPORT. When a step gives a next state: the legal ranges of 00_scope.md R6 as a proposition, and
no edge without one (60_exceptions.md R212). -/

namespace Sys2Proof.Machine

theorem legalParams_iff (p : Params) :
    legalParams p = true ↔ 1 ≤ p.wFreq ∧ p.wFreq ≤ 32 ∧ p.ibufCap ≤ 2 ^ p.wFreq - 1
      ∧ 1 ≤ p.obufCap ∧ p.obufCap ≤ 2 ^ 40 := by
  simp only [legalParams, Bool.and_eq_true, decide_eq_true_eq, and_assoc]

theorem step_illegal {s : State} (h : ¬ legalParams s.par = true) :
    step s = .refused .illegalParameters := by
  simp [step, h]

theorem edge_next (p : PortIn) (s : State) : ∃ t, edge p s = .next t := by
  unfold edge
  split
  · exact ⟨_, rfl⟩
  · split
    · split <;> exact ⟨_, rfl⟩
    · split
      · obtain ⟨t, _, h, _⟩ := runWord_offersResponse p.cmdWord s
        exact ⟨t, h⟩
      · exact ⟨_, rfl⟩

theorem nextEdge_next (s : State) : ∃ t, nextEdge s = .next t := by
  unfold nextEdge
  split
  · exact ⟨_, rfl⟩
  · exact edge_next _ _

/-- Settles O11: the check of `step` is R6, and an edge always gives a next state. -/
theorem onlyIllegalParametersAreRefused : Obligations.OnlyIllegalParametersAreRefused := by
  intro s
  rw [← legalParams_iff]
  exact ⟨fun h => step_legal h ▸ nextEdge_next s, step_illegal⟩

end Sys2Proof.Machine
end

section
/-! SUPPORT. Decimal numbers (00_scope.md R11): the recursion of `Dec` without its fuel, and of
`DecVal` from the right. -/

namespace Sys2Proof.Machine

theorem digitChar_toNat {d : Nat} (h : d < 10) : (digitChar d).toNat = 0x30 + d := by
  simp only [digitChar, BitVec.toNat_ofNat]
  omega

theorem isDigit_digitChar {d : Nat} (h : d < 10) : isDigit (digitChar d) = true := by
  simp only [isDigit, digitChar_toNat h, Bool.and_eq_true, decide_eq_true_eq]
  omega

theorem digitChar_ne_zero {d : Nat} (h : d < 10) (h0 : d ≠ 0) : digitChar d ≠ 0x30#8 := by
  intro he
  have hnat := congrArg BitVec.toNat he
  rw [digitChar_toNat h, BitVec.toNat_ofNat] at hnat
  omega

/-- The digits are put before the tail, which they do not depend on; any fuel above the number
gives the same digits. -/
theorem decDigits_eq_append {fuel fuel' n : Nat} (h : n < fuel) (h' : n < fuel')
    (tail : List Byte) : decDigits fuel n tail = decDigits fuel' n [] ++ tail := by
  induction n using Nat.strongRecOn generalizing fuel fuel' tail with
  | ind n ih =>
    obtain ⟨f, rfl⟩ := Nat.exists_eq_add_one_of_ne_zero (Nat.ne_zero_of_lt h)
    obtain ⟨f', rfl⟩ := Nat.exists_eq_add_one_of_ne_zero (Nat.ne_zero_of_lt h')
    by_cases hn : n < 10
    · simp [decDigits, hn]
    · have hd : n / 10 < n := by omega
      simp only [decDigits, hn, if_false]
      rw [ih _ hd (by omega) (Nat.lt_succ_self _), ih _ hd (by omega) (Nat.lt_succ_self _) [_],
        List.append_assoc, List.singleton_append]

/-- `Dec` of one digit. -/
theorem dec_of_lt {n : Nat} (h : n < 10) : dec n = [digitChar n] := by
  simp [dec, decDigits, h]

/-- `Dec` of a longer number: its last digit after those before. -/
theorem dec_of_le {n : Nat} (h : 10 ≤ n) : dec n = dec (n / 10) ++ [digitChar (n % 10)] := by
  rw [dec, decDigits, if_neg (Nat.not_lt.mpr h)]
  exact decDigits_eq_append (by omega) (Nat.lt_succ_self _) _

theorem dec_ne_nil (n : Nat) : dec n ≠ [] := by
  rcases Nat.lt_or_ge n 10 with h | h
  · simp [dec_of_lt h]
  · simp [dec_of_le h]

/-- Every byte of `Dec(n)` is a digit. -/
theorem isDigit_of_mem_dec {n : Nat} {c : Byte} (hc : c ∈ dec n) : isDigit c = true := by
  induction n using Nat.strongRecOn with
  | ind n ih =>
    rcases Nat.lt_or_ge n 10 with h | h
    · rw [dec_of_lt h, List.mem_singleton] at hc
      exact hc ▸ isDigit_digitChar h
    · rw [dec_of_le h, List.mem_append, List.mem_singleton] at hc
      rcases hc with hc | rfl
      · exact ih _ (by omega) hc
      · exact isDigit_digitChar (Nat.mod_lt _ (by decide))

/-- No leading zero. -/
theorem dec_head_ne_zero {n : Nat} (h0 : n ≠ 0) : (dec n).head? ≠ some 0x30#8 := by
  induction n using Nat.strongRecOn with
  | ind n ih =>
    rcases Nat.lt_or_ge n 10 with h | h
    · simpa [dec_of_lt h] using digitChar_ne_zero h h0
    · rw [dec_of_le h, List.head?_append_of_ne_nil _ (dec_ne_nil _)]
      exact ih _ (by omega) (by omega)

theorem decVal_append_digit (t : List Byte) {d : Nat} (h : d < 10) :
    decVal (t ++ [digitChar d]) = 10 * decVal t + d := by
  simp only [decVal, List.foldl_append, List.foldl_cons, List.foldl_nil, decStep,
    digitChar_toNat h]
  omega

/-- `DecVal` is the inverse of `Dec`. -/
theorem decVal_dec (n : Nat) : decVal (dec n) = n := by
  induction n using Nat.strongRecOn with
  | ind n ih =>
    rcases Nat.lt_or_ge n 10 with h | h
    · rw [dec_of_lt h, ← List.nil_append [_], decVal_append_digit [] h]
      simp [decVal]
    · rw [dec_of_le h, decVal_append_digit _ (Nat.mod_lt _ (by decide)), ih _ (by omega)]
      omega

/-- Leading zeros do not count. -/
theorem decVal_zero_cons (t : List Byte) : decVal (0x30#8 :: t) = decVal t := rfl

/-- Settles O41, by induction on the number, its last digit taken off. -/
theorem decimalSpelling : Obligations.DecimalSpelling :=
  ⟨dec_of_lt (by decide),
    fun n => ⟨decVal_dec n, fun _ => isDigit_of_mem_dec, dec_ne_nil n⟩,
    fun _ => dec_head_ne_zero, decVal_zero_cons, fun t _ => decVal_append_digit t⟩

end Sys2Proof.Machine
end

section
/-! SUPPORT. Frequency tables (10_state.md R26): the sum of the counters, its bound, and the order of
the present bytes. -/

namespace Sys2Proof.Machine

theorem Table.cells_eq_map_symbols {α : Type} (t : Table α) : t.cells = symbols.map t.get := by
  have h : t.entries.map Prod.snd = t.cells :=
    List.map_snd_zip (by rw [symbols_length, t.full])
  rw [← h, Table.entries_eq, List.map_map]
  rfl

/-- Counters of absent bytes add nothing. -/
theorem sum_present (freq : Table Nat) : ((present freq).map freq.get).sum = freq.cells.sum := by
  rw [present_eq_filter, Table.cells_eq_map_symbols]
  induction symbols with
  | nil => rfl
  | cons v vs ih =>
    by_cases h : freq.get v = 0 <;> simp [h, ih]

/-- 256 counters of `w` bits have a sum of `w + 8` bits (00_scope.md R7 clause d). -/
theorem sum_cells_lt {freq : Table Nat} {w : Nat} (h : ∀ v, freq.get v < 2 ^ w) :
    freq.cells.sum < 2 ^ (w + 8) := by
  have hle : ∀ x ∈ freq.cells, x ≤ 2 ^ w - 1 := by
    intro x hx
    rw [Table.cells_eq_map_symbols, List.mem_map] at hx
    obtain ⟨v, -, rfl⟩ := hx
    exact Nat.le_sub_one_of_lt (h v)
  have hsum : freq.cells.sum ≤ 256 * (2 ^ w - 1) := by
    simpa [freq.full] using List.sum_le_card_nsmul freq.cells (2 ^ w - 1) hle
  have hpos : 0 < 2 ^ w := Nat.two_pow_pos w
  rw [Nat.pow_add]
  omega

theorem symbols_sorted : symbols.Pairwise fun u v => u.toNat < v.toNat := by
  rw [symbols, List.pairwise_map]
  refine List.pairwise_lt_range.imp_of_mem fun {a b} ha hb hab => ?_
  rw [List.mem_range] at ha hb
  rwa [BitVec.toNat_ofNat, BitVec.toNat_ofNat, Nat.mod_eq_of_lt ha, Nat.mod_eq_of_lt hb]

theorem present_sorted (freq : Table Nat) :
    (present freq).Pairwise fun u v => u.toNat < v.toNat := by
  rw [present_eq_filter]
  exact symbols_sorted.filter _

/-- The first present byte is the smallest one. -/
theorem present_head?_eq {freq : Table Nat} {v : Byte} (hv : v ∈ present freq)
    (hmin : ∀ u ∈ present freq, v.toNat ≤ u.toNat) : (present freq).head? = some v := by
  have hs := present_sorted freq
  cases hp : present freq with
  | nil => simp [hp] at hv
  | cons u us =>
    rw [hp] at hv hmin hs
    rcases List.mem_cons.mp hv with rfl | hmem
    · rfl
    · have hlt := List.rel_of_pairwise_cons hs hmem
      have hle := hmin u List.mem_cons_self
      omega

end Sys2Proof.Machine
end

section
/-! SUPPORT. The forest of a build (41_tree_builder.md R116): what one allocation with its insertion
does, what the leaf scan leaves, and the induction over the merge loop. -/

namespace Sys2Proof.Machine

@[simp] theorem alloc_length (nodes : List Node) (n : Node) :
    (alloc nodes n).length = nodes.length + 1 := by
  simp [alloc]

@[simp] theorem nodeAt_alloc_self (nodes : List Node) (n : Node) :
    nodeAt (alloc nodes n) nodes.length = n := by
  simp [nodeAt, alloc]

theorem nodeAt_alloc_lt {nodes : List Node} {p : Nat} (h : p < nodes.length) (n : Node) :
    nodeAt (alloc nodes n) p = nodeAt nodes p := nodeAt_append_lt h [n]

theorem nodeAt_mem {nodes : List Node} {p : Nat} (h : p < nodes.length) :
    nodeAt nodes p ∈ nodes := by
  rw [nodeAt_lt h]
  exact List.getElem_mem h

/-- An internal record is in an allocated slot. -/
theorem lt_length_of_kids {nodes : List Node} {p : Nat} {lr : Nat × Nat}
    (h : (nodeAt nodes p).kids = some lr) : p < nodes.length := by
  by_contra hge
  rw [nodeAt, List.getD_eq_default _ _ (Nat.le_of_not_lt hge)] at h
  cases h

/-- Every element of the sequence is an allocated node. -/
def Forest.Allocated (f : Forest) : Prop := ∀ p ∈ f.pq, p < f.nodes.length

/-- The records the sequence points to, in its order. -/
def Forest.held (f : Forest) : List Node := f.pq.map (nodeAt f.nodes)

/-- Allocate a record, then insert its pointer: what a leaf and a merged node have in common. -/
def Forest.push (n : Node) (f : Forest) : Forest :=
  ⟨alloc f.nodes n, pqInsert (alloc f.nodes n) f.nodes.length f.pq⟩

theorem addLeaf_eq_push (v : Byte) (w : Nat) (f : Forest) : f.addLeaf v w = f.push (leafNode v w) :=
  rfl

theorem addMerged_eq_push (l r : Nat) (f : Forest) :
    f.addMerged l r = f.push (mergedNode f.nodes l r) := rfl

@[simp] theorem push_nodes (n : Node) (f : Forest) : (f.push n).nodes = alloc f.nodes n := rfl

theorem push_pq_perm (n : Node) (f : Forest) : (f.push n).pq.Perm (f.nodes.length :: f.pq) :=
  pqInsert_perm ..

theorem push_allocated {f : Forest} (h : f.Allocated) (n : Node) : (f.push n).Allocated := by
  intro p hp
  rw [push_nodes, alloc_length]
  rcases List.mem_cons.mp ((push_pq_perm n f).mem_iff.mp hp) with rfl | hp
  · exact Nat.lt_succ_self _
  · exact Nat.lt_succ_of_lt (h p hp)

/-- The new record joins those the sequence points to, and they stay as they were. -/
theorem push_held_perm {f : Forest} (h : f.Allocated) (n : Node) :
    (f.push n).held.Perm (n :: f.held) := by
  have hold : f.pq.map (nodeAt (alloc f.nodes n)) = f.held :=
    List.map_congr_left fun p hp => nodeAt_alloc_lt (h p hp) n
  have hperm := (push_pq_perm n f).map (nodeAt (alloc f.nodes n))
  rwa [List.map_cons, nodeAt_alloc_self, hold] at hperm

/-- Add a leaf of weight `g v` for each byte `v` of a list, in its order. -/
def Forest.addLeaves (g : Byte → Nat) (vs : List Byte) (f : Forest) : Forest :=
  vs.foldl (fun f v => f.addLeaf v (g v)) f

@[simp] theorem addLeaves_nil (g : Byte → Nat) (f : Forest) : f.addLeaves g [] = f := rfl

@[simp] theorem addLeaves_cons (g : Byte → Nat) (v : Byte) (vs : List Byte) (f : Forest) :
    f.addLeaves g (v :: vs) = (f.addLeaf v (g v)).addLeaves g vs := rfl

theorem foldl_scanLeaf (freq : Table Nat) (vs : List Byte) (f : Forest) :
    (vs.map fun v => (v, freq.get v)).foldl scanLeaf f
      = f.addLeaves freq.get (vs.filter fun v => freq.get v != 0) := by
  induction vs generalizing f with
  | nil => rfl
  | cons v vs ih =>
    by_cases h : freq.get v = 0
    · simpa [scanLeaf, h] using ih f
    · simpa [scanLeaf, h] using ih (f.addLeaf v (freq.get v))

/-- The leaf scan adds a leaf for each present byte, in ascending order. -/
theorem leafScan_eq_addLeaves (freq : Table Nat) :
    leafScan freq = Forest.addLeaves freq.get (present freq) ⟨[], []⟩ := by
  rw [leafScan, Table.entries_eq, foldl_scanLeaf, present_eq_filter]

theorem addLeaves_nodes (g : Byte → Nat) (vs : List Byte) (f : Forest) :
    (f.addLeaves g vs).nodes = f.nodes ++ vs.map fun v => leafNode v (g v) := by
  induction vs generalizing f with
  | nil => simp
  | cons v vs ih => simpa [addLeaf_eq_push, alloc] using ih (f.addLeaf v (g v))

/-- When every allocated slot is in the sequence, so it is after more leaves. -/
theorem addLeaves_pq_perm (g : Byte → Nat) (vs : List Byte) {f : Forest}
    (h : f.pq.Perm (List.range f.nodes.length)) :
    (f.addLeaves g vs).pq.Perm (List.range (f.nodes.length + vs.length)) := by
  induction vs generalizing f with
  | nil => exact h
  | cons v vs ih =>
    have hleaf : (f.addLeaf v (g v)).pq.Perm (List.range (f.nodes.length + 1)) := by
      rw [List.range_succ]
      exact (push_pq_perm _ f).trans ((h.cons _).trans (List.perm_append_singleton ..).symm)
    have hlen := (addLeaf_lengths v (g v) f).1
    rw [← hlen] at hleaf
    rw [List.length_cons, Nat.add_comm vs.length, ← Nat.add_assoc, ← hlen]
    exact ih hleaf

/-- The leaves take the first slots, in ascending byte value (R116). -/
theorem leafScan_nodes (freq : Table Nat) :
    (leafScan freq).nodes = (present freq).map fun v => leafNode v (freq.get v) := by
  rw [leafScan_eq_addLeaves, addLeaves_nodes, List.nil_append]

/-- The leaf scan leaves every leaf in the sequence. -/
theorem leafScan_pq_perm (freq : Table Nat) :
    (leafScan freq).pq.Perm (List.range (present freq).length) := by
  rw [leafScan_eq_addLeaves, ← Nat.zero_add (present freq).length]
  exact addLeaves_pq_perm freq.get (present freq) (List.Perm.refl _)

theorem leafScan_pq_length (freq : Table Nat) :
    (leafScan freq).pq.length = (present freq).length := by
  rw [(leafScan_pq_perm freq).length_eq, List.length_range]

theorem leafScan_nodes_length (freq : Table Nat) :
    (leafScan freq).nodes.length = (present freq).length := by
  rw [leafScan_nodes, List.length_map]

theorem leafScan_allocated (freq : Table Nat) : (leafScan freq).Allocated := by
  intro p hp
  rw [leafScan_nodes_length]
  exact List.mem_range.mp ((leafScan_pq_perm freq).mem_iff.mp hp)

/-- After the leaf scan the sequence points to the leaves. -/
theorem leafScan_held_perm (freq : Table Nat) :
    (leafScan freq).held.Perm ((present freq).map fun v => leafNode v (freq.get v)) := by
  have hall : (List.range (present freq).length).map (nodeAt (leafScan freq).nodes)
      = (leafScan freq).nodes := by
    refine List.ext_getElem (by simp [leafScan_nodes_length]) fun i _ h => ?_
    simp [nodeAt_lt h]
  rw [← leafScan_nodes, ← hall]
  exact (leafScan_pq_perm freq).map _

/-- What every turn of the merge loop keeps, the loop keeps. -/
theorem mergeLoop_induction {P : Forest → Prop}
    (hturn : ∀ nodes l r rest, P ⟨nodes, l :: r :: rest⟩ → P (Forest.addMerged l r ⟨nodes, rest⟩))
    (turns : Nat) {f : Forest} (h : P f) : P (mergeLoop turns f) := by
  induction turns generalizing f with
  | zero => exact h
  | succ turns ih =>
    unfold mergeLoop
    split
    · next l r rest hpq =>
      refine ih (hturn f.nodes l r rest ?_)
      rw [← hpq]
      exact h
    · exact h

theorem builtForest_induction {P : Forest → Prop} {freq : Table Nat} (h : P (leafScan freq))
    (hturn : ∀ nodes l r rest, P ⟨nodes, l :: r :: rest⟩ → P (Forest.addMerged l r ⟨nodes, rest⟩)) :
    P (builtForest freq) :=
  mergeLoop_induction hturn _ h

/-- A build of `L` leaves allocates `2 L - 1` nodes and leaves one of them in the sequence, none when
`L` is 0 (R115). -/
theorem builtForest_lengths (freq : Table Nat) :
    (builtForest freq).pq.length = min 1 (present freq).length
      ∧ (builtNodes freq).length = 2 * (present freq).length - 1 := by
  obtain ⟨hpq, hnodes⟩ := mergeLoop_lengths _ (leafScan freq) (Nat.le_refl _)
  rw [leafScan_pq_length] at hpq
  rw [leafScan_nodes_length, leafScan_pq_length] at hnodes
  rw [builtNodes, builtForest, leafScan_pq_length, hpq, hnodes]
  exact ⟨rfl, by omega⟩

/-- The root is the only element the merge loop leaves in the sequence. -/
theorem builtForest_pq {freq : Table Nat} {r : Nat} (h : builtRoot freq = some r) :
    (builtForest freq).pq = [r] := by
  have hlen := (builtForest_lengths freq).1
  unfold builtRoot at h
  match hpq : (builtForest freq).pq with
  | [] => simp [hpq] at h
  | [q] => simpa [hpq] using h
  | _ :: _ :: _ =>
    rw [hpq, List.length_cons, List.length_cons] at hlen
    omega

end Sys2Proof.Machine
end

section
/-! SUPPORT. What every forest of a build keeps (00_scope.md R7, 41_tree_builder.md R105): the
sequence carries the whole frequency table, no record weighs more than its sum, and an internal
record is above the leaves and above its children. -/

namespace Sys2Proof.Machine

/-- The weights add up to the sum of all frequencies, every value is a present byte, and every
present byte has a value at most as great. -/
structure Carries (freq : Table Nat) (ns : List Node) : Prop where
  weight_sum : (ns.map Node.weight).sum = freq.cells.sum
  value_mem : ∀ n ∈ ns, n.value ∈ present freq
  covers : ∀ v ∈ present freq, ∃ n ∈ ns, n.value.toNat ≤ v.toNat

theorem Carries.perm {freq : Table Nat} {ns ns' : List Node} (h : Carries freq ns)
    (hp : ns'.Perm ns) : Carries freq ns' where
  weight_sum := (hp.map Node.weight).sum_eq.trans h.weight_sum
  value_mem n hn := h.value_mem n (hp.mem_iff.mp hn)
  covers v hv := by
    obtain ⟨n, hn, hle⟩ := h.covers v hv
    exact ⟨n, hp.mem_iff.mpr hn, hle⟩

theorem carries_leaves (freq : Table Nat) :
    Carries freq ((present freq).map fun v => leafNode v (freq.get v)) where
  weight_sum := by
    rw [List.map_map]
    exact sum_present freq
  value_mem n hn := by
    obtain ⟨v, hv, rfl⟩ := List.mem_map.mp hn
    exact hv
  covers v hv := ⟨_, List.mem_map_of_mem hv, Nat.le_refl _⟩

theorem minByte_eq_or (x y : Byte) : minByte x y = x ∨ minByte x y = y := by
  unfold minByte
  split
  · exact .inl rfl
  · exact .inr rfl

/-- Two records give way to one with the sum of their weights and the minimum of their values. -/
theorem Carries.merge {freq : Table Nat} {a b n : Node} {ns : List Node}
    (h : Carries freq (a :: b :: ns)) (hw : n.weight = a.weight + b.weight)
    (hv : n.value = minByte a.value b.value) : Carries freq (n :: ns) where
  weight_sum := by
    rw [← h.weight_sum]
    simp [hw, Nat.add_assoc]
  value_mem m hm := by
    rcases List.mem_cons.mp hm with rfl | hm
    · rcases minByte_eq_or a.value b.value with he | he
      · exact hv.trans he ▸ h.value_mem a (by simp)
      · exact hv.trans he ▸ h.value_mem b (by simp)
    · exact h.value_mem m (by simp [hm])
  covers v hvp := by
    have hmin : n.value.toNat = min a.value.toNat b.value.toNat := hv ▸ minByte_toNat ..
    obtain ⟨m, hm, hle⟩ := h.covers v hvp
    rcases List.mem_cons.mp hm with rfl | hm
    · exact ⟨n, by simp, by omega⟩
    · rcases List.mem_cons.mp hm with rfl | hm
      · exact ⟨n, by simp, by omega⟩
      · exact ⟨m, by simp [hm], hle⟩

/-- An internal record is not below slot `low` and above both its children. -/
def InternalAbove (low : Nat) (nodes : List Node) : Prop :=
  ∀ p l r, (nodeAt nodes p).kids = some (l, r) → low ≤ p ∧ l < p ∧ r < p

/-- A path down from `p` passes through internal records at ever lower slots, all at or above
`low`. -/
theorem descend_length_le {low : Nat} {nodes : List Node} (h : InternalAbove low nodes)
    {path : List Bool} {p q : Nat} (hd : descend nodes p path = some q) :
    path.length ≤ p + 1 - low := by
  induction path generalizing p with
  | nil => exact Nat.zero_le _
  | cons b rest ih =>
    unfold descend at hd
    split at hd
    · cases hd
    · next l r hk =>
      obtain ⟨hlow, hl, hr⟩ := h p l r hk
      have hchild : (if b then r else l) < p := by split <;> assumption
      have := ih hd
      rw [List.length_cons]
      omega

/-- What every forest of the build for `freq` keeps. -/
structure Forest.BuildInv (freq : Table Nat) (f : Forest) : Prop where
  allocated : f.Allocated
  leaves_le : (present freq).length ≤ f.nodes.length
  weight_le : ∀ n ∈ f.nodes, n.weight ≤ freq.cells.sum
  internal : InternalAbove (present freq).length f.nodes
  carries : Carries freq f.held

theorem leafScan_buildInv (freq : Table Nat) : (leafScan freq).BuildInv freq where
  allocated := leafScan_allocated freq
  leaves_le := (leafScan_nodes_length freq).ge
  weight_le n hn := by
    rw [← (carries_leaves freq).weight_sum, ← leafScan_nodes]
    exact List.single_le_sum (fun _ _ => Nat.zero_le _) _ (List.mem_map_of_mem hn)
  internal p l r hk := by
    have hmem := nodeAt_mem (lt_length_of_kids hk)
    rw [leafScan_nodes] at hmem hk
    obtain ⟨v, -, hv⟩ := List.mem_map.mp hmem
    rw [← hv] at hk
    cases hk
  carries := (carries_leaves freq).perm (leafScan_held_perm freq)

/-- One turn of the merge loop keeps it all. -/
theorem addMerged_buildInv {freq : Table Nat} {nodes : List Node} {l r : Nat} {rest : List Nat}
    (h : Forest.BuildInv freq ⟨nodes, l :: r :: rest⟩) :
    (Forest.addMerged l r ⟨nodes, rest⟩).BuildInv freq := by
  have hl : l < nodes.length := h.allocated l (by simp)
  have hr : r < nodes.length := h.allocated r (by simp)
  have hrest : Forest.Allocated ⟨nodes, rest⟩ := fun p hp => h.allocated p (by simp [hp])
  have hcar : Carries freq (mergedNode nodes l r :: Forest.held ⟨nodes, rest⟩) :=
    Carries.merge h.carries rfl rfl
  rw [addMerged_eq_push]
  refine
    { allocated := push_allocated hrest _
      leaves_le := by simpa using Nat.le_succ_of_le h.leaves_le
      weight_le := fun n hn => ?_
      internal := fun p l' r' hk => ?_
      carries := hcar.perm (push_held_perm hrest _) }
  · rcases List.mem_append.mp hn with hn | hn
    · exact h.weight_le n hn
    · rw [List.mem_singleton.mp hn, ← hcar.weight_sum]
      exact List.single_le_sum (fun _ _ => Nat.zero_le _) _ (by simp)
  · have hp := lt_length_of_kids hk
    rw [push_nodes] at hk hp
    rw [alloc_length] at hp
    rcases Nat.lt_succ_iff_lt_or_eq.mp hp with hp | rfl
    · rw [nodeAt_alloc_lt hp] at hk
      exact h.internal p l' r' hk
    · rw [nodeAt_alloc_self] at hk
      cases hk
      exact ⟨h.leaves_le, hl, hr⟩

theorem builtForest_buildInv (freq : Table Nat) : (builtForest freq).BuildInv freq :=
  builtForest_induction (leafScan_buildInv freq) fun _ _ _ _ => addMerged_buildInv

theorem builtRoot_lt {freq : Table Nat} {r : Nat} (h : builtRoot freq = some r) :
    r < (builtNodes freq).length :=
  (builtForest_buildInv freq).allocated r (by simp [builtForest_pq h])

/-- The root carries the whole table (R105). -/
theorem carries_root {freq : Table Nat} {r : Nat} (h : builtRoot freq = some r) :
    Carries freq [nodeAt (builtNodes freq) r] := by
  have hc := (builtForest_buildInv freq).carries
  rwa [Forest.held, builtForest_pq h] at hc

theorem builtRoot_weight {freq : Table Nat} {r : Nat} (h : builtRoot freq = some r) :
    (nodeAt (builtNodes freq) r).weight = freq.cells.sum := by
  simpa using (carries_root h).weight_sum

theorem builtRoot_value {freq : Table Nat} {r : Nat} (h : builtRoot freq = some r) :
    (present freq).head? = some (nodeAt (builtNodes freq) r).value := by
  refine present_head?_eq ((carries_root h).value_mem _ (by simp)) fun u hu => ?_
  obtain ⟨n, hn, hle⟩ := (carries_root h).covers u hu
  rwa [List.mem_singleton.mp hn] at hle

/-- A path from the root is shorter than the number of leaves (00_scope.md R7 clause c). -/
theorem builtRoot_path_length {freq : Table Nat} {r q : Nat} {path : List Bool}
    (h : builtRoot freq = some r) (hd : descend (builtNodes freq) r path = some q) :
    path.length ≤ (present freq).length - 1 := by
  have hpath := descend_length_le (builtForest_buildInv freq).internal hd
  have hr := builtRoot_lt h
  rw [(builtForest_lengths freq).2] at hr
  omega

/-- Settles O37: the sequence and node memory by counting the leaves, the rest by the invariant of the
build. -/
theorem buildStaysWithinBounds : Obligations.BuildStaysWithinBounds := by
  intro freq w hw
  have hL : (present freq).length ≤ 256 := present_length_le freq
  refine ⟨leafScan_pq_length freq ▸ hL, ?_, fun n hn => ?_, fun r hr =>
    ⟨fun v path ⟨q, hq, _⟩ => ?_, builtRoot_weight hr, builtRoot_value hr⟩⟩
  · rw [(builtForest_lengths freq).2]
    omega
  · exact Nat.lt_of_le_of_lt ((builtForest_buildInv freq).weight_le n hn) (sum_cells_lt hw)
  · have := builtRoot_path_length hr hq
    omega

end Sys2Proof.Machine
end

section
/-! SUPPORT. What a successful command leaves, once for all thirty (each by its rule), and what any
command can leave: that, or the failure of its class (60_exceptions.md R203). -/

namespace Sys2Proof.Machine

/-- What a successful ENCODE leaves: the tables and the output, with the codes of the tree when it has
two or more leaves (43_encoder.md R146). -/
theorem encodeRun_cases {s t : State} (h : encodeRun s = .ok t) :
    ∃ out : List Byte, out.length ≤ s.par.obufCap ∧
      ((s.encodeTables.branched = true ∧ t = s.encodeTables.genCodes.setObuf out) ∨
        (s.encodeTables.branched = false ∧ t = s.encodeTables.setObuf out)) := by
  unfold encodeRun at h
  split at h
  · cases h
  · next out hput =>
    have hout := putAll_length_le hput (Nat.zero_le _)
    split at h
    · next hb =>
      split at h
      · cases h
      · next out' hbody =>
        cases h
        exact ⟨out', emitBody_length_le hbody hout, .inl ⟨hb, rfl⟩⟩
    · next hb =>
      cases h
      exact ⟨out, hout, .inr ⟨Bool.eq_false_iff.mpr hb, rfl⟩⟩

/-- What a successful DECODE leaves: the table of the header, its tree and the output
(44_decoder.md R162). -/
theorem decodeRun_cases {s t : State} (h : decodeRun s = .ok t) :
    ∃ freq pairs out, parseHeader s.par.wFreq (headerLine s.ibuf) = .ok (freq, pairs)
      ∧ out.length ≤ s.par.obufCap ∧ t = (s.setFreq freq).buildTree.setObuf out := by
  unfold decodeRun at h
  split at h
  · cases h
  · next freq pairs hparse =>
    split at h
    · cases h
    · next out hout =>
      cases h
      exact ⟨freq, pairs, out, hparse, decodeOutput_length_le hout, rfl⟩

/-- `Succeeds s i u`: command `i` succeeds in state `s` and leaves `u`, the response aside. A
constructor's hypotheses are the checks that passed. -/
inductive Succeeds (s : State) : Instr → State → Prop
  | read {i : Instr} (hread : isRead i = true) : Succeeds s i s
  | clear : Succeeds s .clear (s.wipeWork.setLastErr 0#8)
  | csrWrite {a b : Nat} (hpack : bit0 b = true → s.par.packSupported = true) :
      Succeeds s (.csrWrite a b) (s.setPack (bit0 b))
  | ibReset : Succeeds s .ibReset (s.setIbuf [])
  | ibPut {a : Nat} (hroom : s.ibuf.length ≠ s.par.ibufCap) :
      Succeeds s (.ibPut a) (s.setIbuf (s.ibuf ++ [byteOf a]))
  | fqClear : Succeeds s .fqClear (s.setFreq (Table.fill 0))
  | fqWrite {a b : Nat} (hcount : isCount b s) :
      Succeeds s (.fqWrite a b) (s.setFreq (s.freq.set (byteOf a) b))
  | fqCount : Succeeds s .fqCount s.countFrequencies
  | ndLeaf {a b : Nat} (hcount : isCount b s) (hroom : s.nodes.length ≠ nNode) :
      Succeeds s (.ndLeaf a b) (s.setNodes (alloc s.nodes (leafNode (byteOf a) b)))
  | ndMerge {a b : Nat} (ha : isNode a s) (hb : isNode b s) (hroom : s.nodes.length ≠ nNode)
      (hweight : (nodeAt s.nodes a).weight + (nodeAt s.nodes b).weight < 2 ^ wWeight s.par) :
      Succeeds s (.ndMerge a b) (s.setNodes (alloc s.nodes (mergedNode s.nodes a b)))
  | pqClear : Succeeds s .pqClear (s.setPq [])
  | pqInsert {a : Nat} (ha : isNode a s) (hroom : s.pq.length ≠ pqCap) :
      Succeeds s (.pqInsert a) (s.setPq (pqInsert s.nodes a s.pq))
  | pqRemoveAt {b : Nat} : Succeeds s (.pqRemoveAt b) (s.setPq (pqRemoveAt b s.pq))
  | pqRemoveVal {a k : Nat} : Succeeds s (.pqRemoveVal a) (s.setPq (pqRemoveAt k s.pq))
  | tbBuild : Succeeds s .tbBuild s.buildTree
  | cgGen : Succeeds s .cgGen s.genCodes
  | hdCreate (hfits : (createHeader s.freq).length ≤ s.par.obufCap) :
      Succeeds s .hdCreate (s.setObuf (createHeader s.freq))
  | hdParse {freq : Table Nat} {pairs : Nat}
      (hparse : parseHeader s.par.wFreq s.ibuf = .ok (freq, pairs)) :
      Succeeds s .hdParse (s.setFreq freq)
  | encodeBranched {out : List Byte} (hbranched : s.encodeTables.branched = true)
      (hfits : out.length ≤ s.par.obufCap) :
      Succeeds s .encode (s.encodeTables.genCodes.setObuf out)
  | encodeUnbranched {out : List Byte} (hbranched : s.encodeTables.branched = false)
      (hfits : out.length ≤ s.par.obufCap) :
      Succeeds s .encode (s.encodeTables.setObuf out)
  | decode {freq : Table Nat} {pairs : Nat} {out : List Byte}
      (hparse : parseHeader s.par.wFreq (headerLine s.ibuf) = .ok (freq, pairs))
      (hfits : out.length ≤ s.par.obufCap) :
      Succeeds s .decode ((s.setFreq freq).buildTree.setObuf out)

/-- `o` is the success of command `i` in state `s`, or a failure of its class. -/
def Follows (i : Instr) (s : State) (o : Result) : Prop :=
  (∃ d u, o = respond d u ∧ Succeeds s i u) ∨ ∃ k, o = raise (failClass i) k s

theorem Follows.respond {i : Instr} {s u : State} {d : Word} (h : Succeeds s i u) :
    Follows i s (respond d u) := .inl ⟨d, u, rfl, h⟩

theorem Follows.raise {i : Instr} {s : State} {k : Kind} :
    Follows i s (raise (failClass i) k s) := .inr ⟨k, rfl⟩

/-- A check that raises, before what follows when it passes. -/
theorem Follows.guard {i : Instr} {s : State} {p : Prop} {hp : Decidable p} {k : Kind} {o : Result}
    (h : ¬ p → Follows i s o) : Follows i s (if p then Machine.raise (failClass i) k s else o) := by
  split
  · exact .raise
  · exact h ‹_›

theorem exec_follows (i : Instr) (s : State) : Follows i s (exec i s) := by
  cases i with
  | clear => exact .respond .clear
  | ibReset => exact .respond .ibReset
  | fqClear => exact .respond .fqClear
  | fqCount => exact .respond .fqCount
  | pqClear => exact .respond .pqClear
  | tbBuild => exact .respond .tbBuild
  | cgGen => exact .respond .cgGen
  | pqSize => exact .respond (.read rfl)
  | csrRead | obGet | fqRead | ndRead | pqPeekAt | pqContains | ctLen =>
    exact .guard fun _ => .respond (.read rfl)
  | ndKids | ndEq | ctBits => exact .guard fun _ => .guard fun _ => .respond (.read rfl)
  | csrWrite a b =>
    exact .guard fun _ => .guard fun _ => .guard fun hpack =>
      .respond (.csrWrite fun hb => by simpa [hb] using hpack)
  | ibPut => exact .guard fun _ => .guard fun hroom => .respond (.ibPut hroom)
  | fqWrite => exact .guard fun _ => .guard fun hb => .respond (.fqWrite (not_not.mp hb))
  | ndLeaf =>
    exact .guard fun _ => .guard fun hb => .guard fun hroom =>
      .respond (.ndLeaf (not_not.mp hb) hroom)
  | ndMerge =>
    exact .guard fun ha => .guard fun hb => .guard fun hroom => .guard fun hw =>
      .respond (.ndMerge (not_not.mp ha) (not_not.mp hb) hroom (Nat.lt_of_not_le hw))
  | pqInsert =>
    exact .guard fun ha => .guard fun hroom => .respond (.pqInsert (not_not.mp ha) hroom)
  | pqRemoveAt => exact .guard fun _ => .respond .pqRemoveAt
  | pqRemoveVal a =>
    refine .guard fun _ => ?_
    cases pqFind s.nodes a s.pq with
    | none => exact .raise
    | some k => exact .respond .pqRemoveVal
  | hdCreate => exact .guard fun hfits => .respond (.hdCreate (Nat.le_of_not_lt hfits))
  | hdParse =>
    simp only [exec, execHdParse]
    cases hparse : parseHeader s.par.wFreq s.ibuf with
    | error => exact .raise
    | ok => exact .respond (.hdParse hparse)
  | encode =>
    simp only [exec, execEncode]
    cases hrun : encodeRun s with
    | error => exact .raise
    | ok t =>
      obtain ⟨out, hfits, ⟨hb, rfl⟩ | ⟨hb, rfl⟩⟩ := encodeRun_cases hrun
      · exact .respond (.encodeBranched hb hfits)
      · exact .respond (.encodeUnbranched hb hfits)
  | decode =>
    simp only [exec, execDecode]
    cases hrun : decodeRun s with
    | error => exact .raise
    | ok t =>
      obtain ⟨freq, pairs, out, hparse, hfits, rfl⟩ := decodeRun_cases hrun
      exact .respond (.decode hparse hfits)

theorem raise_eq_err (c : FailClass) (k : Kind) (s : State) :
    raise c k s = .next ((failEffect c s).err k.code) := rfl

/-- What a command leaves: its success with an `OK` response, or the failure of its class. -/
theorem exec_cases {i : Instr} {s t : State} (h : exec i s = .next t) :
    (∃ d u, Succeeds s i u ∧ t = u.ok d) ∨
      ∃ k : Kind, t = (failEffect (failClass i) s).err k.code := by
  obtain ⟨d, u, ho, hu⟩ | ⟨k, ho⟩ := exec_follows i s
  · rw [ho] at h
    cases h
    exact .inl ⟨d, u, hu, rfl⟩
  · rw [ho] at h
    cases h
    exact .inr ⟨k, rfl⟩

end Sys2Proof.Machine
end

section
/-! SUPPORT. The frame of every command (10_state.md R26 to R36): which pieces of state its success
and its failure leave as they were, and what happens to allocated node records (R27). -/

namespace Sys2Proof.Machine

/-- What a failure does beside `LASTERR`, command by command: nothing but in HD.CREATE, HD.PARSE,
ENCODE and DECODE (60_exceptions.md R203). -/
theorem failEffect_cases (i : Instr) (s : State) :
    failEffect (failClass i) s = s ∨
      (i = .hdCreate ∧ failEffect (failClass i) s = s.setObuf []) ∨
      (i = .hdParse ∧ failEffect (failClass i) s = s.setFreq (Table.fill 0)) ∨
      ((i = .encode ∨ i = .decode) ∧ failEffect (failClass i) s = s.wipeWork) := by
  cases i with
  | hdCreate => exact .inr (.inl ⟨rfl, rfl⟩)
  | hdParse => exact .inr (.inr (.inl ⟨rfl, rfl⟩))
  | encode => exact .inr (.inr (.inr ⟨.inl rfl, rfl⟩))
  | decode => exact .inr (.inr (.inr ⟨.inr rfl, rfl⟩))
  | _ => exact .inl rfl

/-- From `s` to `t`, every piece of state that command `i` is no writer of is as it was. -/
structure Framed (i : Instr) (s t : State) : Prop where
  par : t.par = s.par
  inputs : t.inputs = s.inputs
  freq : writesFreq i = false → t.freq = s.freq
  nodes : writesNodes i = false → t.nodes = s.nodes
  pq : writesPq i = false → t.pq = s.pq
  root : writesRoot i = false → t.root = s.root
  emptyFlag : writesRoot i = false → t.emptyFlag = s.emptyFlag
  code : writesCode i = false → t.code = s.code
  codesValid : writesCodesValid i = false → t.codesValid = s.codesValid
  ibuf : writesIbuf i = false → t.ibuf = s.ibuf
  obuf : writesObuf i = false → t.obuf = s.obuf
  pack : writesPack i = false → t.pack = s.pack

theorem Framed.refl (i : Instr) (s : State) : Framed i s s := by
  constructor <;> intros <;> rfl

theorem Framed.ok {i : Instr} {s t : State} (h : Framed i s t) (d : Word) : Framed i s (t.ok d) :=
  { h with }

theorem Framed.err {i : Instr} {s t : State} (h : Framed i s t) (c : BitVec 8) :
    Framed i s (t.err c) :=
  { h with }

theorem Succeeds.framed {i : Instr} {s u : State} (h : Succeeds s i u) : Framed i s u := by
  cases h with
  | read => exact .refl i s
  | _ =>
    constructor <;>
      simp [writesFreq, writesNodes, writesPq, writesRoot, writesCode, writesCodesValid, writesIbuf,
        writesObuf, writesPack, State.encodeTables, State.countFrequencies, State.buildTree,
        State.genCodes]

theorem failEffect_framed (i : Instr) (s : State) : Framed i s (failEffect (failClass i) s) := by
  obtain he | ⟨rfl, he⟩ | ⟨rfl, he⟩ | ⟨rfl | rfl, he⟩ := failEffect_cases i s <;> rw [he]
  case inl => exact .refl i s
  all_goals
    constructor <;>
      simp [writesFreq, writesNodes, writesPq, writesRoot, writesCode, writesCodesValid, writesIbuf,
        writesObuf, writesPack]

theorem exec_framed {i : Instr} {s t : State} (h : exec i s = .next t) : Framed i s t := by
  obtain ⟨d, u, hu, rfl⟩ | ⟨k, rfl⟩ := exec_cases h
  · exact hu.framed.ok d
  · exact (failEffect_framed i s).err k.code

/-- Only CLEAR writes `LASTERR` when it succeeds (R36). -/
theorem Succeeds.lastErr_eq {i : Instr} {s u : State} (h : Succeeds s i u) (hi : i ≠ .clear) :
    u.lastErr = s.lastErr := by
  cases h with
  | clear => exact absurd rfl hi
  | _ => rfl

theorem exec_lastErr_eq {i : Instr} {s t : State} {d : Word} (h : exec i s = .next t)
    (hi : i ≠ .clear) (hok : t.rsp = some ⟨0#8, d⟩) : t.lastErr = s.lastErr := by
  obtain ⟨_, u, hu, rfl⟩ | ⟨k, rfl⟩ := exec_cases h
  · exact hu.lastErr_eq hi
  · simp [k.code_ne_zero] at hok

/-- Settles O15: the frame of a success and of a failure, field by field. -/
theorem eachPieceOfStateHasItsWriters : Obligations.EachPieceOfStateHasItsWriters := by
  intro i s t h
  have hf := exec_framed h
  refine ⟨hf.par, hf.inputs, fun hw v => by rw [hf.freq hw], hf.nodes, hf.pq,
    fun hw => ⟨hf.root hw, hf.emptyFlag hw⟩, fun hw v => by rw [hf.code hw], hf.codesValid,
    fun hw => ?_, fun hw => ?_, hf.pack, fun hi _ => exec_lastErr_eq h hi⟩
  · rw [hf.ibuf hw]
    exact ⟨rfl, fun _ => rfl⟩
  · rw [hf.obuf hw]
    exact ⟨rfl, fun _ => rfl⟩

/-- Node memory is left as it was, or one record is allocated in it. -/
theorem Succeeds.nodes_eq_or_alloc {i : Instr} {s u : State} (h : Succeeds s i u)
    (hi : restartsNodes i = false) : u.nodes = s.nodes ∨ ∃ n, u.nodes = alloc s.nodes n := by
  cases h with
  | clear | tbBuild | encodeBranched | encodeUnbranched | decode => cases hi
  | ndLeaf | ndMerge => exact .inr ⟨_, rfl⟩
  | _ => exact .inl rfl

theorem failEffect_nodes {i : Instr} (s : State) (hi : restartsNodes i = false) :
    (failEffect (failClass i) s).nodes = s.nodes := by
  obtain he | ⟨-, he⟩ | ⟨-, he⟩ | ⟨rfl | rfl, -⟩ := failEffect_cases i s
  · rw [he]
  · rw [he, State.setObuf_nodes]
  · rw [he, State.setFreq_nodes]
  · cases hi
  · cases hi

theorem exec_nodes_eq_or_alloc {i : Instr} {s t : State} (h : exec i s = .next t)
    (hi : restartsNodes i = false) : t.nodes = s.nodes ∨ ∃ n, t.nodes = alloc s.nodes n := by
  obtain ⟨d, u, hu, rfl⟩ | ⟨k, rfl⟩ := exec_cases h
  · exact hu.nodes_eq_or_alloc hi
  · exact .inl (failEffect_nodes s hi)

/-- Settles O16: an allocated record keeps its slot and its contents when one more is allocated. -/
theorem nodeRecordsAreImmutable : Obligations.NodeRecordsAreImmutable := by
  intro i s t h hi
  obtain hn | ⟨n, hn⟩ := exec_nodes_eq_or_alloc h hi <;> rw [hn]
  · exact ⟨Nat.le_refl _, Nat.le_succ _, fun _ _ => rfl⟩
  · rw [alloc_length]
    exact ⟨Nat.le_succ _, Nat.le_refl _, fun p hp => nodeAt_alloc_lt hp n⟩

end Sys2Proof.Machine
end

section
/-! SUPPORT. Reset (10_state.md R39, 70_reset_and_hazards.md R220, R221): every way to the reset state,
and what the host reads in it. -/

namespace Sys2Proof.Machine

theorem atResetValues_resetWith (p : Params) : AtResetValues (State.resetWith p) := by
  simp [AtResetValues, CodeEntry.empty]

/-- The reset transition gives the reset values, whatever the block was doing. -/
theorem atResetValues_doReset (s : State) : AtResetValues s.doReset := atResetValues_resetWith s.par

/-- Reset gives the same values in the middle of a command (R221). -/
theorem Micro.atResetValues_doReset (m : Micro) : AtResetValues m.doReset.st :=
  atResetValues_resetWith m.st.par

theorem step_rst {s : State} {p : PortIn} {rest : List PortIn} (hl : legalParams s.par = true)
    (hin : s.inputs = p :: rest) (hrst : p.rst = true) :
    step s = .next (s.setInputs rest).doReset := by
  simp [step_legal hl, nextEdge, hin, edge, hrst]

theorem AtResetValues.cmdReady {s : State} (h : AtResetValues s) :
    (portOut false s).cmdReady = true := by
  obtain ⟨-, -, -, -, -, -, -, -, -, -, -, hrsp⟩ := h
  simp [portOut, hrsp]

/-- CLEAR leaves the reset values in every item but the input buffer and `CONFIG` (R190). -/
theorem atResetValues_of_clear {s t : State} (h : exec .clear s = .next t) :
    AtResetValues { t with ibuf := [], pack := false, rsp := none } := by
  cases h
  exact atResetValues_resetWith s.par

/-- Settles O7: each way to the reset state ends in `State.resetWith`. -/
theorem resetFromEveryState : Obligations.ResetFromEveryState :=
  ⟨fun _ _ _ hl hin hrst => ⟨_, step_rst hl hin hrst, atResetValues_doReset _, rfl⟩,
    atResetValues_resetWith _, fun _ => rfl, fun _ => AtResetValues.cmdReady,
    fun m => ⟨rfl, rfl, m.atResetValues_doReset⟩, fun _ _ => atResetValues_of_clear⟩

/-- Every CSR reads as 0 in the reset state (R191). -/
theorem csr_resetWith (p : Params) {a : Nat} (h : a ≤ 6) : (State.resetWith p).csr a = 0#64 := by
  have hstatus : (State.resetWith p).statusWord = 0#64 := by
    simp [State.statusWord, State.rootValid, State.single]
  interval_cases a
  · rfl
  · exact hstatus
  all_goals rfl

/-- Settles O8: each command's check, and the reset value it reads. -/
theorem resetReadOut : Obligations.ResetReadOut := by
  intro par
  refine ⟨fun a ha => ?_, fun a ha => ?_, fun a ha => ?_, rfl, fun _ => rfl, fun _ => rfl,
    fun _ => rfl⟩
  · simp [exec, execCsrRead, ha, csr_resetWith par ha, respond_eq]
  · simp [exec, execFqRead, ha, natWord, respond_eq]
  · simp [exec, execCtLen, ha, CodeEntry.empty, respond_eq]

end Sys2Proof.Machine
end

section
/-! SUPPORT. The leaves below a node and the paths to them (42_code_table.md R130, R131): how `Visit`
follows the records, that it looks at no record above its node, and that the leaves of a built tree
are the present bytes (41_tree_builder.md R116). -/

namespace Sys2Proof.Machine

theorem InternalAbove.mono {low low' : Nat} {nodes : List Node} (h : InternalAbove low nodes)
    (hle : low' ≤ low) : InternalAbove low' nodes := by
  intro p l r hk
  obtain ⟨hlow, hl, hr⟩ := h p l r hk
  exact ⟨hle.trans hlow, hl, hr⟩

/-- `Visit` reads its node and the slots below it; any depth above the node's slot gives the same
pairs. -/
theorem visit_congr {nodes nodes' : List Node} (hint : InternalAbove 0 nodes) {n fuel fuel' : Nat}
    (hagree : ∀ p ≤ n, nodeAt nodes' p = nodeAt nodes p) (hf : n < fuel) (hf' : n < fuel')
    (path : List Bool) : visit nodes' fuel' n path = visit nodes fuel n path := by
  induction fuel generalizing n fuel' path with
  | zero => exact absurd hf (Nat.not_lt_zero n)
  | succ fuel ih =>
    obtain ⟨fuel', rfl⟩ := Nat.exists_eq_add_one_of_ne_zero (Nat.ne_zero_of_lt hf')
    rw [visit, visit, hagree n (Nat.le_refl n)]
    cases hk : (nodeAt nodes n).kids with
    | none => rfl
    | some lr =>
      obtain ⟨-, hl, hr⟩ := hint n lr.1 lr.2 hk
      have hchild : ∀ c < n, ∀ path, visit nodes' fuel' c path = visit nodes fuel c path :=
        fun c hc => ih (fun p hp => hagree p (by omega)) (by omega) (by omega)
      simp only [hchild _ hl, hchild _ hr]

/-- The path `Visit` starts with is put before every path it gives. -/
theorem visit_eq_map (nodes : List Node) (fuel n : Nat) (path : List Bool) :
    visit nodes fuel n path = (visit nodes fuel n []).map (Prod.map id (path ++ ·)) := by
  induction fuel generalizing n path with
  | zero => rfl
  | succ fuel ih =>
    rw [visit, visit]
    cases (nodeAt nodes n).kids with
    | none => simp
    | some lr =>
      simp only [ih lr.1 (path ++ [false]), ih lr.2 (path ++ [true]), ih lr.1 ([] ++ [false]),
        ih lr.2 ([] ++ [true])]
      simp [Function.comp_def, Prod.map_def]

theorem treePaths_leaf {nodes : List Node} {n : Nat} (hk : (nodeAt nodes n).kids = none) :
    treePaths nodes (some n) = [((nodeAt nodes n).value, [])] := by
  simp [treePaths, visit, hk]

theorem treePaths_internal {nodes : List Node} (hint : InternalAbove 0 nodes) {n l r : Nat}
    (hk : (nodeAt nodes n).kids = some (l, r)) :
    treePaths nodes (some n)
      = (treePaths nodes (some l)).map (Prod.map id (false :: ·))
        ++ (treePaths nodes (some r)).map (Prod.map id (true :: ·)) := by
  obtain ⟨-, hl, hr⟩ := hint n l r hk
  have hchild : ∀ c < n, ∀ b : Bool,
      visit nodes n c [b] = (treePaths nodes (some c)).map (Prod.map id (b :: ·)) := by
    intro c hc b
    rw [visit_eq_map, visit_congr hint (fun _ _ => rfl) (Nat.lt_succ_self c) hc]
    rfl
  rw [treePaths, visit, hk]
  simp only [List.nil_append, hchild l hl, hchild r hr]

/-- A path of the tree leads to a leaf of its byte. -/
theorem leadsTo_of_mem_treePaths {nodes : List Node} (hint : InternalAbove 0 nodes) {n : Nat}
    {v : Byte} {path : List Bool} (h : (v, path) ∈ treePaths nodes (some n)) :
    LeadsTo nodes n v path := by
  induction n using Nat.strongRecOn generalizing path with
  | ind n ih =>
    cases hk : (nodeAt nodes n).kids with
    | none =>
      rw [treePaths_leaf hk, List.mem_singleton] at h
      cases h
      exact ⟨n, rfl, hk, rfl⟩
    | some lr =>
      obtain ⟨l, r⟩ := lr
      obtain ⟨-, hl, hr⟩ := hint n l r hk
      rw [treePaths_internal hint hk, List.mem_append, List.mem_map, List.mem_map] at h
      obtain ⟨⟨u, rest⟩, hmem, he⟩ | ⟨⟨u, rest⟩, hmem, he⟩ := h <;> cases he
      · obtain ⟨p, hd, hp⟩ := ih l hl hmem
        exact ⟨p, by simpa [descend, hk] using hd, hp⟩
      · obtain ⟨p, hd, hp⟩ := ih r hr hmem
        exact ⟨p, by simpa [descend, hk] using hd, hp⟩

/-- An allocation changes no tree whose root is allocated. -/
theorem treePaths_alloc {nodes : List Node} (hint : InternalAbove 0 nodes) {root : Option Nat}
    (hroot : ∀ r, root = some r → r < nodes.length) (n : Node) :
    treePaths (alloc nodes n) root = treePaths nodes root := by
  cases root with
  | none => rfl
  | some r =>
    exact visit_congr hint (fun p hp => nodeAt_alloc_lt (Nat.lt_of_le_of_lt hp (hroot r rfl)) n)
      (Nat.lt_succ_self r) (Nat.lt_succ_self r) []

/-- The bytes of the leaves below a node, from left to right. -/
def leafBytes (nodes : List Node) (n : Nat) : List Byte :=
  (treePaths nodes (some n)).map Prod.fst

theorem leafBytes_leaf {nodes : List Node} {n : Nat} (hk : (nodeAt nodes n).kids = none) :
    leafBytes nodes n = [(nodeAt nodes n).value] := by
  simp [leafBytes, treePaths_leaf hk]

theorem leafBytes_internal {nodes : List Node} (hint : InternalAbove 0 nodes) {n l r : Nat}
    (hk : (nodeAt nodes n).kids = some (l, r)) :
    leafBytes nodes n = leafBytes nodes l ++ leafBytes nodes r := by
  simp [leafBytes, treePaths_internal hint hk, Function.comp_def]

theorem leafBytes_alloc {nodes : List Node} (hint : InternalAbove 0 nodes) {p : Nat}
    (hp : p < nodes.length) (n : Node) : leafBytes (alloc nodes n) p = leafBytes nodes p := by
  rw [leafBytes, treePaths_alloc hint fun r hr => Option.some.inj hr ▸ hp, leafBytes]

/-- The bytes of the leaves below every element of the sequence. -/
def Forest.leafBytes (f : Forest) : List Byte := f.pq.flatMap (Machine.leafBytes f.nodes)

/-- A new record brings the leaves below it. -/
theorem push_leafBytes_perm {f : Forest} (h : f.Allocated) (hint : InternalAbove 0 f.nodes)
    (n : Node) :
    (f.push n).leafBytes.Perm
      (Machine.leafBytes (alloc f.nodes n) f.nodes.length ++ f.leafBytes) := by
  have hold : f.pq.flatMap (Machine.leafBytes (alloc f.nodes n)) = f.leafBytes :=
    List.flatMap_congr fun p hp => leafBytes_alloc hint (h p hp) n
  have hperm := (push_pq_perm n f).flatMap_right (Machine.leafBytes (alloc f.nodes n))
  rwa [List.flatMap_cons, hold] at hperm

theorem leafScan_kids (freq : Table Nat) (p : Nat) :
    (nodeAt (leafScan freq).nodes p).kids = none := by
  cases hk : (nodeAt (leafScan freq).nodes p).kids with
  | none => rfl
  | some lr =>
    have hmem := nodeAt_mem (lt_length_of_kids hk)
    rw [leafScan_nodes] at hmem hk
    obtain ⟨v, -, hv⟩ := List.mem_map.mp hmem
    rw [← hv] at hk
    cases hk

theorem leafScan_leafBytes_perm (freq : Table Nat) :
    (leafScan freq).leafBytes.Perm (present freq) := by
  have hvalues : (leafScan freq).leafBytes = (leafScan freq).held.map Node.value := by
    rw [Forest.leafBytes, Forest.held, List.map_map, List.map_eq_flatMap]
    exact List.flatMap_congr fun p _ => leafBytes_leaf (leafScan_kids freq p)
  rw [hvalues]
  simpa [Function.comp_def, leafNode] using (leafScan_held_perm freq).map Node.value

theorem addMerged_leafBytes_perm {freq : Table Nat} {nodes : List Node} {l r : Nat}
    {rest : List Nat} (h : Forest.BuildInv freq ⟨nodes, l :: r :: rest⟩) :
    (Forest.addMerged l r ⟨nodes, rest⟩).leafBytes.Perm
      (Forest.leafBytes ⟨nodes, l :: r :: rest⟩) := by
  have hint : InternalAbove 0 nodes := h.internal.mono (Nat.zero_le _)
  have hint' : InternalAbove 0 (alloc nodes (mergedNode nodes l r)) :=
    (addMerged_buildInv h).internal.mono (Nat.zero_le _)
  have hl : l < nodes.length := h.allocated l (by simp)
  have hr : r < nodes.length := h.allocated r (by simp)
  have hnew : leafBytes (alloc nodes (mergedNode nodes l r)) nodes.length
      = leafBytes nodes l ++ leafBytes nodes r := by
    rw [leafBytes_internal hint' (l := l) (r := r) (by simp [mergedNode]),
      leafBytes_alloc hint hl, leafBytes_alloc hint hr]
  have hrest : Forest.Allocated ⟨nodes, rest⟩ := fun p hp => h.allocated p (by simp [hp])
  have hperm := push_leafBytes_perm hrest hint (mergedNode nodes l r)
  rw [addMerged_eq_push]
  simpa [hnew, Forest.leafBytes] using hperm

/-- The leaves below the root of a built tree are the present bytes, each once. -/
theorem builtForest_leafBytes_perm (freq : Table Nat) :
    (builtForest freq).leafBytes.Perm (present freq) := by
  have hbuilt : (builtForest freq).BuildInv freq
      ∧ (builtForest freq).leafBytes.Perm (present freq) :=
    builtForest_induction
      (P := fun f => f.BuildInv freq ∧ f.leafBytes.Perm (present freq))
      ⟨leafScan_buildInv freq, leafScan_leafBytes_perm freq⟩
      fun _ _ _ _ ⟨h, hp⟩ => ⟨addMerged_buildInv h, (addMerged_leafBytes_perm h).trans hp⟩
  exact hbuilt.2

theorem builtRoot_leafBytes_perm {freq : Table Nat} {r : Nat} (h : builtRoot freq = some r) :
    (leafBytes (builtNodes freq) r).Perm (present freq) := by
  have hp := builtForest_leafBytes_perm freq
  rwa [Forest.leafBytes, builtForest_pq h, List.flatMap_singleton] at hp

end Sys2Proof.Machine
end

section
/-! SUPPORT. What the operations that write a table, node memory or the sequence keep of the clauses
of 10_state.md R22: the counters' width, clauses (c), (e) and (f), and the code entries of R30. -/

namespace Sys2Proof.Machine

/-- `FREQ <- FREQ` with one entry written keeps the counters' width. -/
theorem Table.get_set_lt {t : Table Nat} {bound b : Nat} (h : ∀ v, t.get v < bound) (u : Byte)
    (hb : b < bound) (v : Byte) : (t.set u b).get v < bound := by
  rw [Table.get_set]
  split
  · exact hb
  · exact h v

theorem foldl_bump_get (bytes : List Byte) (t : Table Nat) (v : Byte) :
    (bytes.foldl bump t).get v = t.get v + bytes.count v := by
  induction bytes generalizing t with
  | nil => rfl
  | cons x xs ih =>
    rw [List.foldl_cons, ih, bump, Table.get_set, List.count_cons]
    by_cases h : v = x
    · simp [h, Nat.add_assoc, Nat.add_comm 1]
    · simp [h, Ne.symm h]

/-- `CountFrequencies` counts each byte (43_encoder.md R143). -/
theorem countBytes_get (bytes : List Byte) (v : Byte) : (countBytes bytes).get v = bytes.count v := by
  rw [countBytes, foldl_bump_get, Table.get_fill, Nat.zero_add]

theorem parseToken_get_lt {w : Nat} {p p' : Parse} {t : List Byte} (h : parseToken w p t = .ok p')
    (hp : ∀ v, p.table.get v < 2 ^ w) : ∀ v, p'.table.get v < 2 ^ w := by
  unfold parseToken at h
  split at h
  · cases h
  · split at h
    · split at h
      · cases h
      · cases h
        exact hp
    · split at h
      · cases h
      · next hlt =>
        cases h
        exact Table.get_set_lt hp _ (Nat.lt_of_not_le hlt)

theorem parseTokens_get_lt {w pairs : Nat} {ts : List (List Byte)} {p : Parse} {freq : Table Nat}
    (h : parseTokens w ts p = .ok (freq, pairs)) (hp : ∀ v, p.table.get v < 2 ^ w) :
    ∀ v, freq.get v < 2 ^ w := by
  induction ts generalizing p with
  | nil =>
    unfold parseTokens at h
    split at h
    · cases h
      exact hp
    · cases h
  | cons t ts ih =>
    unfold parseTokens at h
    split at h
    · next p' ht => exact ih h (parseToken_get_lt ht hp)
    · cases h

/-- Every counter a header sets fits its width (45_header_codec.md R180). -/
theorem parseHeader_get_lt {w pairs : Nat} {bytes : List Byte} {freq : Table Nat}
    (h : parseHeader w bytes = .ok (freq, pairs)) : ∀ v, freq.get v < 2 ^ w :=
  parseTokens_get_lt h fun v => by simp

theorem NodesOk.internalAbove {w : Nat} {nodes : List Node} (h : NodesOk w nodes) :
    InternalAbove 0 nodes := by
  intro p l r hk
  obtain ⟨hl, hr, -⟩ := h.internal p l r (lt_length_of_kids hk) hk
  exact ⟨Nat.zero_le p, hl, hr⟩

theorem nodesOk_nil (w : Nat) : NodesOk w [] where
  internal _ _ _ hp := absurd hp (Nat.not_lt_zero _)
  leaf _ hp := absurd hp (Nat.not_lt_zero _)

/-- A new record that is as clauses (e) and (f) say keeps them: no old record refers to its slot. -/
theorem NodesOk.alloc {w : Nat} {nodes : List Node} (h : NodesOk w nodes) {n : Node}
    (hleaf : n.kids = none → n.weight < 2 ^ w)
    (hinternal : ∀ l r, n.kids = some (l, r) →
      l < nodes.length ∧ r < nodes.length
        ∧ n.weight = (nodeAt nodes l).weight + (nodeAt nodes r).weight
        ∧ n.weight < 2 ^ (w + 8)
        ∧ n.value = minByte (nodeAt nodes l).value (nodeAt nodes r).value) :
    NodesOk w (alloc nodes n) where
  internal p l r hp hk := by
    rw [alloc_length] at hp
    rcases Nat.lt_succ_iff_lt_or_eq.mp hp with hp | rfl
    · rw [nodeAt_alloc_lt hp] at hk ⊢
      obtain ⟨hl, hr, hrecord⟩ := h.internal p l r hp hk
      rw [nodeAt_alloc_lt (hl.trans hp), nodeAt_alloc_lt (hr.trans hp)]
      exact ⟨hl, hr, hrecord⟩
    · rw [nodeAt_alloc_self] at hk ⊢
      obtain ⟨hl, hr, hrecord⟩ := hinternal l r hk
      rw [nodeAt_alloc_lt hl, nodeAt_alloc_lt hr]
      exact ⟨hl, hr, hrecord⟩
  leaf p hp hk := by
    rw [alloc_length] at hp
    rcases Nat.lt_succ_iff_lt_or_eq.mp hp with hp | rfl
    · rw [nodeAt_alloc_lt hp] at hk ⊢
      exact h.leaf p hp hk
    · rw [nodeAt_alloc_self] at hk ⊢
      exact hleaf hk

theorem NodesOk.alloc_leaf {w : Nat} {nodes : List Node} (h : NodesOk w nodes) (v : Byte) {b : Nat}
    (hb : b < 2 ^ w) : NodesOk w (Machine.alloc nodes (leafNode v b)) :=
  h.alloc (fun _ => hb) fun _ _ hk => nomatch hk

theorem NodesOk.alloc_merged {w : Nat} {nodes : List Node} (h : NodesOk w nodes) {a b : Nat}
    (ha : a < nodes.length) (hb : b < nodes.length)
    (hw : (nodeAt nodes a).weight + (nodeAt nodes b).weight < 2 ^ (w + 8)) :
    NodesOk w (Machine.alloc nodes (mergedNode nodes a b)) :=
  h.alloc (fun hk => nomatch hk) fun l r hk => by
    cases hk
    exact ⟨ha, hb, rfl, hw, rfl⟩

/-- `PqInsert` puts the new element before the first one that is `Greater` (R91). -/
theorem pqInsert_cons (nodes : List Node) (p q : Nat) (rest : List Nat) :
    pqInsert nodes p (q :: rest)
      = if greater nodes q p then p :: q :: rest else q :: pqInsert nodes p rest := by
  rw [pqInsert, pqPosition]
  split <;> rfl

/-- Insertion keeps the rank order (40_ordered_sequence.md R93). -/
theorem RankOrdered.pqInsert {nodes : List Node} {pq : List Nat} (h : RankOrdered nodes pq)
    (p : Nat) : RankOrdered nodes (pqInsert nodes p pq) := by
  induction pq with
  | nil => exact List.pairwise_singleton ..
  | cons q rest ih =>
    obtain ⟨hq, hrest⟩ := List.pairwise_cons.mp h
    rw [pqInsert_cons]
    split
    · next hg =>
      have hqp : less nodes q p = false := keyLess_asymm hg
      refine List.pairwise_cons.mpr ⟨fun x hx => ?_, h⟩
      rcases List.mem_cons.mp hx with rfl | hx
      · exact hqp
      · exact not_keyLess_trans hqp (hq x hx)
    · next hg =>
      refine List.pairwise_cons.mpr ⟨fun x hx => ?_, ih hrest⟩
      rcases mem_pqInsert.mp hx with rfl | hx
      · exact Bool.eq_false_iff.mpr hg
      · exact hq x hx

/-- An allocation keeps the rank order of the nodes that were allocated before. -/
theorem RankOrdered.alloc {nodes : List Node} {pq : List Nat} (h : RankOrdered nodes pq)
    (hpq : ∀ p ∈ pq, p < nodes.length) (n : Node) : RankOrdered (alloc nodes n) pq := by
  refine List.Pairwise.imp_of_mem (fun {p q} hp hq hpq' => ?_) h
  rwa [less, nodeAt_alloc_lt (hpq p hp), nodeAt_alloc_lt (hpq q hq)]

/-- No bit of the entry is set at or beyond its length (R30). -/
def CodeEntry.TailClear (c : CodeEntry) : Prop :=
  ∀ k, c.len.toNat ≤ k → c.bits.getLsbD k = false

/-- The cleared table has no code bits. -/
theorem tailClear_fill_empty (v : Byte) : ((Table.fill CodeEntry.empty).get v).TailClear := by
  intro k _
  simp [CodeEntry.empty]

theorem pathNat_lt (path : List Bool) : pathNat path < 2 ^ path.length := by
  induction path with
  | nil => simp [pathNat]
  | cons b rest ih =>
    have hb := b.toNat_lt
    rw [pathNat, List.length_cons, Nat.pow_succ]
    omega

theorem tailClear_pathEntry {path : List Bool} (h : path.length ≤ maxCodeLen) :
    (pathEntry path).TailClear := by
  intro k hk
  have hlen : path.length ≤ k := by
    simpa [pathEntry, Nat.mod_eq_of_lt (Nat.lt_succ_of_le h)] using hk
  have hlt : pathNat path < 2 ^ k :=
    (pathNat_lt path).trans_le (Nat.pow_le_pow_right (by decide) hlen)
  simp [pathEntry, BitVec.getLsbD_ofNat, Nat.testBit_lt_two_pow hlt]

theorem foldl_writeCode_tailClear {vps : List (Byte × List Bool)} {t : Table CodeEntry}
    (ht : ∀ v, (t.get v).TailClear) (hvps : ∀ vp ∈ vps, vp.2.length ≤ maxCodeLen) (v : Byte) :
    ((vps.foldl writeCode t).get v).TailClear := by
  induction vps generalizing t with
  | nil => exact ht v
  | cons vp vps ih =>
    refine ih (fun u => ?_) fun x hx => hvps x (by simp [hx])
    rw [writeCode, Table.get_set]
    split
    · exact tailClear_pathEntry (hvps vp (by simp))
    · exact ht u

/-- `GenCodes` sets no bit beyond a code where no path is longer than `MAX_CODE_LEN`. -/
theorem genTable_tailClear {nodes : List Node} {root : Option Nat}
    (h : ∀ vp ∈ treePaths nodes root, vp.2.length ≤ maxCodeLen) (v : Byte) :
    ((genTable nodes root).get v).TailClear :=
  foldl_writeCode_tailClear tailClear_fill_empty h v

end Sys2Proof.Machine
end

section
/-! SUPPORT. A built tree is within the invariant's clauses (a), (e), (f), (g) and within 00_scope.md
R7 clause c and 70_reset_and_hazards.md R223 clause d, where the counters have their width. -/

namespace Sys2Proof.Machine

theorem leafScan_nodesOk {freq : Table Nat} {w : Nat} (hw : ∀ v, freq.get v < 2 ^ w) :
    NodesOk w (leafScan freq).nodes where
  internal p l r _ hk := by
    rw [leafScan_kids] at hk
    cases hk
  leaf p hp _ := by
    have hmem := nodeAt_mem hp
    rw [leafScan_nodes] at hmem ⊢
    obtain ⟨v, -, hv⟩ := List.mem_map.mp hmem
    rw [← hv]
    exact hw v

theorem addMerged_nodesOk {freq : Table Nat} {w : Nat} (hw : ∀ v, freq.get v < 2 ^ w)
    {nodes : List Node} {l r : Nat} {rest : List Nat}
    (h : Forest.BuildInv freq ⟨nodes, l :: r :: rest⟩) (hn : NodesOk w nodes) :
    NodesOk w (Forest.addMerged l r ⟨nodes, rest⟩).nodes := by
  have hmem : mergedNode nodes l r ∈ (Forest.addMerged l r ⟨nodes, rest⟩).nodes := by
    simp [addMerged_eq_push, alloc]
  have hle : (nodeAt nodes l).weight + (nodeAt nodes r).weight ≤ freq.cells.sum :=
    (addMerged_buildInv h).weight_le _ hmem
  exact hn.alloc_merged (h.allocated l (by simp)) (h.allocated r (by simp))
    (hle.trans_lt (sum_cells_lt hw))

theorem builtNodes_nodesOk {freq : Table Nat} {w : Nat} (hw : ∀ v, freq.get v < 2 ^ w) :
    NodesOk w (builtNodes freq) := by
  have hbuilt : (builtForest freq).BuildInv freq ∧ NodesOk w (builtForest freq).nodes :=
    builtForest_induction (P := fun f => f.BuildInv freq ∧ NodesOk w f.nodes)
      ⟨leafScan_buildInv freq, leafScan_nodesOk hw⟩
      fun _ _ _ _ ⟨h, hn⟩ => ⟨addMerged_buildInv h, addMerged_nodesOk hw h hn⟩
  exact hbuilt.2

theorem builtNodes_length_le (freq : Table Nat) : (builtNodes freq).length ≤ nNode := by
  have hle : (present freq).length ≤ 256 := present_length_le freq
  rw [(builtForest_lengths freq).2, nNode]
  omega

theorem built_internalAbove (freq : Table Nat) : InternalAbove 0 (builtNodes freq) :=
  (builtForest_buildInv freq).internal.mono (Nat.zero_le _)

theorem built_path_length_le {freq : Table Nat} {vp : Byte × List Bool}
    (h : vp ∈ treePaths (builtNodes freq) (builtRoot freq)) : vp.2.length ≤ maxCodeLen := by
  cases hr : builtRoot freq with
  | none =>
    rw [hr] at h
    cases h
  | some r =>
    rw [hr] at h
    obtain ⟨p, hd, -⟩ := leadsTo_of_mem_treePaths (built_internalAbove freq) h
    have hle : (present freq).length ≤ maxCodeLen + 1 := present_length_le freq
    exact (builtRoot_path_length hr hd).trans (Nat.sub_le_of_le_add hle)

theorem built_leaves_nodup (freq : Table Nat) :
    ((treePaths (builtNodes freq) (builtRoot freq)).map Prod.fst).Nodup := by
  cases hr : builtRoot freq with
  | none => exact List.nodup_nil
  | some r => exact (builtRoot_leafBytes_perm hr).nodup_iff.mpr (present_nodup freq)

end Sys2Proof.Machine
end

section
/-! SUPPORT. The invariant of 10_state.md R22: at reset, under every operation that writes state, and
so under every command and every step. -/

namespace Sys2Proof.Machine

theorem Inv.resetWith {p : Params} (h : legalParams p = true) : Inv (State.resetWith p) where
  params := h
  counters v := by simp
  nodeCount := Nat.zero_le _
  sequenceSize := Nat.zero_le _
  sequenceAllocated _ hp := absurd hp List.not_mem_nil
  rankOrder := List.Pairwise.nil
  nodes := nodesOk_nil _
  rootAllocated _ hr := nomatch hr
  rootDepth _ hvp := absurd hvp List.not_mem_nil
  rootLeaves := List.nodup_nil
  codes hv := nomatch hv
  codeTail := tailClear_fill_empty
  inputFits := Nat.zero_le _
  outputFits := Nat.zero_le _
  notRootAndEmpty := by simp
  errorCode := Nat.zero_le _
  packLegal hp := nomatch hp

/-- Settles O9: every clause is about empty lists, zero tables or cleared flags. -/
theorem resetStateSatisfiesInvariant : Obligations.ResetStateSatisfiesInvariant :=
  ⟨fun _ => Inv.resetWith, Inv.resetWith (by decide)⟩

section

variable {s : State}

theorem Inv.setRsp (h : Inv s) (r : Option Response) : Inv (s.setRsp r) := { h with }

theorem Inv.setInputs (h : Inv s) (l : List PortIn) : Inv (s.setInputs l) := { h with }

theorem Inv.setLastErr (h : Inv s) {c : BitVec 8} (hc : c.toNat ≤ 7) : Inv (s.setLastErr c) :=
  { h with errorCode := hc }

theorem Inv.ok (h : Inv s) (d : Word) : Inv (s.ok d) := h.setRsp _

theorem Inv.err (h : Inv s) (k : Kind) : Inv (s.err k.code) := (h.setLastErr k.code_le).setRsp _

theorem Inv.setPack (h : Inv s) {v : Bool} (hv : v = true → s.par.packSupported = true) :
    Inv (s.setPack v) :=
  { h with packLegal := hv }

theorem Inv.setIbuf (h : Inv s) {l : List Byte} (hl : l.length ≤ s.par.ibufCap) :
    Inv (s.setIbuf l) :=
  { h with inputFits := hl }

theorem Inv.setObuf (h : Inv s) {l : List Byte} (hl : l.length ≤ s.par.obufCap) :
    Inv (s.setObuf l) :=
  { h with outputFits := hl }

theorem Inv.setFreq (h : Inv s) {t : Table Nat} (ht : ∀ v, t.get v < 2 ^ s.par.wFreq) :
    Inv (s.setFreq t) :=
  { h with counters := ht }

/-- A table of zeros fits every counter width. -/
theorem Inv.clearFreq (h : Inv s) : Inv (s.setFreq (Table.fill 0)) := h.setFreq fun v => by simp

/-- No count exceeds the number of bytes, which `IBUF_CAP` keeps below `2^W_FREQ` (00_scope.md R6). -/
theorem Inv.countFrequencies (h : Inv s) : Inv s.countFrequencies := by
  refine h.setFreq fun v => ?_
  obtain ⟨-, -, hcap, -⟩ := (legalParams_iff s.par).mp h.params
  have hcount : s.ibuf.count v ≤ s.ibuf.length := List.count_le_length
  have hfits := h.inputFits
  have hpos := Nat.two_pow_pos s.par.wFreq
  rw [countBytes_get]
  omega

theorem Inv.setPq (h : Inv s) {l : List Nat} (hlen : l.length ≤ pqCap)
    (halloc : ∀ p ∈ l, p < s.nodes.length) (hrank : RankOrdered s.nodes l) : Inv (s.setPq l) :=
  { h with sequenceSize := hlen, sequenceAllocated := halloc, rankOrder := hrank }

/-- Removals leave a part of the sequence in its order. -/
theorem Inv.setPq_sublist (h : Inv s) {l : List Nat} (hl : l.Sublist s.pq) : Inv (s.setPq l) :=
  h.setPq (hl.length_le.trans h.sequenceSize) (fun p hp => h.sequenceAllocated p (hl.subset hp))
    (h.rankOrder.sublist hl)

theorem Inv.setPq_insert (h : Inv s) {a : Nat} (ha : a < s.nodes.length)
    (hroom : s.pq.length ≠ pqCap) : Inv (s.setPq (pqInsert s.nodes a s.pq)) := by
  refine h.setPq ?_ (fun p hp => ?_) (h.rankOrder.pqInsert a)
  · rw [pqInsert_length]
    exact Nat.lt_of_le_of_ne h.sequenceSize hroom
  · rcases mem_pqInsert.mp hp with rfl | hp
    · exact ha
    · exact h.sequenceAllocated p hp

/-- An allocation that keeps clauses (e) and (f) keeps the invariant: the sequence, the current tree
and its codes are about nodes that were allocated before. -/
theorem Inv.setNodes_alloc (h : Inv s) {n : Node} (hroom : s.nodes.length ≠ nNode)
    (hn : NodesOk s.par.wFreq (alloc s.nodes n)) : Inv (s.setNodes (alloc s.nodes n)) := by
  have hpaths : treePaths (alloc s.nodes n) s.root = treePaths s.nodes s.root :=
    treePaths_alloc h.nodes.internalAbove h.rootAllocated n
  have hcodes : genTable (alloc s.nodes n) s.root = genTable s.nodes s.root := by
    rw [genTable, hpaths, genTable]
  have hlen : (alloc s.nodes n).length = s.nodes.length + 1 := alloc_length ..
  exact
    { h with
      nodeCount := hlen ▸ Nat.lt_of_le_of_ne h.nodeCount hroom
      sequenceAllocated := fun p hp => hlen ▸ Nat.lt_succ_of_lt (h.sequenceAllocated p hp)
      rankOrder := h.rankOrder.alloc h.sequenceAllocated n
      nodes := hn
      rootAllocated := fun r hr => hlen ▸ Nat.lt_succ_of_lt (h.rootAllocated r hr)
      rootDepth := hpaths ▸ h.rootDepth
      rootLeaves := hpaths ▸ h.rootLeaves
      codes := fun hv => (h.codes hv).trans hcodes.symm }

theorem Inv.wipeWork (h : Inv s) : Inv s.wipeWork :=
  { Inv.resetWith h.params with
    inputFits := h.inputFits
    errorCode := h.errorCode
    packLegal := h.packLegal }

/-- The build for counters of `W_FREQ` bits. -/
theorem Inv.buildTree (h : Inv s) : Inv s.buildTree :=
  { h with
    nodeCount := builtNodes_length_le s.freq
    sequenceSize := Nat.zero_le _
    sequenceAllocated := fun _ hp => absurd hp List.not_mem_nil
    rankOrder := List.Pairwise.nil
    nodes := builtNodes_nodesOk h.counters
    rootAllocated := fun _ hr => builtRoot_lt hr
    rootDepth := fun _ hvp => built_path_length_le hvp
    rootLeaves := built_leaves_nodup s.freq
    codes := fun hv => nomatch hv
    notRootAndEmpty := by simp [State.buildTree, Option.isSome_iff_ne_none] }

theorem Inv.genCodes (h : Inv s) : Inv s.genCodes :=
  { h with
    codes := fun _ => rfl
    codeTail := genTable_tailClear h.rootDepth }

theorem Inv.encodeTables (h : Inv s) : Inv s.encodeTables :=
  (h.setObuf (Nat.zero_le _)).countFrequencies.buildTree

theorem Inv.succeeds (h : Inv s) {i : Instr} {u : State} (hu : Succeeds s i u) : Inv u := by
  cases hu with
  | read => exact h
  | clear => exact h.wipeWork.setLastErr (Nat.zero_le _)
  | csrWrite hpack => exact h.setPack hpack
  | ibReset => exact h.setIbuf (Nat.zero_le _)
  | ibPut hroom =>
    refine h.setIbuf ?_
    rw [List.length_append, List.length_singleton]
    exact Nat.lt_of_le_of_ne h.inputFits hroom
  | fqClear => exact h.clearFreq
  | fqWrite hcount => exact h.setFreq (Table.get_set_lt h.counters _ hcount)
  | fqCount => exact h.countFrequencies
  | ndLeaf hcount hroom => exact h.setNodes_alloc hroom (h.nodes.alloc_leaf _ hcount)
  | ndMerge ha hb hroom hweight =>
    exact h.setNodes_alloc hroom (h.nodes.alloc_merged ha hb hweight)
  | pqClear => exact h.setPq_sublist (List.nil_sublist _)
  | pqInsert ha hroom => exact h.setPq_insert ha hroom
  | pqRemoveAt | pqRemoveVal => exact h.setPq_sublist (List.eraseIdx_sublist ..)
  | tbBuild => exact h.buildTree
  | cgGen => exact h.genCodes
  | hdCreate hfits => exact h.setObuf hfits
  | hdParse hparse => exact h.setFreq (parseHeader_get_lt hparse)
  | encodeBranched _ hfits => exact h.encodeTables.genCodes.setObuf hfits
  | encodeUnbranched _ hfits => exact h.encodeTables.setObuf hfits
  | decode hparse hfits =>
    exact (h.setFreq (parseHeader_get_lt hparse)).buildTree.setObuf hfits

theorem Inv.failEffect (h : Inv s) (c : FailClass) : Inv (failEffect c s) := by
  cases c with
  | primitive => exact h
  | headerWriter => exact h.setObuf (Nat.zero_le _)
  | headerReader => exact h.clearFreq
  | composite => exact h.wipeWork

theorem Inv.exec (h : Inv s) {i : Instr} {t : State} (ht : exec i s = .next t) : Inv t := by
  obtain ⟨d, u, hu, rfl⟩ | ⟨k, rfl⟩ := exec_cases ht
  · exact (h.succeeds hu).ok d
  · exact (h.failEffect _).err k

theorem Inv.runWord (h : Inv s) {w : Word} {t : State} (ht : runWord w s = .next t) : Inv t := by
  obtain ⟨i, -, hw⟩ | ⟨-, hw⟩ := runWord_cases w s <;> rw [hw] at ht
  · exact h.exec ht
  · cases ht
    exact h.err .illegalCommand

theorem Inv.step (h : Inv s) {t : State} (ht : step s = .next t) : Inv t := by
  obtain ⟨hl, ⟨-, rfl⟩ | ⟨p, rest, -, hcase⟩⟩ := step_cases ht
  · exact h
  · obtain ⟨-, rfl⟩ | ⟨-, -, -, rfl⟩ | ⟨-, -, -, rfl⟩ | ⟨-, -, -, rfl⟩ | ⟨-, -, -, hw⟩ := hcase
    · exact (Inv.resetWith hl).setInputs rest
    · exact (h.setInputs rest).setRsp none
    · exact h.setInputs rest
    · exact h.setInputs rest
    · exact (h.setInputs rest).runWord hw

end

/-- Settles O10: a command leaves its success or its failure, both made of operations that keep the
invariant; a step is a reset, a change of the ports or a command. -/
theorem everyStepKeepsInvariant : Obligations.EveryStepKeepsInvariant :=
  ⟨fun _ _ _ h ht => h.exec ht, fun _ _ h ht => h.step ht⟩

end Sys2Proof.Machine
end

section
/-! SUPPORT. The flags (10_state.md R35, R38): what a build sets them to, and what each command leaves
them at when it succeeds and when it fails. -/

namespace Sys2Proof.Machine

/-- There is a root exactly when a byte is present (41_tree_builder.md R115). -/
theorem builtRoot_isSome_iff (freq : Table Nat) :
    (builtRoot freq).isSome = true ↔ ∃ v, freq.get v ≠ 0 := by
  have hlen := (builtForest_lengths freq).1
  calc (builtRoot freq).isSome = true
    _ ↔ (builtForest freq).pq.length ≠ 0 := by simp [builtRoot]
    _ ↔ (present freq).length ≠ 0 := by omega
    _ ↔ ∃ v, v ∈ present freq := by simp [List.eq_nil_iff_forall_not_mem]
    _ ↔ ∃ v, freq.get v ≠ 0 := by simp only [mem_present]

/-- The root is a leaf exactly when one byte is present (R115). -/
theorem builtRoot_isLeaf_iff {freq : Table Nat} {r : Nat} (h : builtRoot freq = some r) :
    (nodeAt (builtNodes freq) r).isLeaf = true ↔ (present freq).length = 1 := by
  rw [Node.isLeaf, Option.isNone_iff_eq_none]
  constructor
  · intro hk
    have hlen := (builtRoot_leafBytes_perm h).length_eq
    rw [leafBytes_leaf hk] at hlen
    exact hlen.symm
  · intro hone
    have hr := builtRoot_lt h
    rw [(builtForest_lengths freq).2, hone] at hr
    cases hk : (nodeAt (builtNodes freq) r).kids with
    | none => rfl
    | some lr =>
      obtain ⟨-, hl, -⟩ := built_internalAbove freq r lr.1 lr.2 hk
      omega

/-- The tree branches exactly when two bytes are present (43_encoder.md R146). -/
theorem buildTree_branched_iff (s : State) :
    s.buildTree.branched = true ↔ 2 ≤ (present s.freq).length := by
  have hlen := (builtForest_lengths s.freq).1
  cases hr : builtRoot s.freq with
  | none =>
    have hpq : (builtForest s.freq).pq = [] := List.head?_eq_none_iff.mp hr
    rw [hpq, List.length_nil] at hlen
    exact iff_of_false (by simp [State.branched, State.buildTree, hr]) (by omega)
  | some r =>
    rw [builtForest_pq hr, List.length_singleton] at hlen
    calc s.buildTree.branched = true
      _ ↔ ¬ (nodeAt (builtNodes s.freq) r).isLeaf = true := by
        simp [State.branched, State.buildTree, hr]
      _ ↔ ¬ (present s.freq).length = 1 := not_congr (builtRoot_isLeaf_iff hr)
      _ ↔ 2 ≤ (present s.freq).length := by omega

/-- `root_valid` and `empty_flag` are those of a build for the frequency table. -/
def TreeFlags (s : State) : Prop :=
  (s.root.isSome = true ↔ ∃ v, s.freq.get v ≠ 0) ∧ s.emptyFlag = !s.root.isSome

theorem buildTree_treeFlags (s : State) : TreeFlags s.buildTree :=
  ⟨builtRoot_isSome_iff s.freq, by simp [State.buildTree]⟩

/-- A response tells a success from a failure by its status. -/
theorem exec_rsp_cases {i : Instr} {s t : State} {r : Response} (h : exec i s = .next t)
    (hr : t.rsp = some r) :
    (r.status = 0#8 ∧ ∃ d u, Succeeds s i u ∧ t = u.ok d) ∨
      (r.status ≠ 0#8 ∧ t = (failEffect (failClass i) s).err r.status) := by
  obtain ⟨d, u, hu, rfl⟩ | ⟨k, rfl⟩ := exec_cases h <;> cases hr
  · exact .inl ⟨rfl, d, u, hu, rfl⟩
  · exact .inr ⟨k.code_ne_zero, rfl⟩

theorem encode_ok_flags {s t : State} {r : Response} (h : exec .encode s = .next t)
    (hr : t.rsp = some r) (hok : r.status = 0#8) :
    TreeFlags t ∧ (t.codesValid = true ↔ 2 ≤ (present t.freq).length) ∧ t.lastErr = s.lastErr := by
  obtain ⟨-, d, u, hu, rfl⟩ | ⟨hne, -⟩ := exec_rsp_cases h hr
  · have hbranched := buildTree_branched_iff (s.setObuf []).countFrequencies
    cases hu with
    | read hread => cases hread
    | encodeBranched hb =>
      exact ⟨buildTree_treeFlags _, iff_of_true rfl (hbranched.mp hb), rfl⟩
    | encodeUnbranched hb =>
      refine ⟨buildTree_treeFlags _, iff_of_false Bool.false_ne_true fun hlen => ?_, rfl⟩
      exact Bool.eq_false_iff.mp hb (hbranched.mpr hlen)
  · exact absurd hok hne

theorem decode_ok_flags {s t : State} {r : Response} (h : exec .decode s = .next t)
    (hr : t.rsp = some r) (hok : r.status = 0#8) :
    TreeFlags t ∧ t.codesValid = false ∧ t.lastErr = s.lastErr := by
  obtain ⟨-, d, u, hu, rfl⟩ | ⟨hne, -⟩ := exec_rsp_cases h hr
  · cases hu with
    | read hread => cases hread
    | decode => exact ⟨buildTree_treeFlags _, rfl, rfl⟩
  · exact absurd hok hne

/-- A failing ENCODE or DECODE wipes the flags (60_exceptions.md R203). -/
theorem composite_fail_flags {i : Instr} {s t : State} {r : Response}
    (hi : failClass i = .composite) (h : exec i s = .next t) (hr : t.rsp = some r)
    (hfail : r.status ≠ 0#8) :
    t.root = none ∧ t.emptyFlag = false ∧ t.codesValid = false ∧ t.lastErr = r.status := by
  obtain ⟨hok, -⟩ | ⟨-, rfl⟩ := exec_rsp_cases h hr
  · exact absurd hok hfail
  · rw [hi]
    exact ⟨rfl, rfl, rfl, rfl⟩

/-- A command that writes no flag changes `LASTERR` alone, and only when it fails. -/
theorem exec_flags_eq {i : Instr} {s t : State} {r : Response} (h : exec i s = .next t)
    (hr : t.rsp = some r) (hroot : writesRoot i = false) (hcodes : writesCodesValid i = false) :
    t.root = s.root ∧ t.emptyFlag = s.emptyFlag ∧ t.codesValid = s.codesValid
      ∧ t.lastErr = if r.status = 0#8 then s.lastErr else r.status := by
  have hf := exec_framed h
  refine ⟨hf.root hroot, hf.emptyFlag hroot, hf.codesValid hcodes, ?_⟩
  obtain ⟨hok, d, u, hu, rfl⟩ | ⟨hne, rfl⟩ := exec_rsp_cases h hr
  · rw [if_pos hok]
    exact hu.lastErr_eq fun hi => by simp [hi, writesRoot] at hroot
  · rw [if_neg hne]
    rfl

/-- Settles O17: each row of the table by its command's success and failure. -/
theorem flagWriters : Obligations.FlagWriters := by
  intro i s t r h hr
  refine ⟨?_, ?_, ?_, ?_, ?_, ?_, ?_⟩
  · rintro rfl
    cases h
    obtain ⟨hroot, hempty⟩ := buildTree_treeFlags s
    exact ⟨hroot, hempty, rfl, rfl⟩
  · rintro rfl
    cases h
    exact ⟨rfl, rfl, rfl, rfl⟩
  · rintro rfl hok
    obtain ⟨⟨hroot, hempty⟩, hflags⟩ := encode_ok_flags h hr hok
    exact ⟨hroot, hempty, hflags⟩
  · rintro rfl hok
    obtain ⟨⟨hroot, hempty⟩, hflags⟩ := decode_ok_flags h hr hok
    exact ⟨hroot, hempty, hflags⟩
  · rintro (rfl | rfl) hfail
    · exact composite_fail_flags rfl h hr hfail
    · exact composite_fail_flags rfl h hr hfail
  · rintro rfl
    cases h
    exact ⟨rfl, rfl, rfl, rfl⟩
  · intro htb hcg hen hde hcl
    refine exec_flags_eq h hr ?_ ?_
    · unfold writesRoot
      split <;> simp_all
    · unfold writesCodesValid
      split <;> simp_all

end Sys2Proof.Machine
end

section
/-! SUPPORT. What a command does not read: a read command the waiting response, and no command the
host's coming pin levels, which its outcome hands on (20_memory.md R56, R57, R61). -/

namespace Sys2Proof.Machine

theorem exec_setRsp_of_isRead {i : Instr} (h : isRead i = true) (r : Option Response) (s : State) :
    exec i (s.setRsp r) = exec i s := by
  cases i with
  | csrRead | obGet | fqRead | ndRead | ndKids | ndEq | pqPeekAt | pqContains | pqSize | ctLen
  | ctBits => rfl
  | _ => cases h

theorem Succeeds.eq_of_isRead {i : Instr} {s u : State} (h : Succeeds s i u)
    (hi : isRead i = true) : u = s := by
  cases h with
  | read => rfl
  | _ => cases hi

/-- Settles O14: a read that succeeds leaves the state it found, and no read looks at the response
port. -/
theorem readsHaveNoSideEffect : Obligations.ReadsHaveNoSideEffect := by
  intro i s t d hi h hd
  obtain ⟨d', u, hu, rfl⟩ | ⟨k, rfl⟩ := exec_cases h
  · cases hu.eq_of_isRead hi
    cases hd
    exact ⟨rfl, (exec_setRsp_of_isRead hi none s).trans h⟩
  · simp [k.code_ne_zero] at hd

/-- The outcome with the host's coming pin levels replaced by `l` in the state it leaves. -/
def withInputs (l : List PortIn) : Result → Result
  | .next s => .next (s.setInputs l)
  | .fault f => .fault f
  | .refused r => .refused r

theorem raise_setInputs (c : FailClass) (k : Kind) (s : State) (l : List PortIn) :
    raise c k (s.setInputs l) = withInputs l (raise c k s) := by
  cases c <;> rfl

/-- A check that raises, before what hands the pin levels on when it passes. -/
theorem withInputs_guard {c : FailClass} {k : Kind} {s : State} {l : List PortIn} {p : Prop}
    {hp : Decidable p} {o o' : Result} (h : o' = withInputs l o) :
    (if p then raise c k (s.setInputs l) else o')
      = withInputs l (if p then raise c k s else o) := by
  split
  · exact raise_setInputs c k s l
  · exact h

theorem encodeRun_setInputs (s : State) (l : List PortIn) :
    encodeRun (s.setInputs l) = (encodeRun s).map (State.setInputs l) := by
  have ht : (s.setInputs l).encodeTables = s.encodeTables.setInputs l := rfl
  have hb : (s.encodeTables.setInputs l).branched = s.encodeTables.branched := rfl
  have hg : (s.encodeTables.setInputs l).genCodes = s.encodeTables.genCodes.setInputs l := rfl
  simp only [encodeRun, ht, hb, hg, State.setInputs_par, State.setInputs_freq, State.setInputs_pack,
    State.setInputs_code, State.setInputs_ibuf]
  split
  · rfl
  · split
    · split <;> rfl
    · rfl

theorem decodeRun_setInputs (s : State) (l : List PortIn) :
    decodeRun (s.setInputs l) = (decodeRun s).map (State.setInputs l) := by
  have ht : ∀ t, ((s.setInputs l).setFreq t).buildTree = (s.setFreq t).buildTree.setInputs l :=
    fun _ => rfl
  simp only [decodeRun, ht, State.setInputs_par, State.setInputs_ibuf, State.setInputs_pack,
    State.setInputs_nodes, State.setInputs_root]
  split
  · rfl
  · split <;> rfl

/-- No command reads or writes the coming pin levels. -/
theorem exec_setInputs (i : Instr) (s : State) (l : List PortIn) :
    exec i (s.setInputs l) = withInputs l (exec i s) := by
  cases i with
  | clear | ibReset | fqClear | fqCount | pqClear | pqSize | tbBuild | cgGen => rfl
  | csrRead | obGet | fqRead | ndRead | pqPeekAt | pqRemoveAt | pqContains | ctLen | hdCreate =>
    exact withInputs_guard rfl
  | ibPut | fqWrite | ndKids | ndEq | pqInsert | ctBits =>
    exact withInputs_guard (withInputs_guard rfl)
  | csrWrite | ndLeaf => exact withInputs_guard (withInputs_guard (withInputs_guard rfl))
  | ndMerge =>
    exact withInputs_guard (withInputs_guard (withInputs_guard (withInputs_guard rfl)))
  | pqRemoveVal a =>
    refine withInputs_guard ?_
    simp only [State.setInputs_nodes, State.setInputs_pq]
    cases pqFind s.nodes a s.pq with
    | none => exact raise_setInputs ..
    | some => rfl
  | hdParse =>
    simp only [exec, execHdParse, State.setInputs_par, State.setInputs_ibuf]
    cases parseHeader s.par.wFreq s.ibuf with
    | error => exact raise_setInputs ..
    | ok => rfl
  | encode =>
    simp only [exec, execEncode, encodeRun_setInputs]
    cases encodeRun s with
    | error => exact raise_setInputs ..
    | ok => rfl
  | decode =>
    simp only [exec, execDecode, decodeRun_setInputs]
    cases decodeRun s with
    | error => exact raise_setInputs ..
    | ok => rfl

theorem exec_setInputs_of_next {i : Instr} {s t : State} (h : exec i s = .next t)
    (l : List PortIn) : exec i (s.setInputs l) = .next (t.setInputs l) := by
  rw [exec_setInputs, h, withInputs]

end Sys2Proof.Machine
end

section
/-! SUPPORT. The decoder reads back the word of a well-formed command (30_encoding.md R73, R78,
R80). -/

namespace Sys2Proof.Laws.Encoding

theorem statement : ∀ i, Statement i
  | .clear => clear
  | .csrRead a => csrRead a
  | .csrWrite a b => csrWrite a b
  | .ibReset => ibReset
  | .ibPut a => ibPut a
  | .obGet b => obGet b
  | .fqClear => fqClear
  | .fqWrite a b => fqWrite a b
  | .fqRead a => fqRead a
  | .fqCount => fqCount
  | .ndLeaf a b => ndLeaf a b
  | .ndMerge a b => ndMerge a b
  | .ndRead a => ndRead a
  | .ndKids a => ndKids a
  | .ndEq a b => ndEq a b
  | .pqClear => pqClear
  | .pqInsert a => pqInsert a
  | .pqRemoveAt b => pqRemoveAt b
  | .pqPeekAt b => pqPeekAt b
  | .pqRemoveVal a => pqRemoveVal a
  | .pqContains a => pqContains a
  | .pqSize => pqSize
  | .tbBuild => tbBuild
  | .cgGen => cgGen
  | .ctLen a => ctLen a
  | .ctBits a b => ctBits a b
  | .hdCreate => hdCreate
  | .hdParse => hdParse
  | .encode => encode
  | .decode => decode

end Sys2Proof.Laws.Encoding

namespace Sys2Proof

theorem decodeOp_opcode (i : Instr) : decodeOp (opcode i) (operandA i) (operandB i) = some i := by
  cases i <;> rfl

theorem decodeWord_encode {i : Instr} (h : i.wellFormed = true) :
    decodeWord (encode i) = .ok i := by
  obtain ⟨hop, hfields⟩ := Laws.Encoding.statement i
  obtain ⟨ha, hb⟩ := hfields h
  simp [decodeWord, hop, ha, hb, decodeOp_opcode]

end Sys2Proof
end

section
/-! SUPPORT. Commands one after the other: the host's offers and accepts against `runCommands`
(20_memory.md R57, 30_encoding.md R72), and what the loading pseudo-commands leave (R81). -/

namespace Sys2Proof.Machine

theorem run_succ_of_step {M : Host.Core} {s t : M.State} (h : M.step s = .next t) (n : Nat) :
    M.run (n + 1) s = M.run n t := by
  simp only [Host.Core.run, h]

theorem step_offer {s : State} {i : Instr} {rest : List PortIn} (hl : legalParams s.par = true)
    (hrsp : s.rsp = none) (hi : i.wellFormed = true) (hin : s.inputs = offer (encode i) :: rest) :
    step s = exec i (s.setInputs rest) := by
  simp [step_legal hl, nextEdge, hin, edge, offer, hrsp, runWord, decodeWord_encode hi]

theorem step_accept {s : State} {rest : List PortIn} (hl : legalParams s.par = true)
    (hrsp : s.rsp ≠ none) (hin : s.inputs = accept :: rest) :
    step s = .next ((s.setInputs rest).setRsp none) := by
  obtain ⟨r, hr⟩ := Option.ne_none_iff_exists'.mp hrsp
  simp [step_legal hl, nextEdge, hin, edge, accept, hr]

theorem State.setRsp_of_eq {s : State} {r : Option Response} (h : s.rsp = r) : s.setRsp r = s := by
  subst h
  rfl

theorem State.setInputs_of_eq {s : State} {l : List PortIn} (h : s.inputs = l) :
    s.setInputs l = s := by
  subst h
  rfl

/-- A host's offer and accept are two edges, and the effect of one command (log 3). -/
theorem run_offer_accept {s t : State} {i : Instr} {rest : List PortIn}
    (hl : legalParams s.par = true) (hrsp : s.rsp = none) (hi : i.wellFormed = true)
    (hin : s.inputs = offer (encode i) :: accept :: rest)
    (ht : exec i (s.setInputs rest) = .next t) (n : Nat) :
    core.run (n + 2) s = core.run n (t.setRsp none) := by
  have hf := exec_framed ht
  obtain ⟨_, r, ht', hr, -⟩ := exec_offersResponse i (s.setInputs rest)
  cases ht.symm.trans ht'
  have hoffer : step s = .next (t.setInputs (accept :: rest)) :=
    (step_offer hl hrsp hi hin).trans (exec_setInputs_of_next ht (accept :: rest))
  have haccept : step (t.setInputs (accept :: rest)) = .next (t.setRsp none) := by
    have h : step (t.setInputs (accept :: rest)) = .next ((t.setInputs rest).setRsp none) :=
      step_accept (hf.par ▸ hl) (by simp [hr]) rfl
    have hsame : t.setInputs rest = t := State.setInputs_of_eq hf.inputs
    rwa [hsame] at h
  calc core.run (n + 2) s
    _ = core.run (n + 1) (t.setInputs (accept :: rest)) := run_succ_of_step (M := core) hoffer _
    _ = core.run n (t.setRsp none) := run_succ_of_step (M := core) haccept n

/-- The edges of a host program are its commands one after the other. -/
theorem run_hostProgram {is : List Instr} {s : State} {rest : List PortIn}
    (hl : legalParams s.par = true) (hrsp : s.rsp = none) (hwf : ∀ i ∈ is, i.wellFormed = true)
    (hin : s.inputs = hostProgram is ++ rest) :
    core.run (2 * is.length) s = runCommands is (s.setInputs rest) := by
  induction is generalizing s with
  | nil => exact congrArg Host.Outcome.next (State.setInputs_of_eq hin).symm
  | cons i is ih =>
    obtain ⟨hi, his⟩ := List.forall_mem_cons.mp hwf
    obtain ⟨t, _, ht, -⟩ := exec_offersResponse i (s.setInputs (hostProgram is ++ rest))
    have hf := exec_framed ht
    have hexec : exec i (s.setInputs rest) = .next (t.setInputs rest) :=
      exec_setInputs_of_next ht rest
    have hcons : runCommands (i :: is) (s.setInputs rest)
        = runCommands is ((t.setRsp none).setInputs rest) := by
      simp only [runCommands, hexec]
      rfl
    have hrest := ih (s := t.setRsp none) (hf.par ▸ hl) rfl his hf.inputs
    exact (run_offer_accept hl hrsp hi hin ht _).trans (hrest.trans hcons.symm)

theorem runCommands_cons_ok {i : Instr} {is : List Instr} {s u : State} {d : Word}
    (h : exec i s = .next (u.ok d)) (hu : u.rsp = none) :
    runCommands (i :: is) s = runCommands is u := by
  have hr : (u.ok d).setRsp none = u := State.setRsp_of_eq (s := u) hu
  simp [runCommands, h, hr]

theorem exec_ibPut_toNat {s : State} (b : Byte) (h : s.ibuf.length ≠ s.par.ibufCap) :
    exec (.ibPut b.toNat) s
      = .next ((s.setIbuf (s.ibuf ++ [b])).ok (natWord (s.ibuf.length + 1))) := by
  have hb : b.toNat ≤ 255 := Nat.le_of_lt_succ b.isLt
  simp [exec, execIbPut, hb, h, respond_eq]

theorem exec_fqWrite_toNat {s : State} (v : Byte) {f : Nat} (h : f < 2 ^ s.par.wFreq) :
    exec (.fqWrite v.toNat f) s = .next ((s.setFreq (s.freq.set v f)).ok 0#64) := by
  have hv : v.toNat ≤ 255 := Nat.le_of_lt_succ v.isLt
  simp [exec, execFqWrite, hv, h, respond_eq]

/-- The bytes of IB.LOAD are appended in order while they fit. -/
theorem runCommands_ibPuts {bytes : List Byte} {s : State} (hrsp : s.rsp = none)
    (hfits : s.ibuf.length + bytes.length ≤ s.par.ibufCap) :
    runCommands (bytes.map fun b => .ibPut b.toNat) s = .next (s.setIbuf (s.ibuf ++ bytes)) := by
  induction bytes generalizing s with
  | nil => simp [runCommands, State.setIbuf]
  | cons b bytes ih =>
    rw [List.length_cons] at hfits
    rw [List.map_cons, runCommands_cons_ok (exec_ibPut_toNat b (by omega)) hrsp,
      ih (s := s.setIbuf (s.ibuf ++ [b])) hrsp (by simp; omega)]
    simp [State.setIbuf]

/-- `FREQ[v] <- f`, for one pair of FQ.LOAD. -/
def writePair (t : Table Nat) (vf : Byte × Nat) : Table Nat := t.set vf.1 vf.2

theorem runCommands_fqWrites {pairs : List (Byte × Nat)} {s : State} (hrsp : s.rsp = none)
    (hcounts : ∀ p ∈ pairs, p.2 < 2 ^ s.par.wFreq) :
    runCommands (pairs.map fun p => .fqWrite p.1.toNat p.2) s
      = .next (s.setFreq (pairs.foldl writePair s.freq)) := by
  induction pairs generalizing s with
  | nil => rfl
  | cons p pairs ih =>
    obtain ⟨hp, hpairs⟩ := List.forall_mem_cons.mp hcounts
    rw [List.map_cons, runCommands_cons_ok (exec_fqWrite_toNat p.1 hp) hrsp,
      ih (s := s.setFreq (s.freq.set p.1 p.2)) hrsp hpairs]
    rfl

theorem foldl_writePair_get_of_ne {pairs : List (Byte × Nat)} {v : Byte}
    (h : ∀ p ∈ pairs, p.1 ≠ v) (t : Table Nat) : (pairs.foldl writePair t).get v = t.get v := by
  induction pairs generalizing t with
  | nil => rfl
  | cons p pairs ih =>
    obtain ⟨hp, hpairs⟩ := List.forall_mem_cons.mp h
    rw [List.foldl_cons, ih hpairs, writePair, Table.get_set_ne _ _ hp.symm]

/-- The last count given for a byte value stands. -/
theorem foldl_writePair_get_last {before after : List (Byte × Nat)} {v : Byte} {f : Nat}
    (h : ∀ p ∈ after, p.1 ≠ v) (t : Table Nat) :
    ((before ++ (v, f) :: after).foldl writePair t).get v = f := by
  rw [List.foldl_append, List.foldl_cons, foldl_writePair_get_of_ne h, writePair,
    Table.get_set_self]

theorem runCommands_ibLoad {bytes : List Byte} {s : State} (hrsp : s.rsp = none)
    (hfits : bytes.length ≤ s.par.ibufCap) :
    runCommands (expand (.ibLoad bytes)) s = .next (s.setIbuf bytes) := by
  have hreset : exec .ibReset s = .next ((s.setIbuf []).ok 0#64) := rfl
  rw [expand, runCommands_cons_ok hreset hrsp,
    runCommands_ibPuts (s := s.setIbuf []) hrsp (by simpa using hfits)]
  rfl

theorem runCommands_fqLoad {pairs : List (Byte × Nat)} {s : State} (hrsp : s.rsp = none)
    (hcounts : ∀ p ∈ pairs, p.2 < 2 ^ s.par.wFreq) :
    runCommands (expand (.fqLoad pairs)) s
      = .next (s.setFreq (pairs.foldl writePair (Table.fill 0))) := by
  have hclear : exec .fqClear s = .next ((s.setFreq (Table.fill 0)).ok 0#64) := rfl
  rw [expand, runCommands_cons_ok hclear hrsp,
    runCommands_fqWrites (s := s.setFreq (Table.fill 0)) hrsp hcounts]
  rfl

/-- Settles O18: a host program by induction on its commands, the loads by induction on theirs. -/
theorem commandsRunInOrder : Obligations.CommandsRunInOrder := by
  refine ⟨fun _ _ _ hl hrsp hwf hin => run_hostProgram hl hrsp hwf hin,
    fun _ _ hrsp hfits => runCommands_ibLoad hrsp hfits, fun pairs s hrsp hcounts => ?_, rfl, rfl⟩
  refine ⟨_, runCommands_fqLoad hrsp hcounts, fun v hv => ?_, ?_⟩
  · rw [foldl_writePair_get_of_ne hv, Table.get_fill]
  · rintro before v f after rfl hafter
    exact foldl_writePair_get_last hafter _

end Sys2Proof.Machine
end

section
/-! SUPPORT. The body formats of 43_encoder.md R145: the bits of a packed byte, and the bytes of a
packed body (R151). -/

namespace Sys2Proof.Machine

theorem testBit_pathNat (path : List Bool) (k : Nat) :
    (pathNat path).testBit k = path.getD k false := by
  induction path generalizing k with
  | nil => simp [pathNat]
  | cons b rest ih =>
    have hbit : pathNat (b :: rest) = Nat.bit b (pathNat rest) := by
      rw [pathNat, Nat.bit_val, Nat.add_comm]
    cases k with
    | zero => rw [hbit, Nat.testBit_bit_zero, List.getD_cons_zero]
    | succ k => rw [hbit, Nat.testBit_bit_succ, ih, List.getD_cons_succ]

/-- The number read most significant bit first is that of the reversed path. -/
theorem foldl_eq_pathNat_reverse (bits : List Bool) :
    bits.foldl (fun v b => 2 * v + b.toNat) 0 = pathNat bits.reverse := by
  rw [List.foldl_eq_foldr_reverse]
  induction bits.reverse with
  | nil => rfl
  | cons b rest ih => rw [List.foldr_cons, ih, pathNat, Nat.add_comm]

/-- The first bit of a packed byte is its most significant one, and the unused low bits are 0. -/
theorem packByte_getLsbD {bits : List Bool} {j : Nat} (hlen : bits.length ≤ 8) (hj : j < 8) :
    (packByte bits).getLsbD (7 - j) = bits.getD j false := by
  rw [packByte, foldl_eq_pathNat_reverse, BitVec.getLsbD_ofNat, Nat.testBit_mul_two_pow,
    testBit_pathNat]
  rcases Nat.lt_or_ge j bits.length with hlt | hge
  · have hk : 7 - j - (8 - bits.length) = bits.length - 1 - j := by omega
    have h1 : 7 - j < 8 := by omega
    have h2 : 8 - bits.length ≤ 7 - j := by omega
    have hrev : j = bits.length - 1 - (bits.length - 1 - j) := by omega
    rw [hk, List.getD_reverse _ (by omega), ← hrev]
    simp [h1, h2]
  · have hk : ¬ 8 - bits.length ≤ 7 - j := by omega
    rw [List.getD_eq_default _ _ hge]
    simp [hk]

theorem packBytes_length {fuel : Nat} {bits : List Bool} (h : bits.length ≤ fuel) :
    (packBytes fuel bits).length = (bits.length + 7) / 8 := by
  induction fuel generalizing bits with
  | zero => simp [packBytes, List.length_eq_zero_iff.mp (Nat.le_zero.mp h)]
  | succ fuel ih =>
    cases bits with
    | nil => rfl
    | cons b rest =>
      have hrest : ((b :: rest).drop 8).length = rest.length - 7 := by simp
      rw [List.length_cons] at h
      rw [packBytes, List.length_cons, ih (by omega), hrest, List.length_cons]
      omega

/-- Byte `k` of a packed body is made of the eight bits from bit `8 * k` on. -/
theorem packBytes_getElem? {fuel k : Nat} {bits : List Bool} {y : Byte}
    (h : (packBytes fuel bits)[k]? = some y) : y = packByte ((bits.drop (8 * k)).take 8) := by
  induction fuel generalizing bits k with
  | zero => simp [packBytes] at h
  | succ fuel ih =>
    cases bits with
    | nil => simp [packBytes] at h
    | cons b rest =>
      rw [packBytes] at h
      cases k with
      | zero => simpa using h.symm
      | succ k =>
        rw [List.getElem?_cons_succ] at h
        rw [ih h, List.drop_drop, Nat.mul_succ, Nat.add_comm]

/-- Settles O48: the ASCII body by its definition, the packed one byte by byte. -/
theorem bodyFormats : Obligations.BodyFormats := by
  intro bits
  refine ⟨rfl, packBytes_length (Nat.le_refl _), fun j y hy => ?_⟩
  have hj : j % 8 < 8 := Nat.mod_lt j (by decide)
  rw [packBytes_getElem? hy, packByte_getLsbD (List.length_take_le ..) hj]
  simp [hj, Nat.div_add_mod]

end Sys2Proof.Machine
end

section
/-! SUPPORT. The decoder from the command's side (30_encoding.md R73 to R76, R79): which word decodes
to a given command, and which opcodes name none. -/

namespace Sys2Proof

theorem decodeWord_eq_ok_iff {w : Word} {i : Instr} :
    decodeWord w = .ok i ↔ decodeOp (opField w) (aField w) (bField w) = some i := by
  unfold decodeWord
  cases decodeOp (opField w) (aField w) (bField w) <;> simp

theorem decodeTableWord_eq_some_iff {nbits w : Nat} {i : Instr} :
    decodeTableWord nbits w = some i ↔ decodeWord (BitVec.ofNat 64 (w % 2 ^ nbits)) = .ok i := by
  unfold decodeTableWord
  cases decodeWord (BitVec.ofNat 64 (w % 2 ^ nbits)) <;> simp

theorem decodeTableWord_toNat (w : Word) {i : Instr} :
    decodeTableWord 64 w.toNat = some i ↔ decodeWord w = .ok i := by
  rw [decodeTableWord_eq_some_iff, Nat.mod_eq_of_lt w.isLt, BitVec.ofNat_toNat, BitVec.setWidth_eq]

/-- Settles O1: the decoder reads back the opcode and both operands of a command's word. -/
theorem decodeEncodeRoundTrip : Obligations.DecodeEncodeRoundTrip := fun i h =>
  ⟨decodeWord_encode h, (decodeTableWord_toNat (encode i)).mpr (decodeWord_encode h)⟩

/-- Settles O4: each word is decoded. -/
theorem writtenOutWordsDecode : Obligations.WrittenOutWordsDecode := by
  unfold Obligations.WrittenOutWordsDecode
  decide

/-- The format has the operand `a` (R74). -/
def Format.usesA : Format → Bool
  | .a | .ab => true
  | .z | .b => false

/-- The format has the operand `b` (R74). -/
def Format.usesB : Format → Bool
  | .b | .ab => true
  | .z | .a => false

theorem Format.usesA_iff {f : Format} : f.usesA = true ↔ f = .a ∨ f = .ab := by
  cases f <;> decide

theorem Format.usesB_iff {f : Format} : f.usesB = true ↔ f = .b ∨ f = .ab := by
  cases f <;> decide

theorem Format.not_usesA_iff {f : Format} : f.usesA = false ↔ f = .z ∨ f = .b := by
  cases f <;> decide

theorem Format.not_usesB_iff {f : Format} : f.usesB = false ↔ f = .z ∨ f = .a := by
  cases f <;> decide

/-- An opcode and two field values decode to the command with that opcode whose operands are the
fields its format uses; the others are absent. -/
theorem decodeOp_eq_some_iff {op : BitVec 8} {a b : Nat} {i : Instr} :
    decodeOp op a b = some i ↔
      opcode i = op ∧ operandA i = (if (format i).usesA then a else 0)
        ∧ operandB i = (if (format i).usesB then b else 0) := by
  constructor
  · intro h
    unfold decodeOp at h
    split at h <;> cases h <;> exact ⟨rfl, rfl, rfl⟩
  · rintro ⟨rfl, ha, hb⟩
    cases i <;> cases ha <;> cases hb <;> rfl

theorem operandA_eq_zero {i : Instr} (h : (format i).usesA = false) : operandA i = 0 := by
  obtain ⟨-, ha, -⟩ := decodeOp_eq_some_iff.mp (decodeOp_opcode i)
  simpa [h] using ha

theorem operandB_eq_zero {i : Instr} (h : (format i).usesB = false) : operandB i = 0 := by
  obtain ⟨-, -, hb⟩ := decodeOp_eq_some_iff.mp (decodeOp_opcode i)
  simpa [h] using hb

theorem wellFormed_iff (i : Instr) :
    i.wellFormed = true ↔ operandA i < 2 ^ 16 ∧ operandB i < 2 ^ 40 := by
  cases i <;> simp [Instr.wellFormed, fitsA, fitsB, operandA, operandB]

theorem aField_lt (w : Word) : aField w < 2 ^ 16 := (w.extractLsb' 40 16).isLt

theorem bField_lt (w : Word) : bField w < 2 ^ 40 := (w.extractLsb' 0 40).isLt

/-- Every word's operands fit their fields, so what is decoded can be written again. -/
theorem wellFormed_of_decodeWord {w : Word} {i : Instr} (h : decodeWord w = .ok i) :
    i.wellFormed = true := by
  obtain ⟨-, ha, hb⟩ := decodeOp_eq_some_iff.mp (decodeWord_eq_ok_iff.mp h)
  rw [wellFormed_iff, ha, hb]
  constructor
  · split
    · exact aField_lt w
    · decide
  · split
    · exact bField_lt w
    · decide

/-- Settles O2: each clause is a reading of `decodeOp_eq_some_iff`. -/
theorem formatsSelectOperandFields : Obligations.FormatsSelectOperandFields := by
  unfold Obligations.FormatsSelectOperandFields
  simp only [← Format.usesA_iff, ← Format.usesB_iff, ← Format.not_usesA_iff,
    ← Format.not_usesB_iff]
  refine ⟨fun w i h => ?_, fun w w' i h hop hA hB => ?_, fun i => ⟨fun hA => ?_, fun hB => ?_⟩⟩
  · obtain ⟨hop, ha, hb⟩ := decodeOp_eq_some_iff.mp (decodeWord_eq_ok_iff.mp h)
    exact ⟨hop, wellFormed_of_decodeWord h, fun hA => by rw [ha, if_pos hA],
      fun hB => by rw [hb, if_pos hB], operandA_eq_zero, operandB_eq_zero⟩
  · rw [decodeWord_eq_ok_iff, decodeOp_eq_some_iff] at h ⊢
    rwa [hop, ite_congr rfl hA fun _ => rfl, ite_congr rfl hB fun _ => rfl]
  · rw [encode, aField_assemble, operandA_eq_zero hA, Nat.zero_mod]
  · rw [encode, bField_assemble, operandB_eq_zero hB, Nat.zero_mod]

end Sys2Proof

namespace Sys2Proof.Machine

/-- The opcodes that R79 lists are those that the opcode map does not have. -/
theorem illegalOpcode_iff (op : BitVec 8) (a b : Nat) :
    illegalOpcode op.toNat = true ↔ decodeOp op a b = none := by
  unfold decodeOp
  split
  case h_31 =>
    simp only [illegalOpcode, Bool.or_eq_true, Bool.and_eq_true, decide_eq_true_eq, iff_true,
      imp_false, ← BitVec.toNat_inj, BitVec.toNat_ofNat] at *
    omega
  all_goals simp [illegalOpcode]

theorem illegalOpcode_opField_iff (w : Word) :
    illegalOpcode (opField w).toNat = true ↔ ∀ i, decodeWord w ≠ .ok i := by
  simp only [illegalOpcode_iff _ (aField w) (bField w), Option.eq_none_iff_forall_ne_some, ne_eq,
    decodeWord_eq_ok_iff]

theorem runWord_illegalOpcode {w : Word} (h : illegalOpcode (opField w).toNat = true) (s : State) :
    runWord w s = .next (s.err 6#8) := by
  obtain ⟨i, hi, -⟩ | ⟨-, hrun⟩ := runWord_cases w s
  · exact absurd hi ((illegalOpcode_opField_iff w).mp h i)
  · exact hrun

/-- Settles O3: R79's list against the opcode map, and the run of a word without a command. -/
theorem illegalOpcodeFailsWithIllegalCommand : Obligations.IllegalOpcodeFailsWithIllegalCommand :=
  ⟨rfl, rfl, illegalOpcode_opField_iff, fun _ s h => runWord_illegalOpcode h s⟩

end Sys2Proof.Machine
end

section
/-! SUPPORT. The handshake of the ports (30_encoding.md R71, R72): what an edge without reset does,
with and without a response waiting. -/

namespace Sys2Proof.Machine

theorem portOut_cmdReady_iff (s : State) : (portOut false s).cmdReady = true ↔ s.rsp = none :=
  Option.isNone_iff_eq_none

theorem portOut_rspValid_iff (s : State) :
    (portOut false s).rspValid = true ↔ ∃ r, s.rsp = some r :=
  Option.isSome_iff_exists

section

variable {s : State} {p : PortIn} {rest : List PortIn}

theorem step_eq_edge (hl : legalParams s.par = true) (hin : s.inputs = p :: rest) :
    step s = edge p (s.setInputs rest) := by
  rw [step_legal hl, nextEdge, hin]

theorem step_of_idle (hl : legalParams s.par = true) (hin : s.inputs = p :: rest)
    (hrst : p.rst = false) (hrsp : s.rsp = none) :
    step s = if p.cmdValid then runWord p.cmdWord (s.setInputs rest)
      else .next (s.setInputs rest) := by
  rw [step_eq_edge hl hin]
  simp [edge, hrst, hrsp]

theorem step_of_waiting {r : Response} (hl : legalParams s.par = true)
    (hin : s.inputs = p :: rest) (hrst : p.rst = false) (hrsp : s.rsp = some r) :
    step s = if p.rspReady then .next ((s.setInputs rest).setRsp none)
      else .next (s.setInputs rest) := by
  rw [step_eq_edge hl hin]
  simp [edge, hrst, hrsp]

end

/-- Settles O6: the edge by whether a response waits and by what the host drives. -/
theorem portHandshake : Obligations.PortHandshake := by
  intro s p rest hl hin hrst
  rw [hrst, portOut_cmdReady_iff, portOut_rspValid_iff]
  refine ⟨fun hrsp hv => ?_, fun hrsp hv => ?_, fun ⟨r, hrsp⟩ hy => ?_,
    fun ⟨r, hrsp⟩ hy => ⟨?_, rfl⟩, ?_⟩
  · exact (step_of_idle hl hin hrst hrsp).trans (if_pos hv)
  · exact (step_of_idle hl hin hrst hrsp).trans (by rw [hv]; rfl)
  · exact (step_of_waiting hl hin hrst hrsp).trans (if_pos hy)
  · exact (step_of_waiting hl hin hrst hrsp).trans (by rw [hy]; rfl)
  · exact (Option.not_isSome s.rsp).symm

theorem runWord_of_decodeWord {w : Word} {i : Instr} (h : decodeWord w = .ok i) (s : State) :
    runWord w s = exec i s := by
  rw [runWord, h]

theorem step_command {s : State} {p : PortIn} {rest : List PortIn} {i : Instr}
    (hl : legalParams s.par = true) (hin : s.inputs = p :: rest) (hrst : p.rst = false)
    (hv : p.cmdValid = true) (hrsp : s.rsp = none) (hi : decodeWord p.cmdWord = .ok i) :
    step s = exec i (s.setInputs rest) := by
  rw [step_of_idle hl hin hrst hrsp, if_pos hv, runWord_of_decodeWord hi]

/-- Settles O5: an accepted word, and the offer of `withFetchWord` as one. -/
theorem stepRunsAcceptedCommand : Obligations.StepRunsAcceptedCommand :=
  ⟨fun _ _ _ _ hl hin hrst hv hrsp hi => step_command hl hin hrst hv hrsp hi,
    fun s w _ hl hi => step_command (s := s.withFetchWord 64 w) hl rfl rfl rfl rfl
      (decodeTableWord_eq_some_iff.mp hi)⟩

end Sys2Proof.Machine
end

section
/-! SUPPORT. PQ.CLEAR, PQ.SIZE and PQ.INSERT (40_ordered_sequence.md R91, R93 to R95, R100): where an
insertion puts its pointer, and that it keeps equal keys in their order. -/

namespace Sys2Proof.Machine

theorem pqAt_of_getElem? {pq : List Nat} {i q : Nat} (h : pq[i]? = some q) : pqAt i pq = q := by
  simp [pqAt, h]

/-- Settles O29: each command's rule, and clause (a) of the invariant. -/
theorem sequenceClearAndSize : Obligations.SequenceClearAndSize :=
  fun _ _ _ => ⟨⟨rfl, rfl⟩, rfl, rfl, Inv.sequenceSize⟩

theorem exec_pqInsert_unallocated {s : State} {a : Nat} (h : s.nodes.length ≤ a) :
    exec (.pqInsert a) s = .next (s.err 7#8) := by
  simp [exec, execPqInsert, h, raise_primitive, Kind.code]

theorem exec_pqInsert_full {s : State} {a : Nat} (ha : a < s.nodes.length)
    (hfull : s.pq.length = pqCap) : exec (.pqInsert a) s = .next (s.err 5#8) := by
  simp [exec, execPqInsert, ha, hfull, raise_primitive, Kind.code]

theorem exec_pqInsert_ok {s : State} {a : Nat} (ha : a < s.nodes.length)
    (hroom : s.pq.length ≠ pqCap) :
    exec (.pqInsert a) s
      = .next ((s.setPq (pqInsert s.nodes a s.pq)).ok (natWord (pqPosition s.nodes a s.pq))) := by
  simp [exec, execPqInsert, ha, hroom, respond_eq]

/-- No element in front of the position is `Greater` than the new one (R91). -/
theorem not_greater_of_mem_take {nodes : List Node} {p q : Nat} {pq : List Nat}
    (h : q ∈ pq.take (pqPosition nodes p pq)) : greater nodes q p = false := by
  obtain ⟨i, hi, rfl⟩ := List.mem_take_iff_getElem.mp h
  have hlt := Nat.lt_of_lt_of_le hi (Nat.min_le_left ..)
  rw [← pqAt_of_getElem? (List.getElem?_eq_getElem _)]
  exact pqPosition_before hlt

/-- The element at the position is `Greater` than the new one (R91). -/
theorem greater_of_getElem?_position {nodes : List Node} {p q : Nat} {pq : List Nat}
    (h : pq[pqPosition nodes p pq]? = some q) : greater nodes q p = true := by
  obtain ⟨hlt, -⟩ := List.getElem?_eq_some_iff.mp h
  rw [← pqAt_of_getElem? h]
  exact pqPosition_at hlt

/-- Settles O30: the position is that of `pqPosition`, and the sequence is that of `pqInsert`. -/
theorem insertBeforeFirstGreater : Obligations.InsertBeforeFirstGreater := by
  intro s a b
  refine ⟨rfl, exec_pqInsert_unallocated, exec_pqInsert_full, fun ha hroom =>
    ⟨pqPosition s.nodes a s.pq, pqPosition_le .., ?_, fun q => not_greater_of_mem_take,
      fun q => greater_of_getElem?_position, fun hrank => ?_⟩⟩
  · rw [exec_pqInsert_ok ha hroom, pqInsert_eq]
    rfl
  · rw [← pqInsert_eq]
    exact hrank.pqInsert a

/-- What is not `Less` than an element `Greater` than `p` is `Greater` than `p` itself. -/
theorem greater_of_not_less {nodes : List Node} {p q x : Nat} (hq : greater nodes q p = true)
    (hx : less nodes x q = false) : greater nodes x p = true := by
  by_contra hg
  have hpq : less nodes p q = false := not_keyLess_trans hx (Bool.eq_false_iff.mpr hg)
  exact Bool.eq_false_iff.mp hpq hq

/-- In rank order every element from the position on is `Greater` than the new one (R93). -/
theorem RankOrdered.greater_of_mem_drop {nodes : List Node} {p x : Nat} {pq : List Nat}
    (h : RankOrdered nodes pq) (hx : x ∈ pq.drop (pqPosition nodes p pq)) :
    greater nodes x p = true := by
  induction pq with
  | nil => simp at hx
  | cons q rest ih =>
    obtain ⟨hq, hrest⟩ := List.pairwise_cons.mp h
    rw [pqPosition] at hx
    split at hx
    · next hg =>
      rcases List.mem_cons.mp hx with rfl | hx
      · exact hg
      · exact greater_of_not_less hg (hq x hx)
    · exact ih hrest hx

/-- A node with the same key is not `Greater`. -/
theorem not_greater_of_key_eq {nodes : List Node} {p q : Nat}
    (hw : (nodeAt nodes q).weight = (nodeAt nodes p).weight)
    (hv : (nodeAt nodes q).value = (nodeAt nodes p).value) : greater nodes q p = false :=
  (keyLess_false_iff _ _).mpr (.inr ⟨hw.symm, by rw [hv]⟩)

theorem exec_pqRemove_sublist {i : Instr} {s t : State} {b : Nat}
    (hi : i = .pqRemoveAt b ∨ i = .pqRemoveVal b) (h : exec i s = .next t) :
    t.pq.Sublist s.pq := by
  obtain ⟨d, u, hu, rfl⟩ | ⟨k, rfl⟩ := exec_cases h
  · rcases hi with rfl | rfl <;> cases hu with
    | read hread => cases hread
    | _ => exact List.eraseIdx_sublist ..
  · rcases hi with rfl | rfl <;> exact List.Sublist.refl _

/-- Settles O31: an insertion by the elements behind its position, a removal by what it erases. -/
theorem equalKeysKeepInsertionOrder : Obligations.EqualKeysKeepInsertionOrder := by
  refine ⟨fun s t a d hrank h hd => ?_, fun _ _ _ _ => exec_pqRemove_sublist⟩
  obtain ⟨-, d', u, hu, rfl⟩ | ⟨hfail, -⟩ := exec_rsp_cases h hd
  · cases hu with
    | read hread => cases hread
    | pqInsert =>
      refine ⟨_, _, pqInsert_eq .., (List.take_append_drop ..).symm, fun q hq ⟨hw, hv⟩ => ?_⟩
      exact Bool.eq_false_iff.mp (not_greater_of_key_eq hw hv) (hrank.greater_of_mem_drop hq)
  · exact absurd rfl hfail

end Sys2Proof.Machine
end

section
/-! SUPPORT. PQ.REMOVEAT and PQ.PEEKAT (40_ordered_sequence.md R92, R96, R97), by index. -/

namespace Sys2Proof.Machine

theorem exec_pqRemoveAt_beyond {s : State} {b : Nat} (h : s.pq.length ≤ b) :
    exec (.pqRemoveAt b) s = .next (s.err 1#8) := by
  simp [exec, execPqRemoveAt, h, raise_primitive, Kind.code]

theorem exec_pqPeekAt_beyond {s : State} {b : Nat} (h : s.pq.length ≤ b) :
    exec (.pqPeekAt b) s = .next (s.err 1#8) := by
  simp [exec, execPqPeekAt, h, raise_primitive, Kind.code]

theorem exec_pqRemoveAt_ok {s : State} {b : Nat} (h : b < s.pq.length) :
    exec (.pqRemoveAt b) s
      = .next ((s.setPq (pqRemoveAt b s.pq)).ok (natWord (pqAt b s.pq))) := by
  simp [exec, execPqRemoveAt, h, respond_eq]

theorem exec_pqPeekAt_ok {s : State} {b : Nat} (h : b < s.pq.length) :
    exec (.pqPeekAt b) s = .next (s.ok (natWord (pqAt b s.pq))) := by
  simp [exec, execPqPeekAt, h, respond_eq]

/-- A removal keeps the rank order (R92). -/
theorem RankOrdered.pqRemoveAt {nodes : List Node} {pq : List Nat} (h : RankOrdered nodes pq)
    (i : Nat) : RankOrdered nodes (pqRemoveAt i pq) :=
  h.sublist (List.eraseIdx_sublist ..)

/-- Settles O32: an index below the size and one that is not. -/
theorem removeAndPeekByIndex : Obligations.RemoveAndPeekByIndex := by
  intro s a b
  refine ⟨⟨rfl, rfl⟩, fun h => ⟨exec_pqRemoveAt_beyond h, exec_pqPeekAt_beyond h⟩, fun p hp => ?_⟩
  obtain ⟨hlt, -⟩ := List.getElem?_eq_some_iff.mp hp
  rw [exec_pqRemoveAt_ok hlt, exec_pqPeekAt_ok hlt, pqAt_of_getElem? hp, ← pqRemoveAt_eq]
  exact ⟨rfl, rfl, fun hrank => hrank.pqRemoveAt b⟩

end Sys2Proof.Machine
end

section
/-! SUPPORT. PQ.REMOVEVAL and PQ.CONTAINS (40_ordered_sequence.md R98, R99): what the scan for a value
finds, and each command on it. -/

namespace Sys2Proof.Machine

/-- Structurally equal nodes have the same key (41_tree_builder.md R107). -/
theorem nodeEq_key {nodes : List Node} {p q : Nat} (h : nodeEq nodes p q = true) :
    (nodeAt nodes p).weight = (nodeAt nodes q).weight
      ∧ (nodeAt nodes p).value = (nodeAt nodes q).value := by
  simp only [nodeEq, nodeEqTo, Bool.and_eq_true, decide_eq_true_eq] at h
  exact ⟨h.1.2, h.1.1⟩

/-- The early stop never hides a match: in rank order the scan finds the first structurally equal
element (R98). -/
theorem RankOrdered.pqFind_eq {nodes : List Node} {pq : List Nat} (h : RankOrdered nodes pq)
    (a : Nat) : pqFind nodes a pq = pq.findIdx? fun q => nodeEq nodes q a := by
  induction pq with
  | nil => rfl
  | cons q rest ih =>
    obtain ⟨hq, hrest⟩ := List.pairwise_cons.mp h
    rw [pqFind, List.findIdx?_cons, ih hrest]
    split
    · rfl
    · split
      · next hg =>
        have hnone : rest.findIdx? (fun x => nodeEq nodes x a) = none := by
          refine List.findIdx?_eq_none_iff.mpr fun x hx => Bool.eq_false_iff.mpr fun heq => ?_
          obtain ⟨hw, hv⟩ := nodeEq_key heq
          exact Bool.eq_false_iff.mp (not_greater_of_key_eq hw hv)
            (greater_of_not_less hg (hq x hx))
        rw [hnone, Option.map_none]
      · rfl

theorem RankOrdered.pqFind_eq_none {nodes : List Node} {pq : List Nat} {a : Nat}
    (h : RankOrdered nodes pq) (hnone : ∀ q ∈ pq, nodeEq nodes q a = false) :
    pqFind nodes a pq = none := by
  rw [h.pqFind_eq, List.findIdx?_eq_none_iff]
  exact hnone

theorem RankOrdered.pqFind_eq_some {nodes : List Node} {pq : List Nat} {a i q : Nat}
    (h : RankOrdered nodes pq) (hi : pq[i]? = some q) (hq : nodeEq nodes q a = true)
    (hfirst : ∀ q' ∈ pq.take i, nodeEq nodes q' a = false) : pqFind nodes a pq = some i := by
  obtain ⟨hlt, rfl⟩ := List.getElem?_eq_some_iff.mp hi
  rw [h.pqFind_eq, List.findIdx?_eq_some_iff_getElem]
  exact ⟨hlt, hq, fun j hj =>
    Bool.eq_false_iff.mp (hfirst _ (List.mem_take_iff_getElem.mpr ⟨j, by omega, rfl⟩))⟩

theorem exec_pqRemoveVal_unallocated {s : State} {a : Nat} (h : s.nodes.length ≤ a) :
    exec (.pqRemoveVal a) s = .next (s.err 7#8) := by
  simp [exec, execPqRemoveVal, h, raise_primitive, Kind.code]

theorem exec_pqContains_unallocated {s : State} {a : Nat} (h : s.nodes.length ≤ a) :
    exec (.pqContains a) s = .next (s.err 7#8) := by
  simp [exec, execPqContains, h, raise_primitive, Kind.code]

theorem exec_pqRemoveVal_absent {s : State} {a : Nat} (ha : a < s.nodes.length)
    (h : pqFind s.nodes a s.pq = none) : exec (.pqRemoveVal a) s = .next (s.err 2#8) := by
  simp [exec, execPqRemoveVal, ha, h, raise_primitive, Kind.code]

theorem exec_pqRemoveVal_found {s : State} {a i : Nat} (ha : a < s.nodes.length)
    (h : pqFind s.nodes a s.pq = some i) :
    exec (.pqRemoveVal a) s = .next ((s.setPq (pqRemoveAt i s.pq)).ok (natWord i)) := by
  simp [exec, execPqRemoveVal, ha, h, respond_eq]

theorem exec_pqContains_absent {s : State} {a : Nat} (ha : a < s.nodes.length)
    (h : pqFind s.nodes a s.pq = none) : exec (.pqContains a) s = .next (s.ok 0#64) := by
  simp [exec, execPqContains, ha, h, respond_eq, natWord]

theorem exec_pqContains_found {s : State} {a i : Nat} (ha : a < s.nodes.length)
    (h : pqFind s.nodes a s.pq = some i) : exec (.pqContains a) s = .next (s.ok 1#64) := by
  simp [exec, execPqContains, ha, h, respond_eq, natWord]

/-- Settles O33: what the scan finds, by the rank order of the invariant, and the two commands on
it. -/
theorem removeAndFindByValue : Obligations.RemoveAndFindByValue := by
  intro s a b
  refine ⟨⟨rfl, rfl⟩,
    fun h => ⟨exec_pqRemoveVal_unallocated h, exec_pqContains_unallocated h⟩,
    fun hinv ha hnone => ?_, fun i q hinv ha hi hq hfirst => ?_⟩
  · have hfind := hinv.rankOrder.pqFind_eq_none hnone
    exact ⟨exec_pqRemoveVal_absent ha hfind, exec_pqContains_absent ha hfind⟩
  · have hfind := hinv.rankOrder.pqFind_eq_some hi hq hfirst
    rw [exec_pqRemoveVal_found ha hfind, exec_pqContains_found ha hfind, pqRemoveAt_eq]
    exact ⟨rfl, rfl⟩

end Sys2Proof.Machine
end

section
/-! SUPPORT. Runs of the sequencer (40_ordered_sequence.md R101, 70_reset_and_hazards.md R230): what
finitely many state visits lead to, and what a unit keeps for the command that called it. -/

namespace Sys2Proof.Machine

/-- Finitely many state visits from `m` lead to a state of the sequencer where `P` holds. -/
def Leads (m : Micro) (P : Micro → Prop) : Prop := ∃ n, P (microRun n m)

/-- `SequencerAgrees` by definition: the run ends in `IDLE` with the state and response of `exec`. -/
theorem sequencerAgrees_iff (i : Instr) (s : State) :
    SequencerAgrees i s ↔
      Leads (Micro.begin i s) fun m => m.seq = .idle ∧ exec i s = .next m.st := Iff.rfl

theorem microRun_add (n k : Nat) (m : Micro) :
    microRun (n + k) m = microRun k (microRun n m) := by
  induction n generalizing m with
  | zero => rw [Nat.zero_add, microRun]
  | succ n ih => rw [Nat.succ_add, microRun, microRun, ih]

/-- What the units of R101, R118, R134 and R152 leave as their caller set it: the command, the
`CONFIG.PACK` it read, the bounds of its header and body, and the bit packer's registers. -/
def Micro.context (m : Micro) : Instr × Bool × Nat × Nat × Byte × Nat :=
  (m.cmd, m.pack, m.work.hdrEnd, m.work.bodyStart, m.work.pkByte, m.work.pkCnt)

theorem Micro.cmd_eq_of_context {m m' : Micro} (h : m'.context = m.context) : m'.cmd = m.cmd :=
  congrArg Prod.fst h

/-- The last visit of a command answers as `respond` does. -/
theorem Micro.next_finish (d : Word) (m : Micro) :
    Host.Outcome.next (m.finish d).st = respond d m.st := rfl

/-- A unit started at `m` comes to its end `f`, with the architectural state `t` and the context of
`m`. -/
def Reaches (m : Micro) (t : State) (f : Micro → Micro) : Prop :=
  Leads m fun m' => ∃ m₀ : Micro, m₀.st = t ∧ m₀.context = m.context ∧ m' = f m₀

section

variable {m m' : Micro} {P Q : Micro → Prop} {t u : State} {f g : Micro → Micro}

theorem Leads.here (h : P m) : Leads m P := ⟨0, h⟩

theorem Leads.visit (hm : microStep m = m') (h : Leads m' P) : Leads m P := by
  obtain ⟨n, hn⟩ := h
  exact ⟨n + 1, by rwa [microRun, hm]⟩

theorem Leads.trans (h : Leads m P) (hP : ∀ m', P m' → Leads m' Q) : Leads m Q := by
  obtain ⟨n, hn⟩ := h
  obtain ⟨k, hk⟩ := hP _ hn
  exact ⟨n + k, by rwa [microRun_add]⟩

/-- The last visit of a unit. -/
theorem Reaches.last {m₀ : Micro} (hm : microStep m = f m₀) (hst : m₀.st = t)
    (hctx : m₀.context = m.context) : Reaches m t f :=
  .visit hm (.here ⟨m₀, hst, hctx, rfl⟩)

/-- A unit may begin with a run to a known state. -/
theorem Leads.reaches (h : Leads m (· = m')) (hctx : m'.context = m.context)
    (h' : Reaches m' t f) : Reaches m t f := by
  refine h.trans ?_
  rintro _ rfl
  rwa [Reaches, hctx] at h'

theorem Reaches.visit (hm : microStep m = m') (hctx : m'.context = m.context)
    (h : Reaches m' t f) : Reaches m t f :=
  Leads.reaches (.visit hm (.here rfl)) hctx h

/-- What the end `f` of a unit leads to, the unit leads to. -/
theorem Reaches.leads (h : Reaches m t f)
    (hf : ∀ m₀ : Micro, m₀.st = t → m₀.cmd = m.cmd → Leads (f m₀) P) : Leads m P := by
  refine Leads.trans h ?_
  rintro _ ⟨m₀, hst, hctx, rfl⟩
  exact hf m₀ hst (m.cmd_eq_of_context hctx)

/-- One unit after another: `g` starts from wherever `f` ends. -/
theorem Reaches.trans (h : Reaches m t f) (hf : ∀ m₀ : Micro, (f m₀).context = m₀.context)
    (hg : ∀ m₀ : Micro, m₀.st = t → m₀.context = m.context → Reaches (f m₀) u g) :
    Reaches m u g := by
  refine Leads.trans h ?_
  rintro _ ⟨m₀, hst, hctx, rfl⟩
  have hnext := hg m₀ hst hctx
  rwa [Reaches, hf, hctx] at hnext

end

end Sys2Proof.Machine
end

section
/-! SUPPORT. The sub-machines of the Ordered Sequence (40_ordered_sequence.md R101) and the commands
that are nothing more: the scan and the shift of an insertion, the removal, and the scan for a value. -/

namespace Sys2Proof.Machine

/-- The position the scan of `PQ_SCAN` ends at (R91). -/
def Micro.position (m : Micro) : Nat := pqPosition m.st.nodes m.element m.st.pq

/-- `ins_pos` at the end of the scan. -/
def Micro.atPosition (m : Micro) : Micro := m.regs fun w => { w with insPos := m.position }

/-- `PQ_SCAN` passes the `n` elements between `ins_pos` and the position, and stops. -/
theorem pqScan_leads {n : Nat} {m : Micro} (hseq : m.seq = .pqScan)
    (hn : m.work.insPos + n = m.position) : Leads m (· = m.atPosition.goto .pqShup) := by
  induction n generalizing m with
  | zero =>
    have heq : m.work.insPos = m.position := hn
    have hstay : m.atPosition = m := by rw [Micro.atPosition, ← heq]; rfl
    have hstop : ¬ (m.work.insPos < m.st.pq.length
        ∧ greater m.st.nodes (pqAt m.work.insPos m.st.pq) m.element = false) := by
      rw [heq]
      exact fun ⟨hlt, hg⟩ => Bool.eq_false_iff.mp hg (pqPosition_at hlt)
    refine .visit (m' := m.goto .pqShup) ?_ (.here (by rw [hstay]))
    simp only [microStep, hseq, pqScanStep, if_neg hstop]
  | succ n ih =>
    have hlt : m.work.insPos < m.position := by omega
    have hgo : m.work.insPos < m.st.pq.length
        ∧ greater m.st.nodes (pqAt m.work.insPos m.st.pq) m.element = false :=
      ⟨Nat.lt_of_lt_of_le hlt (pqPosition_le ..), pqPosition_before hlt⟩
    refine .visit ?_ (ih (m := m.regs fun w => { w with insPos := w.insPos + 1 }) hseq
      ((Nat.succ_add_eq_add_succ ..).trans hn))
    simp only [microStep, hseq, pqScanStep, if_pos hgo]

theorem insertIdx_set_self (l : List Nat) (k x p : Nat) :
    (l.insertIdx k x).set k p = l.insertIdx k p := by
  induction k generalizing l with
  | zero => simp
  | succ k ih =>
    cases l with
    | nil => simp
    | cons a l => simp [ih]

theorem take_append_pqAt {l : List Nat} {n : Nat} (h : l.length = n + 1) :
    l.take n ++ [pqAt n l] = l := by
  have hn : n < l.length := by omega
  rw [pqAt, List.getD_eq_getElem _ _ hn, List.take_append_getElem hn, ← h, List.take_length]

/-- What `PQ_SHUP` and `PQ_WRITE` do to the sequence together: the entries from `k` on move up, the
highest beyond the count, and `p` is written at `k`. -/
theorem shift_set_eq_insertIdx {pq : List Nat} {k : Nat} (hk : k ≤ pq.length) (x p : Nat) :
    ((pq.insertIdx k x).take pq.length ++ [pqAt pq.length (pq.insertIdx k x)]).set k p
      = pq.insertIdx k p := by
  rw [take_append_pqAt (List.length_insertIdx_of_le_length hk x), insertIdx_set_self]

/-- After `PqInsert`: the sequence, `ins_pos`, and the entry that was moved beyond the count. -/
def Micro.inserted (m : Micro) : Micro :=
  { m.atPosition with
    st := m.st.setPq (pqInsert m.st.nodes m.element m.st.pq)
    spill := pqAt m.st.pq.length (m.st.pq.insertIdx m.position (pqAt m.position m.st.pq))
    seq := .pqWrite }

/-- `PQ_SHUP` and `PQ_WRITE` insert the element at `ins_pos`. -/
theorem pqShup_pqWrite (m : Micro) :
    microStep (microStep (m.atPosition.goto .pqShup)) = pqWriteNext m.inserted := by
  rw [Micro.inserted, pqInsert,
    ← shift_set_eq_insertIdx (pqPosition_le ..) (pqAt m.position m.st.pq) m.element]
  rfl

/-- `PqInsert` by the sequencer, up to the caller's next state (R101). -/
theorem insert_leads {m : Micro} (hseq : m.seq = .pqScan) (hstart : m.work.insPos = 0) :
    Leads m (· = pqWriteNext m.inserted) := by
  refine (pqScan_leads hseq (by rw [hstart, Nat.zero_add])).trans ?_
  rintro _ rfl
  exact .visit rfl (.visit rfl (.here (pqShup_pqWrite m)))

/-- PQ.INSERT by its table. -/
theorem sequencerAgrees_pqInsert (a : Nat) (s : State) : SequencerAgrees (.pqInsert a) s := by
  rw [sequencerAgrees_iff]
  simp only [Micro.begin, exec, execPqInsert]
  split
  · exact .here ⟨rfl, rfl⟩
  · split
    · exact .here ⟨rfl, rfl⟩
    · refine (insert_leads rfl rfl).trans ?_
      rintro _ rfl
      exact .here ⟨rfl, rfl⟩

/-- PQ.REMOVEAT by its table. -/
theorem sequencerAgrees_pqRemoveAt (b : Nat) (s : State) : SequencerAgrees (.pqRemoveAt b) s := by
  rw [sequencerAgrees_iff]
  simp only [Micro.begin, exec, execPqRemoveAt]
  split
  · exact .here ⟨rfl, rfl⟩
  · exact .visit rfl (.here ⟨rfl, rfl⟩)

/-- What `PQ_FIND` does when its scan ends: with nothing found, or with an element at position `i`. -/
def findEnd (found : Option Nat) (m : Micro) : Micro :=
  match found with
  | none =>
    match m.cmd with
    | .pqContains _ => m.finish 0#64
    | _ => m.raise .primitive .notFound
  | some i =>
    match m.cmd with
    | .pqContains _ => (m.regs fun w => { w with insPos := i }).finish 1#64
    | _ => (m.regs fun w => { w with insPos := i }).call .pqShdn .removeValCmd

/-- The entry a scan reads at `k`, and what is left behind it. -/
theorem getD_of_drop_eq_cons {α : Type} {l rest : List α} {k : Nat} {x : α}
    (h : l.drop k = x :: rest) (default : α) :
    k < l.length ∧ l.getD k default = x ∧ l.drop (k + 1) = rest := by
  have hlt : k < l.length := by
    by_contra hge
    simp [List.drop_eq_nil_of_le (Nat.le_of_not_lt hge)] at h
  rw [List.drop_eq_getElem_cons hlt] at h
  cases h
  exact ⟨hlt, List.getD_eq_getElem .., rfl⟩

/-- The scan of `PQ_FIND` over what is left of the sequence (R98, R99). -/
theorem pqFind_reaches {m : Micro} {rest : List Nat} (hseq : m.seq = .pqFind)
    (hrest : m.st.pq.drop m.work.insPos = rest) :
    Reaches m m.st
      (findEnd ((pqFind m.st.nodes (operandA m.cmd) rest).map (m.work.insPos + ·))) := by
  induction rest generalizing m with
  | nil =>
    have hend : ¬ m.work.insPos < m.st.pq.length :=
      Nat.not_lt.mpr (List.drop_eq_nil_iff.mp hrest)
    refine .last (m₀ := m) ?_ rfl rfl
    simp only [microStep, hseq, pqFindStep, if_neg hend]
    rfl
  | cons q rest ih =>
    obtain ⟨hlt, (hq : pqAt _ _ = q), hrest⟩ := getD_of_drop_eq_cons hrest 0
    have hstep : microStep m = pqFindStep m := by simp only [microStep, hseq]
    simp only [pqFindStep, if_pos hlt, hq] at hstep
    rw [pqFind]
    split
    · next heq =>
      rw [if_pos heq] at hstep
      exact .last (m₀ := m) hstep rfl rfl
    · next hne =>
      rw [if_neg hne] at hstep
      split
      · next hg =>
        rw [if_pos hg] at hstep
        exact .last (m₀ := m) hstep rfl rfl
      · next hg =>
        have hshift : ((m.work.insPos + ·) ∘ (· + 1)) = (m.work.insPos + 1 + ·) :=
          funext fun i => (Nat.succ_add_eq_add_succ ..).symm
        rw [if_neg hg] at hstep
        rw [Option.map_map, hshift]
        exact .visit hstep rfl
          (ih (m := m.regs fun w => { w with insPos := w.insPos + 1 }) hseq hrest)

/-- The whole scan of `PQ_FIND` in a command `i` on state `s`. -/
theorem find_reaches {i : Instr} {s : State} {m : Micro} (hseq : m.seq = .pqFind)
    (hstart : m.work.insPos = 0) (hcmd : m.cmd = i) (hst : m.st = s) :
    Reaches m s (findEnd (pqFind s.nodes (operandA i) s.pq)) := by
  subst hcmd hst
  simpa [hstart] using pqFind_reaches hseq rfl

/-- PQ.REMOVEVAL by its table. -/
theorem sequencerAgrees_pqRemoveVal (a : Nat) (s : State) : SequencerAgrees (.pqRemoveVal a) s := by
  rw [sequencerAgrees_iff]
  simp only [Micro.begin, exec, execPqRemoveVal]
  split
  · exact .here ⟨rfl, rfl⟩
  · refine (find_reaches (i := .pqRemoveVal a) (s := s) rfl rfl rfl rfl).leads ?_
    rintro m₀ rfl (hcmd : m₀.cmd = .pqRemoveVal a)
    rw [operandA]
    cases pqFind m₀.st.nodes a m₀.st.pq with
    | none =>
      rw [findEnd, hcmd]
      exact .here ⟨rfl, rfl⟩
    | some i =>
      rw [findEnd, hcmd]
      exact .visit rfl (.here ⟨rfl, rfl⟩)

/-- PQ.CONTAINS by its table. -/
theorem sequencerAgrees_pqContains (a : Nat) (s : State) : SequencerAgrees (.pqContains a) s := by
  rw [sequencerAgrees_iff]
  simp only [Micro.begin, exec, execPqContains]
  split
  · exact .here ⟨rfl, rfl⟩
  · refine (find_reaches (i := .pqContains a) (s := s) rfl rfl rfl rfl).leads ?_
    rintro m₀ rfl (hcmd : m₀.cmd = .pqContains a)
    rw [operandA]
    cases pqFind m₀.st.nodes a m₀.st.pq <;>
    · rw [findEnd, hcmd]
      exact .here ⟨rfl, rfl⟩

end Sys2Proof.Machine
end

section
/-! SUPPORT. The frequency counter (43_encoder.md R152): `FC_CLEAR`, `FC_COUNT` and FQ.COUNT; and how a
loop that writes one entry a visit clears a table. -/

namespace Sys2Proof.Machine

/-- The entries below `k` hold `v`: what a clearing loop has done after `k` visits. -/
def Table.FilledTo {α : Type} (v : α) (k : Nat) (t : Table α) : Prop :=
  ∀ u : Byte, u.toNat < k → t.get u = v

theorem Table.filledTo_zero {α : Type} (v : α) (t : Table α) : t.FilledTo v 0 :=
  fun _ hu => absurd hu (Nat.not_lt_zero _)

theorem Table.FilledTo.set {α : Type} {v : α} {k : Nat} {t : Table α} (h : t.FilledTo v k) :
    (t.set (byteOf k) v).FilledTo v (k + 1) := by
  intro u hu
  rw [Table.get_set]
  split
  · rfl
  · next hne =>
    refine h u (Nat.lt_of_le_of_ne (Nat.le_of_lt_succ hu) fun heq => hne ?_)
    rw [← heq, byteOf, BitVec.ofNat_toNat, BitVec.setWidth_eq]

theorem Table.FilledTo.eq_fill {α : Type} {v : α} {t : Table α} (h : t.FilledTo v nSym) :
    t = Table.fill v :=
  Table.ext_get fun u => by rw [Table.get_fill, h u u.isLt]

/-- `FC_CLEAR` clears the `n` entries from `sym` on. -/
theorem fcClear_reaches {n : Nat} {m : Micro} (hseq : m.seq = .fcClear)
    (hn : m.work.sym + n = nSym) (hdone : m.st.freq.FilledTo 0 m.work.sym) :
    Reaches m (m.st.setFreq (Table.fill 0))
      fun m₀ => (m₀.regs fun w => { w with ipos := 0 }).goto .fcCount := by
  induction n generalizing m with
  | zero =>
    have heq : m.work.sym = nSym := hn
    have hstep : microStep m = fcClearStep m := by rw [microStep, hseq]
    rw [fcClearStep, if_pos heq] at hstep
    rw [heq] at hdone
    exact .last (m₀ := m) hstep (by rw [← hdone.eq_fill]; rfl) rfl
  | succ n ih =>
    have hne : m.work.sym ≠ nSym := by omega
    have hstep : microStep m = fcClearStep m := by rw [microStep, hseq]
    rw [fcClearStep, if_neg hne] at hstep
    exact .visit hstep rfl
      (ih (m := Micro.regs _ _) hseq ((Nat.succ_add_eq_add_succ ..).trans hn) hdone.set)

/-- The end of `FC_COUNT`: the response of FQ.COUNT, or the next table of ENCODE (R152). -/
def countEnd (m : Micro) : Micro :=
  match m.cmd with
  | .encode => m.goto .tbInit
  | _ => m.finish (natWord m.st.ibuf.length)

/-- `FC_COUNT` counts the bytes from `ipos` on. -/
theorem fcCount_reaches {bytes : List Byte} {m : Micro} {s : State} (hseq : m.seq = .fcCount)
    (hst : m.st = s) (hbytes : s.ibuf.drop m.work.ipos = bytes) :
    Reaches m (s.setFreq (bytes.foldl bump s.freq)) countEnd := by
  subst hst
  induction bytes generalizing m with
  | nil =>
    have hend : ¬ m.work.ipos < m.st.ibuf.length :=
      Nat.not_lt.mpr (List.drop_eq_nil_iff.mp hbytes)
    have hstep : microStep m = fcCountStep m := by rw [microStep, hseq]
    rw [fcCountStep, if_neg hend] at hstep
    exact .last (m₀ := m) hstep rfl rfl
  | cons x xs ih =>
    obtain ⟨hlt, hx, hxs⟩ := getD_of_drop_eq_cons hbytes 0#8
    have hstep : microStep m = fcCountStep m := by rw [microStep, hseq]
    rw [fcCountStep, if_pos hlt, hx] at hstep
    exact .visit hstep rfl (ih (m := Micro.regs _ _) hseq hxs)

/-- `CountFrequencies()` by the sequencer: clearing, then counting. -/
theorem countFrequencies_reaches {m : Micro} (hseq : m.seq = .fcClear) (hsym : m.work.sym = 0) :
    Reaches m m.st.countFrequencies countEnd := by
  have hclear := fcClear_reaches (n := nSym) hseq (by rw [hsym, Nat.zero_add])
    (hsym.symm ▸ Table.filledTo_zero 0 m.st.freq)
  exact hclear.trans (fun _ => rfl) fun m₀ hst _ =>
    fcCount_reaches (m := Micro.goto .fcCount _) (s := m.st.setFreq (Table.fill 0)) rfl hst rfl

/-- FQ.COUNT by its table. -/
theorem sequencerAgrees_fqCount (s : State) : SequencerAgrees .fqCount s := by
  rw [sequencerAgrees_iff]
  refine (countFrequencies_reaches rfl rfl).leads ?_
  rintro m₀ (hst : m₀.st = s.countFrequencies) (hcmd : m₀.cmd = .fqCount)
  rw [countEnd, hcmd]
  refine .here ⟨rfl, ?_⟩
  rw [Micro.next_finish, hst]
  rfl

end Sys2Proof.Machine
end

section
/-! SUPPORT. The merge FSM (41_tree_builder.md R118): the leaf scan, the merge loop and TB.BUILD. -/

namespace Sys2Proof.Machine

/-- Node memory and the sequence, which a build works on (R116). -/
def State.forest (s : State) : Forest := ⟨s.nodes, s.pq⟩

/-- `NODE`, `nd_count`, `PQ`, `pq_size` from a forest. -/
def State.setForest (f : Forest) (s : State) : State := (s.setNodes f.nodes).setPq f.pq

/-- The entries a loop over the byte values has left at `k`. -/
theorem Table.entries_drop {α : Type} (t : Table α) {k : Nat} (hk : k < nSym) :
    t.entries.drop k = (byteOf k, t.get (byteOf k)) :: t.entries.drop (k + 1) := by
  have hlen : k < t.entries.length := by rwa [Table.entries_eq, List.length_map, symbols_length]
  rw [List.drop_eq_getElem_cons hlen]
  simp [Table.entries_eq, symbols_getElem]

/-- `TB_SCAN` and `TB_LEAF` from byte value `sym` on: the leaf scan (R116). -/
theorem tbScan_reaches {n : Nat} {m : Micro} {s : State} (hseq : m.seq = .tbScan) (hst : m.st = s)
    (hn : m.work.sym + n = nSym) :
    Reaches m (s.setForest ((s.freq.entries.drop m.work.sym).foldl scanLeaf s.forest))
      (Micro.goto .tbCheck) := by
  subst hst
  induction n generalizing m with
  | zero =>
    have hstep : microStep m = tbScanStep m := by rw [microStep, hseq]
    have heq : m.work.sym = nSym := hn
    have hnil : m.st.freq.entries.drop nSym = [] := by simp [Table.entries_eq]
    rw [tbScanStep, if_pos heq] at hstep
    rw [heq, hnil]
    exact .last (m₀ := m) hstep rfl rfl
  | succ n ih =>
    have hstep : microStep m = tbScanStep m := by rw [microStep, hseq]
    have hlt : m.work.sym < nSym := by omega
    have hnext := (Nat.succ_add_eq_add_succ m.work.sym n).trans hn
    rw [tbScanStep, if_neg (Nat.ne_of_lt hlt)] at hstep
    rw [Table.entries_drop _ hlt, List.foldl_cons, scanLeaf]
    split
    · next hzero =>
      rw [if_neg (not_not.mpr hzero)] at hstep
      exact .visit hstep rfl (ih (m := Micro.regs _ _) hseq hnext)
    · next hne =>
      rw [if_pos hne] at hstep
      -- `TB_SCAN`, `TB_LEAF`, and the insertion it calls, which comes back to `TB_SCAN`.
      refine .visit hstep rfl (.visit rfl rfl ((insert_leads rfl rfl).reaches rfl ?_))
      exact ih (m := Micro.goto .tbScan _) rfl hnext

/-- `TB_POPL` and `TB_POPR` take the two elements in front. -/
theorem tbPop_leads {m : Micro} {l r : Nat} {rest : List Nat} (hpq : m.st.pq = l :: r :: rest) :
    Leads (m.goto .tbPopl) (· =
      { m with
        st := m.st.setPq rest, work := { m.work with insPos := 0, lPtr := l, rPtr := r }
        caller := .popR, seq := .tbMerge }) := by
  have hm : m = m.arch (State.setPq (l :: r :: rest)) := by rw [← hpq]; rfl
  rw [hm]
  exact ⟨4, rfl⟩

/-- `TB_CHECK` to `TB_PUSH`, round after round: the merge loop (R116). -/
theorem tbCheck_reaches {turns : Nat} {m : Micro} {s : State} (hseq : m.seq = .tbCheck)
    (hst : m.st = s) (hturns : s.pq.length ≤ turns) :
    Reaches m (s.setForest (mergeLoop turns s.forest)) (Micro.goto .tbFinish) := by
  subst hst
  induction turns generalizing m with
  | zero =>
    have hend : ¬ 1 < m.st.pq.length := by omega
    have hstep : microStep m = tbCheckStep m := by rw [microStep, hseq]
    rw [tbCheckStep, if_neg hend] at hstep
    exact .last (m₀ := m) hstep rfl rfl
  | succ turns ih =>
    have hstep : microStep m = tbCheckStep m := by rw [microStep, hseq]
    rw [mergeLoop]
    split
    · next l r rest hpq =>
      change m.st.pq = _ at hpq
      have hlen : m.st.pq.length = rest.length + 2 := by rw [hpq]; rfl
      have hmore : 1 < m.st.pq.length := by omega
      have hleft : rest.length + 1 ≤ turns := by omega
      rw [tbCheckStep, if_pos hmore] at hstep
      -- `TB_CHECK`, the two removals, `TB_MERGE`, `TB_PUSH`, and the insertion it calls.
      refine .visit hstep rfl ((tbPop_leads hpq).reaches rfl (.visit rfl rfl (.visit rfl rfl
        ((insert_leads rfl rfl).reaches rfl ?_))))
      exact ih (m := Micro.goto .tbCheck _) rfl
        ((addMerged_lengths l r ⟨m.st.nodes, rest⟩).2.trans_le hleft)
    · next hnot =>
      have hend : ¬ 1 < m.st.pq.length := fun hmore =>
        match hpq : m.st.pq, hmore with
        | l :: r :: rest, _ => hnot l r rest hpq
      rw [tbCheckStep, if_neg hend] at hstep
      exact .last (m₀ := m) hstep rfl rfl

/-- The end of `TB_FINISH`: the response of TB.BUILD, or the next table of ENCODE or DECODE. -/
def buildEnd (m : Micro) : Micro :=
  match m.cmd with
  | .encode => (m.regs fun w => { w with sym := 0 }).goto .heScan
  | .decode => m.goto .deCase
  | _ => m.finish m.st.rootWord

/-- What `TB_INIT` leaves. -/
def State.treeCleared (s : State) : State :=
  { s with pq := [], nodes := [], root := none, emptyFlag := false, codesValid := false }

/-- What `TB_FINISH` leaves when it takes the only element as the root. -/
def State.takeRoot (s : State) : State :=
  { s with pq := pqRemoveAt 0 s.pq, root := some (pqAt 0 s.pq) }

/-- `TB_FINISH` on the forest the merge loop leaves. -/
theorem tbFinish_reaches {m : Micro} {s : State} {nodes : List Node} {pq : List Nat}
    (hseq : m.seq = .tbFinish) (hst : m.st = s.treeCleared.setForest ⟨nodes, pq⟩)
    (hlen : pq.length ≤ 1) : Reaches m (s.setTree nodes pq.head?) buildEnd := by
  have hstep : microStep m = tbFinishStep m := by rw [microStep, hseq]
  have hpq : m.st.pq = pq := by rw [hst]; rfl
  match pq with
  | [] =>
    have hempty : ¬ m.st.pq.length = 1 := by simp [hpq]
    rw [tbFinishStep, if_neg hempty] at hstep
    exact .last (m₀ := m.arch fun u => { u with emptyFlag := true }) hstep
      (congrArg (fun u : State => { u with emptyFlag := true }) hst) rfl
  | [p] =>
    have hone : m.st.pq.length = 1 := by rw [hpq]; rfl
    rw [tbFinishStep, if_pos hone] at hstep
    exact .visit hstep rfl (.last (m₀ := (tbPopStep .finish m).arch State.takeRoot) rfl
      (congrArg State.takeRoot hst) rfl)
  | _ :: _ :: _ => simp at hlen

/-- `BuildTree()` by the sequencer (R118). -/
theorem buildTree_reaches {m : Micro} (hseq : m.seq = .tbInit) :
    Reaches m m.st.buildTree buildEnd := by
  have hstep : microStep m = tbInitStep m := by rw [microStep, hseq]
  have hlen : (builtForest m.st.freq).pq.length ≤ 1 := by
    rw [(builtForest_lengths m.st.freq).1]
    exact Nat.min_le_left ..
  refine .visit hstep rfl ((tbScan_reaches (n := nSym) rfl rfl rfl).trans (fun _ => rfl) ?_)
  intro m₁ hst₁ _
  refine (tbCheck_reaches (m := m₁.goto .tbCheck) rfl hst₁ (Nat.le_refl _)).trans (fun _ => rfl) ?_
  intro m₂ hst₂ _
  exact tbFinish_reaches (m := m₂.goto .tbFinish) (s := m.st) rfl hst₂ hlen

/-- TB.BUILD by its table. -/
theorem sequencerAgrees_tbBuild (s : State) : SequencerAgrees .tbBuild s := by
  rw [sequencerAgrees_iff]
  refine (buildTree_reaches rfl).leads ?_
  rintro m₀ (hst : m₀.st = s.buildTree) (hcmd : m₀.cmd = .tbBuild)
  rw [buildEnd, hcmd]
  refine .here ⟨rfl, ?_⟩
  rw [Micro.next_finish, hst]
  rfl

end Sys2Proof.Machine
end

section
/-! SUPPORT. The code table generator (42_code_table.md R134): the path register, the traversal with its
stack, and CG.GEN. -/

namespace Sys2Proof.Machine

theorem getLsbD_setPathBit (path : BitVec 256) {k j : Nat} (hk : k < 256) (b : Bool) :
    (setPathBit path k b).getLsbD j = if j = k then b else path.getLsbD j := by
  have hone (i : Nat) : Nat.testBit 1 i = decide (i = 0) := by
    rw [Bool.eq_iff_iff, Nat.testBit_one_eq_true_iff_self_eq_zero, decide_eq_true_iff]
  by_cases hj : j < 256
  · simp only [setPathBit, BitVec.getLsbD_or, BitVec.getLsbD_and, BitVec.getLsbD_not,
      BitVec.getLsbD_shiftLeft, hj, BitVec.getLsbD_ofNat, Nat.testBit_bool_toNat, hone]
    rcases Nat.lt_trichotomy j k with hlt | rfl | hgt
    · simp [hlt, Nat.ne_of_lt hlt]
    · simp
    · have hsub : j - k ≠ 0 := by omega
      simp [Nat.ne_of_gt hgt, hsub]
  · have hne : j ≠ k := by omega
    rw [if_neg hne, BitVec.getLsbD_of_ge _ _ (by omega), BitVec.getLsbD_of_ge _ _ (by omega)]

/-- The low bits of the path register are those of a path, the first one in bit 0 (R134). -/
def Holds (reg : BitVec 256) (path : List Bool) : Prop :=
  ∀ k, k < path.length → reg.getLsbD k = path.getD k false

/-- Writing the next bit makes the path longer. -/
theorem Holds.setPathBit {reg : BitVec 256} {path : List Bool} (h : Holds reg path) (b : Bool)
    (hlen : path.length < 256) : Holds (setPathBit reg path.length b) (path ++ [b]) := by
  intro k hk
  rw [getLsbD_setPathBit _ hlen]
  rw [List.length_append, List.length_singleton] at hk
  split
  · next heq => simp [heq]
  · next hne =>
    have hlt : k < path.length := by omega
    rw [h k hlt, List.getD_append _ _ _ _ hlt]

/-- `path[depth-1:0]` zero-extended. -/
theorem Holds.pathEntry_eq {reg : BitVec 256} {path : List Bool} (h : Holds reg path) :
    (⟨BitVec.ofNat 8 path.length, reg &&& BitVec.ofNat 256 (2 ^ path.length - 1)⟩ : CodeEntry)
      = pathEntry path := by
  rw [pathEntry]
  congr 1
  refine BitVec.eq_of_getLsbD_eq fun k hk => ?_
  simp only [BitVec.getLsbD_and, BitVec.getLsbD_ofNat, hk, decide_true, Bool.true_and,
    Nat.testBit_two_pow_sub_one, testBit_pathNat]
  rcases Nat.lt_or_ge k path.length with hlt | hge
  · simp [hlt, h k hlt]
  · simp [Nat.not_lt.mpr hge]

/-- `CODE <- t`, while `codes_valid` stays as it is: the table in the middle of CG.GEN. -/
def State.putCode (t : Table CodeEntry) (s : State) : State := { s with code := t }

/-- `CG_CLEAR` clears the `n` entries from `sym` on, and counts nothing. -/
theorem cgClear_reaches {n : Nat} {m : Micro} (hseq : m.seq = .cgClear)
    (hn : m.work.sym + n = nSym) (hdone : m.st.code.FilledTo CodeEntry.empty m.work.sym) :
    Reaches m (m.st.putCode (Table.fill CodeEntry.empty))
      fun m₀ => Micro.goto .cgStart { m₀ with count := m.count } := by
  induction n generalizing m with
  | zero =>
    have heq : m.work.sym = nSym := hn
    have hstep : microStep m = cgClearStep m := by rw [microStep, hseq]
    rw [cgClearStep, if_pos heq] at hstep
    rw [heq] at hdone
    exact .last (m₀ := m) hstep (by rw [← hdone.eq_fill]; rfl) rfl
  | succ n ih =>
    have hne : m.work.sym ≠ nSym := by omega
    have hstep : microStep m = cgClearStep m := by rw [microStep, hseq]
    rw [cgClearStep, if_neg hne] at hstep
    exact .visit hstep rfl
      (ih (m := Micro.regs _ _) hseq ((Nat.succ_add_eq_add_succ ..).trans hn) hdone.set)

/-- Every node has a leaf below it, and its path is not shorter than the node's. -/
theorem exists_mem_visit {nodes : List Node} (hint : InternalAbove 0 nodes) {fuel n : Nat}
    (hfuel : n < fuel) (path : List Bool) :
    ∃ vp ∈ visit nodes fuel n path, path.length ≤ vp.2.length := by
  induction fuel generalizing n path with
  | zero => exact absurd hfuel (Nat.not_lt_zero n)
  | succ fuel ih =>
    rw [visit]
    cases hk : (nodeAt nodes n).kids with
    | none => exact ⟨_, List.mem_singleton.mpr rfl, Nat.le_refl _⟩
    | some lr =>
      obtain ⟨-, hl, -⟩ := hint n lr.1 lr.2 hk
      obtain ⟨vp, hvp, hlen⟩ := ih (n := lr.1) (by omega) (path ++ [false])
      refine ⟨vp, List.mem_append_left _ hvp, ?_⟩
      rw [List.length_append, List.length_singleton] at hlen
      omega

/-- The path register when `CG_POP` has popped an entry of depth `d` and bit `b`. -/
def popPath (reg : BitVec 256) (d : Nat) (b : Bool) : BitVec 256 :=
  if 0 < d then setPathBit reg (d - 1) b else reg

theorem Holds.popPath {reg : BitVec 256} {path : List Bool} (h : Holds reg path) (b : Bool)
    (hlen : path.length < 256) : Holds (popPath reg (path ++ [b]).length b) (path ++ [b]) := by
  rw [List.length_append]
  exact h.setPathBit b hlen

theorem getLsbD_popPath {d k : Nat} (hd : d ≤ 256) (hk : k + 1 < d) (reg : BitVec 256) (b : Bool) :
    (popPath reg d b).getLsbD k = reg.getLsbD k := by
  have hne : k ≠ d - 1 := by omega
  rw [Machine.popPath, if_pos (by omega), getLsbD_setPathBit _ (by omega), if_neg hne]

/-- After `CG_POP`: the entry `(n, d, b)` popped. -/
def Micro.popped (n d : Nat) (b : Bool) (rest : List (Nat × Nat × Bool)) (m : Micro) : Micro :=
  m.regs fun w => { w with stk := rest, path := popPath w.path d b, depth := d, cur := n }

/-- After `CG_PUSH`: the children `l` and `r` of the popped node on the stack, the left one on top. -/
def Micro.pushed (n d : Nat) (b : Bool) (l r : Nat) (rest : List (Nat × Nat × Bool)) (m : Micro) :
    Micro :=
  ((m.popped n d b rest).regs fun w =>
    { w with stk := (l, d + 1, false) :: (r, d + 1, true) :: rest }).goto .cgPop

theorem cgPop_leaf {n d : Nat} {b : Bool} {rest : List (Nat × Nat × Bool)} {m : Micro}
    (hseq : m.seq = .cgPop) (hstk : m.work.stk = (n, d, b) :: rest)
    (hk : (nodeAt m.st.nodes n).kids = none) :
    microStep m = (m.popped n d b rest).goto .cgLeaf := by
  have hleaf : (nodeAt m.st.nodes n).isLeaf = true := by rw [Node.isLeaf, hk]; rfl
  rw [microStep, hseq]
  simp only [cgPopStep, hstk, if_pos hleaf]
  rfl

theorem cgPop_internal {n d l r : Nat} {b : Bool} {rest : List (Nat × Nat × Bool)} {m : Micro}
    (hseq : m.seq = .cgPop) (hstk : m.work.stk = (n, d, b) :: rest)
    (hk : (nodeAt m.st.nodes n).kids = some (l, r)) :
    microStep (microStep m) = m.pushed n d b l r rest := by
  have hleaf : ¬ (nodeAt m.st.nodes n).isLeaf = true := by simp [Node.isLeaf, hk]
  have hl : (nodeAt m.st.nodes n).left = l := by simp [Node.left, hk]
  have hr : (nodeAt m.st.nodes n).right = r := by simp [Node.right, hk]
  have hpop : microStep m = (m.popped n d b rest).goto .cgPush := by
    rw [microStep, hseq]
    simp only [cgPopStep, hstk, if_neg hleaf]
    rfl
  rw [hpop, ← hl, ← hr]
  rfl

/-- What the traversal of a subtree at depth `d` leaves: the stack below it, the codes of its leaves,
their number, and the bits of the path register that are not its own. -/
structure Visited (m : Micro) (rest : List (Nat × Nat × Bool)) (d : Nat)
    (vps : List (Byte × List Bool)) (m' : Micro) : Prop where
  seq : m'.seq = .cgPop
  st : m'.st = m.st.putCode (vps.foldl writeCode m.st.code)
  context : m'.context = m.context
  stk : m'.work.stk = rest
  count : m'.count = m.count + vps.length
  path : ∀ k, k + 1 < d → m'.work.path.getLsbD k = m.work.path.getLsbD k

/-- One subtree after another, the second from where the first ends. -/
theorem Visited.append {m m₁ m₂ : Micro} {rest rest' : List (Nat × Nat × Bool)} {d d' : Nat}
    {vps vps' : List (Byte × List Bool)} (h : Visited m rest d vps m₁)
    (h' : Visited m₁ rest' d vps' m₂) (hd : d' ≤ d) : Visited m rest' d' (vps ++ vps') m₂ where
  seq := h'.seq
  st := by rw [h'.st, h.st, List.foldl_append]; rfl
  context := h'.context.trans h.context
  stk := h'.stk
  count := by rw [h'.count, h.count, List.length_append, Nat.add_assoc]
  path k hk := (h'.path k (by omega)).trans (h.path k (by omega))

/-- Popping a node and pushing its children writes no bit of the path register but the node's own. -/
theorem Visited.of_pushed {m m' : Micro} {n d l r : Nat} {b : Bool}
    {rest rest' : List (Nat × Nat × Bool)} {vps : List (Byte × List Bool)}
    (h : Visited (m.pushed n d b l r rest) rest' d vps m') (hd : d ≤ 256) :
    Visited m rest' d vps m' :=
  { h with path := fun k hk => (h.path k hk).trans (getLsbD_popPath hd hk ..) }

/-- The traversal of the subtree of `n`, whose path is `path`, in the order of `Visit` (R131). -/
theorem visit_leads {nodes : List Node} (hint : InternalAbove 0 nodes) {fuel n : Nat} {m : Micro}
    {path : List Bool} {b : Bool} {rest : List (Nat × Nat × Bool)} (hfuel : n < fuel)
    (hdepth : ∀ vp ∈ visit nodes fuel n path, vp.2.length ≤ maxCodeLen)
    (hseq : m.seq = .cgPop) (hnodes : m.st.nodes = nodes)
    (hstk : m.work.stk = (n, path.length, b) :: rest)
    (hpath : Holds (popPath m.work.path path.length b) path) :
    Leads m (Visited m rest path.length (visit nodes fuel n path)) := by
  induction fuel generalizing n m path b rest with
  | zero => exact absurd hfuel (Nat.not_lt_zero n)
  | succ fuel ih =>
    obtain ⟨vp, hvp, hle⟩ := exists_mem_visit hint hfuel path
    have hlen : path.length < 256 := Nat.lt_succ_of_le (hle.trans (hdepth vp hvp))
    rw [visit] at hdepth ⊢
    cases hk : (nodeAt nodes n).kids with
    | none =>
      rw [← hnodes] at hk ⊢
      refine .visit (cgPop_leaf hseq hstk hk) (.visit rfl (.here ⟨rfl, ?_, rfl, rfl, rfl,
        fun k hk => getLsbD_popPath (Nat.le_of_lt hlen) hk ..⟩))
      rw [List.foldl_cons, List.foldl_nil, writeCode, ← hpath.pathEntry_eq]
      rfl
    | some lr =>
      obtain ⟨l, r⟩ := lr
      obtain ⟨-, hl, hr⟩ := hint n l r hk
      simp only [hk] at hdepth
      obtain ⟨hdl, hdr⟩ := List.forall_mem_append.mp hdepth
      have hchild (b : Bool) : (path ++ [b]).length = path.length + 1 := List.length_append ..
      have hleft := ih (m := m.pushed n _ b l r rest) (path := path ++ [false]) (by omega) hdl rfl
        hnodes (by rw [hchild]; rfl) (hpath.popPath false hlen)
      refine .visit rfl (.visit (cgPop_internal hseq hstk (hnodes ▸ hk)) (hleft.trans ?_))
      intro m₁ hm₁
      have hpath₁ : Holds m₁.work.path path := fun k hk =>
        (hm₁.path k (by rw [hchild]; omega)).trans (hpath k hk)
      have hright := ih (m := m₁) (path := path ++ [true]) (by omega) hdr hm₁.seq
        (by rw [hm₁.st]; exact hnodes) (by rw [hm₁.stk, hchild]) (hpath₁.popPath true hlen)
      rw [hchild] at hm₁ hright
      exact hright.trans fun m₂ hm₂ => .here
        ((hm₁.append hm₂ (Nat.le_succ _)).of_pushed (Nat.le_of_lt hlen))

/-- The end of the traversal: the response of CG.GEN, which is the number of leaves visited, or the
next table of ENCODE (R152). -/
def codesEnd (leaves : Nat) (m : Micro) : Micro :=
  match m.cmd with
  | .encode => (m.regs fun w => { w with ipos := 0 }).goto .enFetch
  | _ => m.finish (natWord leaves)

/-- `CG_POP` on an empty stack makes the codes valid and ends. -/
theorem cgPop_nil {m : Micro} (hseq : m.seq = .cgPop) (hstk : m.work.stk = []) :
    microStep m = codesEnd m.count (m.arch fun s => s.setCode s.code) := by
  rw [microStep, hseq]
  simp only [cgPopStep, hstk]
  rfl

/-- `CG_START` to the last `CG_POP`: the codes of the current tree. -/
theorem cgStart_reaches {m : Micro} {s : State} (hint : InternalAbove 0 s.nodes)
    (hdepth : ∀ vp ∈ treePaths s.nodes s.root, vp.2.length ≤ maxCodeLen) (hseq : m.seq = .cgStart)
    (hst : m.st = s) :
    Reaches m (s.setCode ((treePaths s.nodes s.root).foldl writeCode s.code))
      (codesEnd (m.count + (treePaths s.nodes s.root).length)) := by
  subst hst
  have hstep : microStep m = cgStartStep m := by rw [microStep, hseq]
  obtain hr | ⟨r, hr⟩ := Option.eq_none_or_eq_some m.st.root
  · rw [cgStartStep, hr] at hstep
    rw [hr]
    exact .visit hstep rfl (.last (cgPop_nil rfl rfl) rfl rfl)
  · rw [cgStartStep, hr] at hstep
    rw [hr] at hdepth ⊢
    refine .visit hstep rfl (Leads.trans (visit_leads (path := []) (rest := [])
      (m := (m.regs fun w => { w with stk := [(r, 0, false)] }).goto .cgPop)
      hint (Nat.lt_succ_self r) hdepth rfl rfl rfl
      fun k hk => absurd hk (Nat.not_lt_zero k)) fun m₁ hv => ?_)
    refine .visit (cgPop_nil hv.seq hv.stk) (.here
      ⟨m₁.arch fun s => s.setCode s.code, ?_, hv.context, by rw [hv.count]; rfl⟩)
    exact congrArg (fun s : State => s.setCode s.code) hv.st

/-- `GenCodes()` by the sequencer (R130, R134), up to the response of CG.GEN or the next table of
ENCODE. -/
theorem genCodes_reaches {m : Micro} (hint : InternalAbove 0 m.st.nodes)
    (hdepth : ∀ vp ∈ treePaths m.st.nodes m.st.root, vp.2.length ≤ maxCodeLen)
    (hseq : m.seq = .cgClear) (hsym : m.work.sym = 0) :
    Reaches m m.st.genCodes
      (codesEnd (m.count + (treePaths m.st.nodes m.st.root).length)) := by
  have hclear := cgClear_reaches (n := nSym) hseq (by rw [hsym, Nat.zero_add])
    (hsym.symm ▸ Table.filledTo_zero CodeEntry.empty m.st.code)
  exact hclear.trans (fun _ => rfl) fun m₀ hst _ =>
    cgStart_reaches (m := Micro.goto .cgStart { m₀ with count := m.count })
      (s := m.st.putCode (Table.fill CodeEntry.empty)) hint hdepth rfl hst

/-- CG.GEN by its table, in a state within the invariant. -/
theorem sequencerAgrees_cgGen {s : State} (h : Inv s) : SequencerAgrees .cgGen s := by
  rw [sequencerAgrees_iff]
  refine (genCodes_reaches h.nodes.internalAbove h.rootDepth rfl rfl).leads ?_
  rintro m₀ (hst : m₀.st = s.genCodes) (hcmd : m₀.cmd = .cgGen)
  rw [codesEnd, hcmd]
  refine .here ⟨rfl, ?_⟩
  rw [Micro.next_finish, hst]
  exact congrArg (fun leaves => respond (natWord leaves) s.genCodes) (Nat.zero_add _).symm

/-- Settles O57: each unit's table, state visit by state visit. -/
theorem unitSequencersAgree : Obligations.UnitSequencersAgree :=
  ⟨fun s a => ⟨sequencerAgrees_pqInsert a s, sequencerAgrees_pqRemoveAt a s,
      sequencerAgrees_pqRemoveVal a s, sequencerAgrees_pqContains a s⟩,
    fun s => ⟨sequencerAgrees_fqCount s, sequencerAgrees_tbBuild s⟩,
    fun _ => sequencerAgrees_cgGen⟩

end Sys2Proof.Machine
end

section
/-! SUPPORT. The commands on node memory and the node order (41_tree_builder.md R106, R108 to R113):
each command by its checks, and the packed results where the fields fit their widths. -/

namespace Sys2Proof.Machine

/-- Settles O27: the order is that of the two keys. -/
theorem nodeOrderIsLexicographic : Obligations.NodeOrderIsLexicographic := by
  intro nodes p q
  refine ⟨keyLess_iff _ _, rfl, fun nodes' p' q' hwp hvp hwq hvq => ?_⟩
  simp only [less, keyLess, hwp, hvp, hwq, hvq]

theorem nodeAt_of_getElem? {nodes : List Node} {p : Nat} {n : Node} (h : nodes[p]? = some n) :
    nodeAt nodes p = n := by
  simp [nodeAt, h]

section

variable {s : State} {a b : Nat}

theorem exec_ndLeaf_badOperand (h : 255 < a ∨ 2 ^ s.par.wFreq ≤ b) :
    exec (.ndLeaf a b) s = .next (s.err 7#8) := by
  by_cases ha : isByte a
  · have hb : ¬ isCount b s := by rcases h with h | h <;> omega
    rw [exec, execNdLeaf, if_neg (not_not.mpr ha), if_pos hb]
    rfl
  · rw [exec, execNdLeaf, if_pos ha]
    rfl

theorem exec_ndLeaf_full (ha : isByte a) (hb : isCount b s) (hfull : s.nodes.length = nNode) :
    exec (.ndLeaf a b) s = .next (s.err 5#8) := by
  simp [exec, execNdLeaf, ha, hb, hfull, raise_primitive, Kind.code]

theorem exec_ndLeaf_ok (ha : isByte a) (hb : isCount b s) (hroom : s.nodes.length ≠ nNode) :
    exec (.ndLeaf a b) s
      = .next ((s.setNodes (alloc s.nodes (leafNode (byteOf a) b))).ok (natWord s.nodes.length)) := by
  simp [exec, execNdLeaf, ha, hb, hroom, respond_eq]

theorem exec_ndMerge_unallocated (h : s.nodes.length ≤ a ∨ s.nodes.length ≤ b) :
    exec (.ndMerge a b) s = .next (s.err 7#8) := by
  by_cases ha : isNode a s
  · have hb : ¬ isNode b s := by omega
    simp [exec, execNdMerge, ha, hb, raise_primitive, Kind.code]
  · simp [exec, execNdMerge, ha, raise_primitive, Kind.code]

theorem exec_ndMerge_capacity (ha : isNode a s) (hb : isNode b s)
    (h : s.nodes.length = nNode
      ∨ 2 ^ wWeight s.par ≤ (nodeAt s.nodes a).weight + (nodeAt s.nodes b).weight) :
    exec (.ndMerge a b) s = .next (s.err 5#8) := by
  by_cases hfull : s.nodes.length = nNode
  · rw [exec, execNdMerge, if_neg (not_not.mpr ha), if_neg (not_not.mpr hb), if_pos hfull]
    rfl
  · rw [exec, execNdMerge, if_neg (not_not.mpr ha), if_neg (not_not.mpr hb), if_neg hfull,
      if_pos (h.resolve_left hfull)]
    rfl

theorem exec_ndMerge_ok (ha : isNode a s) (hb : isNode b s) (hroom : s.nodes.length ≠ nNode)
    (hw : (nodeAt s.nodes a).weight + (nodeAt s.nodes b).weight < 2 ^ wWeight s.par) :
    exec (.ndMerge a b) s
      = .next ((s.setNodes (alloc s.nodes (mergedNode s.nodes a b))).ok
          (natWord s.nodes.length)) := by
  simp [exec, execNdMerge, ha, hb, hroom, hw, respond_eq]

end

/-- Settles O25: each command by its checks in order. -/
theorem nodeAllocation : Obligations.NodeAllocation := by
  intro s a b
  refine ⟨⟨rfl, rfl⟩, exec_ndLeaf_badOperand, exec_ndLeaf_full, exec_ndLeaf_ok,
    exec_ndMerge_unallocated, fun l r hl hr => ?_⟩
  obtain ⟨ha, -⟩ := List.getElem?_eq_some_iff.mp hl
  obtain ⟨hb, -⟩ := List.getElem?_eq_some_iff.mp hr
  rw [← nodeAt_of_getElem? hl, ← nodeAt_of_getElem? hr]
  exact ⟨exec_ndMerge_capacity ha hb, fun hroom hw =>
    ⟨_, exec_ndMerge_ok ha hb hroom hw, minByte_toNat _ _, rfl, rfl⟩⟩

theorem exec_ndRead_unallocated {s : State} {a : Nat} (h : s.nodes.length ≤ a) :
    exec (.ndRead a) s = .next (s.err 7#8) := by
  simp [exec, execNdRead, h, raise_primitive, Kind.code]

theorem exec_ndKids_unallocated {s : State} {a : Nat} (h : s.nodes.length ≤ a) :
    exec (.ndKids a) s = .next (s.err 7#8) := by
  simp [exec, execNdKids, h, raise_primitive, Kind.code]

theorem exec_ndRead_ok {s : State} {a : Nat} {n : Node} (h : s.nodes[a]? = some n) :
    exec (.ndRead a) s = .next (s.ok (readWord n)) := by
  obtain ⟨ha, -⟩ := List.getElem?_eq_some_iff.mp h
  simp [exec, execNdRead, ha, nodeAt_of_getElem? h, respond_eq]

theorem exec_ndKids_leaf {s : State} {a : Nat} {n : Node} (h : s.nodes[a]? = some n)
    (hleaf : n.isLeaf = true) : exec (.ndKids a) s = .next (s.err 7#8) := by
  obtain ⟨ha, -⟩ := List.getElem?_eq_some_iff.mp h
  simp [exec, execNdKids, ha, nodeAt_of_getElem? h, hleaf, raise_primitive, Kind.code]

theorem exec_ndKids_internal {s : State} {a : Nat} {n : Node} (h : s.nodes[a]? = some n)
    (hleaf : n.isLeaf = false) : exec (.ndKids a) s = .next (s.ok (kidsWord n)) := by
  obtain ⟨ha, -⟩ := List.getElem?_eq_some_iff.mp h
  simp [exec, execNdKids, ha, nodeAt_of_getElem? h, hleaf, respond_eq]

/-- Two fields side by side are the sum of the upper one, shifted, and the lower one. -/
theorem toNat_append_eq_add {m n : Nat} (x : BitVec m) (y : BitVec n) :
    (x ++ y).toNat = x.toNat * 2 ^ n + y.toNat := by
  rw [BitVec.toNat_append, ← Nat.shiftLeft_add_eq_or_of_lt y.isLt, Nat.shiftLeft_eq]

/-- The packed record, where the weight has 40 bits (30_encoding.md R77). -/
theorem readWord_eq {n : Node} (hw : n.weight < 2 ^ 40) :
    readWord n = natWord (n.isLeaf.toNat * 2 ^ 48 + n.value.toNat * 2 ^ 40 + n.weight) := by
  refine BitVec.eq_of_toNat_eq ?_
  rw [readWord, natWord, BitVec.toNat_setWidth, toNat_append_eq_add, toNat_append_eq_add,
    BitVec.toNat_ofBool, BitVec.toNat_ofNat, BitVec.toNat_ofNat, Nat.mod_eq_of_lt hw]
  omega

/-- The packed children, where each pointer has 9 bits (R77). -/
theorem kidsWord_eq {v : Byte} {w l r : Nat} (hl : l < 2 ^ 9) (hr : r < 2 ^ 9) :
    kidsWord ⟨v, w, some (l, r)⟩ = natWord (r * 2 ^ 16 + l) := by
  refine BitVec.eq_of_toNat_eq ?_
  rw [kidsWord, natWord, BitVec.toNat_setWidth, toNat_append_eq_add, toNat_append_eq_add,
    BitVec.toNat_ofNat, BitVec.toNat_ofNat, BitVec.toNat_ofNat, BitVec.toNat_ofNat]
  simp only [Node.left, Node.right, Option.getD_some, Nat.mod_eq_of_lt hl, Nat.mod_eq_of_lt hr]
  omega

/-- Within the invariant a weight has 40 bits: `W_WEIGHT` is at most 40 (00_scope.md R6). -/
theorem Inv.weight_lt {s : State} (h : Inv s) {p : Nat} (hp : p < s.nodes.length) :
    (nodeAt s.nodes p).weight < 2 ^ 40 := by
  obtain ⟨-, hw, -⟩ := (legalParams_iff s.par).mp h.params
  cases hk : (nodeAt s.nodes p).kids with
  | none =>
    exact (h.nodes.leaf p hp hk).trans_le (Nat.pow_le_pow_right (by decide) (by omega))
  | some lr =>
    obtain ⟨-, -, -, hlt, -⟩ := h.nodes.internal p lr.1 lr.2 hp hk
    exact hlt.trans_le (Nat.pow_le_pow_right (by decide) (by omega))

/-- Within the invariant a child pointer has 9 bits (R22 clauses a and e). -/
theorem Inv.kids_lt {s : State} (h : Inv s) {p l r : Nat}
    (hk : (nodeAt s.nodes p).kids = some (l, r)) : l < 2 ^ 9 ∧ r < 2 ^ 9 := by
  have hp : p < 511 := (lt_length_of_kids hk).trans_le h.nodeCount
  obtain ⟨-, hl, hr⟩ := h.nodes.internalAbove p l r hk
  omega

/-- ND.READ within the invariant (R112). -/
theorem Inv.exec_ndRead {s : State} (h : Inv s) {a : Nat} {n : Node} (hn : s.nodes[a]? = some n) :
    Machine.exec (.ndRead a) s = .next (s.ok
      (natWord (n.isLeaf.toNat * 2 ^ 48 + n.value.toNat * 2 ^ 40 + n.weight))) := by
  obtain ⟨ha, -⟩ := List.getElem?_eq_some_iff.mp hn
  rw [exec_ndRead_ok hn, readWord_eq (nodeAt_of_getElem? hn ▸ h.weight_lt ha)]

/-- Settles O26: the words of the two packed results, and the checks before them. -/
theorem nodeReadOut : Obligations.NodeReadOut := by
  intro s a b
  refine ⟨⟨rfl, rfl⟩, fun h => ⟨exec_ndRead_unallocated h, exec_ndKids_unallocated h⟩,
    fun v w hn => exec_ndKids_leaf hn rfl, fun v w hinv hn => ?_, fun v w l r hinv hn => ⟨?_, ?_⟩⟩
  · simpa [Node.isLeaf] using hinv.exec_ndRead hn
  · simpa [Node.isLeaf] using hinv.exec_ndRead hn
  · obtain ⟨hl, hr⟩ := hinv.kids_lt (congrArg Node.kids (nodeAt_of_getElem? hn))
    rw [exec_ndKids_internal hn rfl, kidsWord_eq hl hr]

end Sys2Proof.Machine
end

section
/-! SUPPORT. Structural equality (41_tree_builder.md R107, R114): the recursion without its fuel, the
equivalence it is, and ND.EQ. -/

namespace Sys2Proof.Machine

section

variable {nodes : List Node} (hint : InternalAbove 0 nodes)
include hint

/-- Any depth above the slot of the first node gives the same answer. -/
theorem nodeEqTo_congr {fuel fuel' p q : Nat} (hf : p < fuel) (hf' : p < fuel') :
    nodeEqTo nodes fuel p q = nodeEqTo nodes fuel' p q := by
  induction fuel generalizing fuel' p q with
  | zero => exact absurd hf (Nat.not_lt_zero p)
  | succ fuel ih =>
    obtain ⟨fuel', rfl⟩ := Nat.exists_eq_add_one_of_ne_zero (Nat.ne_zero_of_lt hf')
    rw [nodeEqTo, nodeEqTo]
    cases hk : (nodeAt nodes p).kids with
    | none => cases (nodeAt nodes q).kids <;> rfl
    | some lr =>
      obtain ⟨-, hl, hr⟩ := hint p lr.1 lr.2 hk
      have hchild : ∀ c < p, ∀ c', nodeEqTo nodes fuel c c' = nodeEqTo nodes fuel' c c' :=
        fun c hc c' => ih (by omega) (by omega)
      cases (nodeAt nodes q).kids with
      | none => rfl
      | some => simp only [hchild _ hl, hchild _ hr]

/-- The recursion of R107. -/
theorem nodeEq_iff (p q : Nat) :
    nodeEq nodes p q = true ↔
      (nodeAt nodes p).value = (nodeAt nodes q).value
        ∧ (nodeAt nodes p).weight = (nodeAt nodes q).weight
        ∧ (((nodeAt nodes p).kids = none ∧ (nodeAt nodes q).kids = none)
          ∨ ∃ l r l' r', (nodeAt nodes p).kids = some (l, r)
            ∧ (nodeAt nodes q).kids = some (l', r')
            ∧ nodeEq nodes l l' = true ∧ nodeEq nodes r r' = true) := by
  rw [nodeEq, nodeEqTo, Bool.and_eq_true, Bool.and_eq_true, decide_eq_true_eq, decide_eq_true_eq,
    and_assoc]
  refine and_congr_right' (and_congr_right' ?_)
  cases hp : (nodeAt nodes p).kids with
  | none => cases (nodeAt nodes q).kids <;> simp
  | some lr =>
    obtain ⟨-, hl, hr⟩ := hint p lr.1 lr.2 hp
    have hchild : ∀ c < p, ∀ c', nodeEqTo nodes p c c' = nodeEq nodes c c' :=
      fun c hc c' => nodeEqTo_congr hint hc (Nat.lt_succ_self c)
    cases (nodeAt nodes q).kids with
    | none => simp
    | some lr' =>
      simp [hchild _ hl, hchild _ hr, Prod.ext_iff]

theorem nodeEq_refl (p : Nat) : nodeEq nodes p p = true := by
  induction p using Nat.strongRecOn with
  | ind p ih =>
    refine (nodeEq_iff hint p p).mpr ⟨rfl, rfl, ?_⟩
    cases hk : (nodeAt nodes p).kids with
    | none => exact .inl ⟨rfl, rfl⟩
    | some lr =>
      obtain ⟨-, hl, hr⟩ := hint p lr.1 lr.2 hk
      exact .inr ⟨_, _, _, _, rfl, rfl, ih _ hl, ih _ hr⟩

theorem nodeEq_symm {p q : Nat} (h : nodeEq nodes p q = true) : nodeEq nodes q p = true := by
  induction p using Nat.strongRecOn generalizing q with
  | ind p ih =>
    obtain ⟨hv, hw, ⟨hp, hq⟩ | ⟨l, r, l', r', hp, hq, hl, hr⟩⟩ := (nodeEq_iff hint p q).mp h
    · exact (nodeEq_iff hint q p).mpr ⟨hv.symm, hw.symm, .inl ⟨hq, hp⟩⟩
    · obtain ⟨-, hlp, hrp⟩ := hint p l r hp
      exact (nodeEq_iff hint q p).mpr
        ⟨hv.symm, hw.symm, .inr ⟨l', r', l, r, hq, hp, ih l hlp hl, ih r hrp hr⟩⟩

theorem nodeEq_comm (p q : Nat) : nodeEq nodes p q = nodeEq nodes q p :=
  Bool.eq_iff_iff.mpr ⟨nodeEq_symm hint, nodeEq_symm hint⟩

theorem nodeEq_trans {p q o : Nat} (h : nodeEq nodes p q = true) (h' : nodeEq nodes q o = true) :
    nodeEq nodes p o = true := by
  induction p using Nat.strongRecOn generalizing q o with
  | ind p ih =>
    obtain ⟨hv, hw, hpq⟩ := (nodeEq_iff hint p q).mp h
    obtain ⟨hv', hw', hqo⟩ := (nodeEq_iff hint q o).mp h'
    refine (nodeEq_iff hint p o).mpr ⟨hv.trans hv', hw.trans hw', ?_⟩
    obtain ⟨hp, hq⟩ | ⟨l, r, l', r', hp, hq, hl, hr⟩ := hpq
    · obtain ⟨-, ho⟩ | ⟨_, _, _, _, hq', -⟩ := hqo
      · exact .inl ⟨hp, ho⟩
      · simp [hq] at hq'
    · obtain ⟨hq', -⟩ | ⟨m, n, m', n', hq', ho, hm, hn⟩ := hqo
      · simp [hq] at hq'
      · cases hq.symm.trans hq'
        obtain ⟨-, hlp, hrp⟩ := hint p l r hp
        exact .inr ⟨l, r, m', n', hp, ho, ih l hlp hl hm, ih r hrp hr hn⟩

end

theorem exec_ndEq_unallocated {s : State} {a b : Nat}
    (h : s.nodes.length ≤ a ∨ s.nodes.length ≤ b) : exec (.ndEq a b) s = .next (s.err 7#8) := by
  by_cases ha : isNode a s
  · have hb : ¬ isNode b s := by omega
    simp [exec, execNdEq, ha, hb, raise_primitive, Kind.code]
  · simp [exec, execNdEq, ha, raise_primitive, Kind.code]

theorem exec_ndEq_ok {s : State} {a b : Nat} (ha : a < s.nodes.length) (hb : b < s.nodes.length) :
    exec (.ndEq a b) s = .next (s.ok (if nodeEq s.nodes a b then 1#64 else 0#64)) := by
  rw [exec, execNdEq, if_neg (not_not.mpr ha), if_neg (not_not.mpr hb), respond_eq]
  cases nodeEq s.nodes a b <;> rfl

end Sys2Proof.Machine
end

section
/-! SUPPORT. The merges of a build (41_tree_builder.md R116, R119, R120): the sequence holds the nodes
that no merge took, with different values and in rank order, so its front is the two lowest-ranked
ones. -/

namespace Sys2Proof.Machine

/-- The nodes not taken before slot `n` is filled have pairwise different values (R120). -/
def DistinctUnmerged (nodes : List Node) (n : Nat) : Prop :=
  ∀ p q, Unmerged nodes n p → Unmerged nodes n q → p ≠ q →
    (nodeAt nodes p).value ≠ (nodeAt nodes q).value

/-- Slot `n` is the merge of the two nodes that rank lowest among those not taken before, the lower
one left (R116, R119). -/
def MergesLowest (nodes : List Node) (n : Nat) : Prop :=
  ∃ l r, (nodeAt nodes n).kids = some (l, r)
    ∧ (nodeAt nodes n).weight = (nodeAt nodes l).weight + (nodeAt nodes r).weight
    ∧ (nodeAt nodes n).value.toNat
      = min (nodeAt nodes l).value.toNat (nodeAt nodes r).value.toNat
    ∧ Unmerged nodes n l ∧ Unmerged nodes n r ∧ less nodes l r = true
    ∧ ∀ p, Unmerged nodes n p → p ≠ l → p ≠ r → less nodes r p = true

section

variable {nodes : List Node} {n : Nat}

theorem unmerged_alloc_iff (hn : n ≤ nodes.length) (x : Node) (p : Nat) :
    Unmerged (alloc nodes x) n p ↔ Unmerged nodes n p := by
  refine and_congr_right' (forall_congr' fun m => forall₃_congr fun l r hm => ?_)
  rw [nodeAt_alloc_lt (hm.trans_le hn)]

/-- The nodes not taken once a record is allocated: the new one, and those before but its children. -/
theorem unmerged_alloc_succ_iff {x : Node} (hint : InternalAbove 0 (alloc nodes x)) (p : Nat) :
    Unmerged (alloc nodes x) (nodes.length + 1) p ↔
      p = nodes.length
        ∨ Unmerged nodes nodes.length p ∧ ∀ l r, x.kids = some (l, r) → p ≠ l ∧ p ≠ r := by
  constructor
  · intro ⟨hlt, hfree⟩
    rcases Nat.lt_succ_iff_lt_or_eq.mp hlt with hlt | rfl
    · refine .inr ⟨(unmerged_alloc_iff (Nat.le_refl _) x p).mp ⟨hlt, fun m l r hm => ?_⟩,
        fun l r hk => ?_⟩
      · exact hfree m l r (Nat.lt_succ_of_lt hm)
      · exact hfree nodes.length l r (Nat.lt_succ_self _) (by rwa [nodeAt_alloc_self])
    · exact .inl rfl
  · rintro (rfl | ⟨hp, hx⟩)
    · refine ⟨Nat.lt_succ_self _, fun m l r hm hk => ?_⟩
      obtain ⟨-, hl, hr⟩ := hint m l r hk
      omega
    · obtain ⟨hlt, hfree⟩ := (unmerged_alloc_iff (Nat.le_refl _) x p).mpr hp
      refine ⟨Nat.lt_succ_of_lt hlt, fun m l r hm hk => ?_⟩
      rcases Nat.lt_succ_iff_lt_or_eq.mp hm with hm | rfl
      · exact hfree m l r hm hk
      · exact hx l r (by rwa [nodeAt_alloc_self] at hk)

theorem DistinctUnmerged.alloc (h : DistinctUnmerged nodes n) (hn : n ≤ nodes.length) (x : Node) :
    DistinctUnmerged (alloc nodes x) n := by
  intro p q hp hq hne
  rw [unmerged_alloc_iff hn] at hp hq
  rw [nodeAt_alloc_lt (hp.1.trans_le hn), nodeAt_alloc_lt (hq.1.trans_le hn)]
  exact h p q hp hq hne

theorem less_alloc {p q : Nat} (hp : p < nodes.length) (hq : q < nodes.length) (x : Node) :
    less (alloc nodes x) p q = less nodes p q := by
  rw [less, nodeAt_alloc_lt hp, nodeAt_alloc_lt hq, less]

theorem MergesLowest.alloc (h : MergesLowest nodes n) (hn : n < nodes.length) (x : Node) :
    MergesLowest (alloc nodes x) n := by
  obtain ⟨l, r, hk, hw, hv, hl, hr, hless, hlowest⟩ := h
  have hln := hl.1.trans hn
  have hrn := hr.1.trans hn
  refine ⟨l, r, ?_⟩
  simp only [unmerged_alloc_iff hn.le, nodeAt_alloc_lt hn, nodeAt_alloc_lt hln,
    nodeAt_alloc_lt hrn, less_alloc hln hrn]
  refine ⟨hk, hw, hv, hl, hr, hless, fun p hp hpl hpr => ?_⟩
  rw [less_alloc hrn (hp.1.trans hn)]
  exact hlowest p hp hpl hpr

end

/-- Of two nodes with different values, the one that is not ranked behind the other is before it. -/
theorem less_of_not_less {nodes : List Node} {p q : Nat} (h : less nodes q p = false)
    (hne : (nodeAt nodes p).value ≠ (nodeAt nodes q).value) : less nodes p q = true := by
  have hval : (nodeAt nodes p).value.toNat ≠ (nodeAt nodes q).value.toNat :=
    fun he => hne (BitVec.eq_of_toNat_eq he)
  rw [less, keyLess_false_iff] at h
  rw [less, keyLess_iff]
  omega

theorem push_rankOrdered {f : Forest} (h : f.Allocated) (hrank : RankOrdered f.nodes f.pq)
    (n : Node) : RankOrdered (f.push n).nodes (f.push n).pq :=
  (hrank.alloc h n).pqInsert _

theorem addLeaves_rankOrdered (g : Byte → Nat) (vs : List Byte) {f : Forest} (h : f.Allocated)
    (hrank : RankOrdered f.nodes f.pq) :
    RankOrdered (f.addLeaves g vs).nodes (f.addLeaves g vs).pq := by
  induction vs generalizing f with
  | nil => exact hrank
  | cons v vs ih => exact ih (push_allocated h _) (push_rankOrdered h hrank _)

theorem leafScan_rankOrdered (freq : Table Nat) :
    RankOrdered (leafScan freq).nodes (leafScan freq).pq := by
  rw [leafScan_eq_addLeaves]
  exact addLeaves_rankOrdered _ _ (fun _ hp => absurd hp List.not_mem_nil) List.Pairwise.nil

/-- The values of the nodes the sequence points to, in its order. -/
def Forest.values (f : Forest) : List Byte := f.pq.map fun p => (nodeAt f.nodes p).value

theorem Forest.values_eq_map_held (f : Forest) : f.values = f.held.map Node.value := by
  rw [values, held, List.map_map]
  rfl

theorem push_values_perm {f : Forest} (h : f.Allocated) (n : Node) :
    (f.push n).values.Perm (n.value :: f.values) := by
  rw [Forest.values_eq_map_held, Forest.values_eq_map_held]
  exact (push_held_perm h n).map Node.value

theorem leafScan_values_perm (freq : Table Nat) : (leafScan freq).values.Perm (present freq) := by
  rw [Forest.values_eq_map_held]
  simpa [Function.comp_def, leafNode] using (leafScan_held_perm freq).map Node.value

/-- What every forest of the build for `freq` keeps about its merges. -/
structure Forest.MergeInv (freq : Table Nat) (f : Forest) : Prop where
  build : f.BuildInv freq
  rankOrder : RankOrdered f.nodes f.pq
  distinct : f.values.Nodup
  unmerged : ∀ p, p ∈ f.pq ↔ Unmerged f.nodes f.nodes.length p
  merges : ∀ n, (present freq).length ≤ n → n < f.nodes.length → MergesLowest f.nodes n
  distinctAt : ∀ n, (present freq).length ≤ n → n < f.nodes.length → DistinctUnmerged f.nodes n

/-- Different elements of the sequence have different values. -/
theorem Forest.MergeInv.distinctUnmerged {freq : Table Nat} {f : Forest} (h : f.MergeInv freq) :
    DistinctUnmerged f.nodes f.nodes.length := by
  intro p q hp hq hne heq
  exact hne
    (List.inj_on_of_nodup_map h.distinct ((h.unmerged p).mpr hp) ((h.unmerged q).mpr hq) heq)

theorem leafScan_mergeInv (freq : Table Nat) : (leafScan freq).MergeInv freq where
  build := leafScan_buildInv freq
  rankOrder := leafScan_rankOrdered freq
  distinct := (leafScan_values_perm freq).nodup_iff.mpr (present_nodup freq)
  unmerged p := by
    rw [(leafScan_pq_perm freq).mem_iff, List.mem_range, ← leafScan_nodes_length]
    refine (and_iff_left fun m l r _ hk => ?_).symm
    rw [leafScan_kids] at hk
    cases hk
  merges n hn hlt := absurd hlt (leafScan_nodes_length freq ▸ Nat.not_lt.mpr hn)
  distinctAt n hn hlt := absurd hlt (leafScan_nodes_length freq ▸ Nat.not_lt.mpr hn)

/-- The elements of the sequence are in strict rank order. -/
theorem Forest.MergeInv.strictOrder {freq : Table Nat} {f : Forest} (h : f.MergeInv freq) :
    f.pq.Pairwise fun p q => less f.nodes p q = true :=
  (h.rankOrder.and (List.pairwise_map.mp h.distinct)).imp fun ⟨hle, hne⟩ =>
    less_of_not_less hle hne

/-- The turn's new record is the merge of the two lowest-ranked nodes. -/
theorem addMerged_mergesLowest {freq : Table Nat} {nodes : List Node} {l r : Nat}
    {rest : List Nat} (h : Forest.MergeInv freq ⟨nodes, l :: r :: rest⟩) :
    MergesLowest (alloc nodes (mergedNode nodes l r)) nodes.length := by
  have hl : l < nodes.length := h.build.allocated l (by simp)
  have hr : r < nodes.length := h.build.allocated r (by simp)
  obtain ⟨hfirst, hsorted⟩ := List.pairwise_cons.mp h.strictOrder
  refine ⟨l, r, ?_⟩
  simp only [unmerged_alloc_iff (Nat.le_refl _), nodeAt_alloc_self, nodeAt_alloc_lt hl,
    nodeAt_alloc_lt hr, less_alloc hl hr]
  refine ⟨rfl, rfl, minByte_toNat _ _, (h.unmerged l).mp (by simp), (h.unmerged r).mp (by simp),
    hfirst r (by simp), fun p hp hpl hpr => ?_⟩
  rw [less_alloc hr hp.1]
  have hmem : p ∈ rest := by simpa [hpl, hpr] using (h.unmerged p).mpr hp
  exact List.rel_of_pairwise_cons hsorted hmem

theorem addMerged_values_nodup {freq : Table Nat} {nodes : List Node} {l r : Nat}
    {rest : List Nat} (h : Forest.MergeInv freq ⟨nodes, l :: r :: rest⟩) :
    (Forest.addMerged l r ⟨nodes, rest⟩).values.Nodup := by
  have hrest : Forest.Allocated ⟨nodes, rest⟩ := fun p hp => h.build.allocated p (by simp [hp])
  obtain ⟨hl, hnodup⟩ := List.nodup_cons.mp h.distinct
  obtain ⟨hr, hnodup⟩ := List.nodup_cons.mp hnodup
  refine (push_values_perm hrest _).nodup_iff.mpr (List.nodup_cons.mpr ⟨fun hmem => ?_, hnodup⟩)
  rw [mergedNode] at hmem
  rcases minByte_eq_or (nodeAt nodes l).value (nodeAt nodes r).value with hv | hv <;>
    rw [hv] at hmem
  · exact hl (List.mem_cons_of_mem _ hmem)
  · exact hr hmem

theorem addMerged_unmerged_iff {freq : Table Nat} {nodes : List Node} {l r : Nat}
    {rest : List Nat} (h : Forest.MergeInv freq ⟨nodes, l :: r :: rest⟩) (p : Nat) :
    p ∈ (Forest.addMerged l r ⟨nodes, rest⟩).pq ↔
      Unmerged (alloc nodes (mergedNode nodes l r)) (nodes.length + 1) p := by
  have hint := (addMerged_buildInv h.build).internal.mono (Nat.zero_le _)
  obtain ⟨hl, hnodup⟩ := List.nodup_cons.mp (List.Nodup.of_map _ h.distinct)
  obtain ⟨hr, -⟩ := List.nodup_cons.mp hnodup
  have hrest : p ∈ rest ↔ p ∈ l :: r :: rest ∧ p ≠ l ∧ p ≠ r :=
    ⟨fun hp => ⟨by simp [hp], fun he => hl (he ▸ List.mem_cons_of_mem _ hp), fun he => hr (he ▸ hp)⟩,
      fun ⟨hp, hpl, hpr⟩ => by simpa [hpl, hpr] using hp⟩
  rw [addMerged_eq_push, (push_pq_perm ..).mem_iff, List.mem_cons, unmerged_alloc_succ_iff hint,
    hrest, ← h.unmerged p]
  simp [mergedNode]

theorem addMerged_mergeInv {freq : Table Nat} {nodes : List Node} {l r : Nat} {rest : List Nat}
    (h : Forest.MergeInv freq ⟨nodes, l :: r :: rest⟩) :
    (Forest.addMerged l r ⟨nodes, rest⟩).MergeInv freq where
  build := addMerged_buildInv h.build
  rankOrder :=
    push_rankOrdered (f := ⟨nodes, rest⟩) (fun p hp => h.build.allocated p (by simp [hp]))
      h.rankOrder.of_cons.of_cons _
  distinct := addMerged_values_nodup h
  unmerged p := by
    rw [addMerged_unmerged_iff h, (addMerged_lengths ..).1]
    rfl
  merges n hn hlt := by
    rw [(addMerged_lengths ..).1] at hlt
    rcases Nat.lt_succ_iff_lt_or_eq.mp hlt with hlt | rfl
    · exact (h.merges n hn hlt).alloc hlt _
    · exact addMerged_mergesLowest h
  distinctAt n hn hlt := by
    rw [(addMerged_lengths ..).1] at hlt
    rcases Nat.lt_succ_iff_lt_or_eq.mp hlt with hlt | rfl
    · exact (h.distinctAt n hn hlt).alloc hlt.le _
    · exact h.distinctUnmerged.alloc (Nat.le_refl _) _

theorem builtForest_mergeInv (freq : Table Nat) : (builtForest freq).MergeInv freq :=
  builtForest_induction (leafScan_mergeInv freq) fun _ _ _ _ => addMerged_mergeInv

/-- Settles O36, by the invariant of the merge loop. -/
theorem mergesTakeTheTwoLowestRanked : Obligations.MergesTakeTheTwoLowestRanked := by
  intro s t h
  cases h
  have hmerge := builtForest_mergeInv s.freq
  refine ⟨hmerge.merges, fun n p q hn hle hp hq hne => ?_⟩
  rcases Nat.lt_or_eq_of_le hle with hlt | rfl
  · exact hmerge.distinctAt n hn hlt p q hp hq hne
  · exact hmerge.distinctUnmerged p q hp hq hne

end Sys2Proof.Machine
end

section
/-! SUPPORT. The slots of a built node memory (41_tree_builder.md R107, R116): the leaves first, a merge
in every other slot, the root last; so no two of its nodes are structurally equal. -/

namespace Sys2Proof.Machine

/-- The merge loop allocates behind the leaves. -/
theorem leafScan_nodes_prefix (freq : Table Nat) : (leafScan freq).nodes <+: builtNodes freq :=
  builtForest_induction (P := fun f => (leafScan freq).nodes <+: f.nodes) (List.prefix_refl _)
    fun _ _ _ _ h => h.trans (List.prefix_append ..)

/-- The leaves take the first slots, in ascending byte value (R116). -/
theorem builtNodes_getElem?_of_present {freq : Table Nat} {k : Nat} {v : Byte}
    (h : (present freq)[k]? = some v) : (builtNodes freq)[k]? = some (leafNode v (freq.get v)) := by
  obtain ⟨more, hmore⟩ := leafScan_nodes_prefix freq
  have hk : (leafScan freq).nodes[k]? = some (leafNode v (freq.get v)) := by
    rw [leafScan_nodes, List.getElem?_map, h, Option.map_some]
  obtain ⟨hlt, -⟩ := List.getElem?_eq_some_iff.mp hk
  rw [← hmore, List.getElem?_append_left hlt, hk]

/-- A leaf of a built tree is in the slot of its byte. -/
theorem present_getElem?_of_leaf {freq : Table Nat} {p : Nat} (hp : p < (builtNodes freq).length)
    (hk : (nodeAt (builtNodes freq) p).kids = none) :
    (present freq)[p]? = some (nodeAt (builtNodes freq) p).value := by
  by_cases hlt : p < (present freq).length
  · have hv := List.getElem?_eq_getElem hlt
    rw [hv, nodeAt_of_getElem? (builtNodes_getElem?_of_present hv), leafNode]
  · obtain ⟨l, r, hk', -⟩ := (builtForest_mergeInv freq).merges p (Nat.le_of_not_lt hlt) hp
    cases hk.symm.trans hk'

/-- An internal slot of a built tree is a merge. -/
theorem built_mergesLowest {freq : Table Nat} {p : Nat} {lr : Nat × Nat}
    (hk : (nodeAt (builtNodes freq) p).kids = some lr) : MergesLowest (builtNodes freq) p := by
  obtain ⟨hle, -⟩ := (builtForest_buildInv freq).internal p lr.1 lr.2 hk
  exact (builtForest_mergeInv freq).merges p hle (lt_length_of_kids hk)

/-- A merge takes no node that a slot before it has as its left child. -/
theorem built_le_of_left_eq {freq : Table Nat} {p q l r r' : Nat}
    (hp : (nodeAt (builtNodes freq) p).kids = some (l, r))
    (hq : (nodeAt (builtNodes freq) q).kids = some (l, r')) : q ≤ p := by
  obtain ⟨l₀, r₀, hq₀, -, -, ⟨-, hfree⟩, -⟩ := built_mergesLowest hq
  cases hq.symm.trans hq₀
  exact Nat.le_of_not_lt fun hlt => (hfree p l r hlt hp).1 rfl

/-- Structurally equal nodes of a built tree are one node: equal leaves have one byte, and equal
internal nodes one left child. -/
theorem built_eq_of_nodeEq {freq : Table Nat} {p q : Nat} (hp : p < (builtNodes freq).length)
    (hq : q < (builtNodes freq).length) (h : nodeEq (builtNodes freq) p q = true) : p = q := by
  induction p using Nat.strongRecOn generalizing q with
  | ind p ih =>
    have hint := built_internalAbove freq
    obtain ⟨hv, -, ⟨hkp, hkq⟩ | ⟨l, r, l', r', hkp, hkq, hl, -⟩⟩ := (nodeEq_iff hint p q).mp h
    · have hpv := present_getElem?_of_leaf hp hkp
      have hqv := present_getElem?_of_leaf hq hkq
      obtain ⟨hlt, -⟩ := List.getElem?_eq_some_iff.mp hpv
      exact (List.getElem?_inj hlt (present_nodup freq)).mp (by rw [hpv, hqv, hv])
    · obtain ⟨-, hlp, -⟩ := hint p l r hkp
      obtain ⟨-, hlq, -⟩ := hint q l' r' hkq
      obtain rfl := ih l hlp (hlp.trans hp) (hlq.trans hq) hl
      exact Nat.le_antisymm (built_le_of_left_eq hkq hkp) (built_le_of_left_eq hkp hkq)

/-- Settles O28: ND.EQ by its checks, the recursion and the equivalence by the invariant's clause (e),
and a built tree by its merges. -/
theorem structuralEquality : Obligations.StructuralEquality := by
  refine ⟨fun s a b => ⟨rfl, exec_ndEq_unallocated, exec_ndEq_ok⟩, fun s p q o hinv _ _ _ => ?_,
    fun freq p q hp hq hne => ?_⟩
  · have hint := hinv.nodes.internalAbove
    exact ⟨nodeEq_iff hint p q, nodeEq_refl hint p, nodeEq_comm hint p q, nodeEq_trans hint⟩
  · exact Bool.eq_false_iff.mpr fun h => hne (built_eq_of_nodeEq hp hq h)

end Sys2Proof.Machine
end

section
/-! SUPPORT. TB.BUILD (41_tree_builder.md R116, R117, R121): what it leaves is a function of the
frequency table, and the root is the last slot. -/

namespace Sys2Proof.Machine

/-- The last slot allocated is the root: it is no slot's child. -/
theorem builtRoot_eq {freq : Table Nat} (h : present freq ≠ []) :
    builtRoot freq = some (2 * (present freq).length - 2) := by
  have hpos := List.length_pos_iff.mpr h
  obtain ⟨hpq, hnodes⟩ := builtForest_lengths freq
  have hlast : 2 * (present freq).length - 2 ∈ (builtForest freq).pq := by
    refine ((builtForest_mergeInv freq).unmerged _).mpr ⟨by rw [← builtNodes]; omega, ?_⟩
    intro m l r hm hk
    obtain ⟨-, hl, hr⟩ := built_internalAbove freq m l r hk
    rw [← builtNodes] at hm
    omega
  obtain ⟨r, hr⟩ := List.length_eq_one_iff.mp (hpq.trans (Nat.min_eq_left hpos))
  rw [builtRoot, hr, List.head?_cons]
  rw [hr, List.mem_singleton] at hlast
  rw [hlast]

theorem exists_builtRoot {freq : Table Nat} (h : 0 < (present freq).length) :
    ∃ r, builtRoot freq = some r :=
  ⟨_, builtRoot_eq (List.length_pos_iff.mp h)⟩

theorem built_nil {freq : Table Nat} (h : present freq = []) :
    builtNodes freq = [] ∧ builtRoot freq = none := by
  obtain ⟨hpq, hnodes⟩ := builtForest_lengths freq
  rw [h] at hpq hnodes
  refine ⟨List.length_eq_zero_iff.mp hnodes, ?_⟩
  rw [builtRoot, List.length_eq_zero_iff.mp hpq, List.head?_nil]

theorem builtNodes_singleton {freq : Table Nat} {v : Byte} (h : present freq = [v]) :
    builtNodes freq = [leafNode v (freq.get v)] := by
  have hlen := (builtForest_lengths freq).2
  have hleaf := builtNodes_getElem?_of_present (freq := freq) (k := 0) (v := v) (by rw [h]; rfl)
  rw [h] at hlen
  obtain ⟨n, hn⟩ := List.length_eq_one_iff.mp hlen
  rw [hn] at hleaf ⊢
  exact congrArg (fun n => [n]) (Option.some.inj hleaf)

/-- The `ROOT` word, where a pointer has 9 bits (10_state.md R37). -/
theorem rootWord_eq {s : State} (h : ∀ r, s.root = some r → r < 2 ^ 9) :
    s.rootWord = natWord (match s.root with | none => 0 | some r => 65536 + r) := by
  unfold State.rootWord
  cases hr : s.root with
  | none => rfl
  | some r =>
    refine BitVec.eq_of_toNat_eq ?_
    simp only [natWord, BitVec.toNat_setWidth, toNat_append_eq_add, BitVec.toNat_ofNat,
      Nat.mod_eq_of_lt (h r hr)]
    omega

theorem exec_tbBuild (s : State) :
    exec .tbBuild s = .next (s.buildTree.ok
      (natWord (match builtRoot s.freq with | none => 0 | some r => 65536 + r))) := by
  have hroot : ∀ r, s.buildTree.root = some r → r < 2 ^ 9 := fun r hr =>
    ((builtRoot_lt hr).trans_le (builtNodes_length_le s.freq)).trans (by decide)
  rw [exec, execTbBuild, respond_eq, rootWord_eq hroot]
  rfl

/-- Settles O34: the build for a frequency table, and the codes of its tree. -/
theorem treeBuild : Obligations.TreeBuild := by
  refine ⟨fun _ _ => rfl, fun freq => ⟨builtNodes freq, builtRoot freq, ?_, built_nil, fun v hv => ?_,
    fun hne => ⟨(builtForest_lengths freq).2, builtRoot_eq hne⟩,
    fun k v => builtNodes_getElem?_of_present⟩, ?_⟩
  · rintro s rfl
    exact exec_tbBuild s
  · refine ⟨builtNodes_singleton hv, ?_⟩
    rw [builtRoot_eq (by simp [hv]), hv]
    rfl
  · intro s s' t t' u u' hfreq ht ht' hu hu'
    cases ht
    cases ht'
    cases hu
    cases hu'
    simp [State.genCodes, State.buildTree, hfreq]

end Sys2Proof.Machine
end

section
/-! SUPPORT. The contract of the tree builder (41_tree_builder.md R115): the paths to the leaves of a
built tree, and how many slots are leaves. -/

namespace Sys2Proof.Machine

/-- Every path to a leaf is one of the tree's. -/
theorem mem_treePaths_of_leadsTo {nodes : List Node} (hint : InternalAbove 0 nodes) {n : Nat}
    {v : Byte} {path : List Bool} (h : LeadsTo nodes n v path) :
    (v, path) ∈ treePaths nodes (some n) := by
  induction path generalizing n with
  | nil =>
    obtain ⟨p, hd, hk, rfl⟩ := h
    cases hd
    rw [treePaths_leaf hk]
    exact List.mem_singleton_self _
  | cons b rest ih =>
    obtain ⟨p, hd, hleaf⟩ := h
    unfold descend at hd
    split at hd
    · cases hd
    · next l r hk =>
      have hmem := ih ⟨p, hd, hleaf⟩
      rw [treePaths_internal hint hk, List.mem_append]
      cases b with
      | false => exact .inl (List.mem_map.mpr ⟨_, hmem, rfl⟩)
      | true => exact .inr (List.mem_map.mpr ⟨_, hmem, rfl⟩)

theorem leadsTo_iff {nodes : List Node} (hint : InternalAbove 0 nodes) {n : Nat} {v : Byte}
    {path : List Bool} : LeadsTo nodes n v path ↔ (v, path) ∈ treePaths nodes (some n) :=
  ⟨mem_treePaths_of_leadsTo hint, leadsTo_of_mem_treePaths hint⟩

/-- The bytes at the leaves below the root are the present ones. -/
theorem exists_leadsTo_iff {freq : Table Nat} {r : Nat} (h : builtRoot freq = some r) (v : Byte) :
    (∃ path, LeadsTo (builtNodes freq) r v path) ↔ freq.get v ≠ 0 := by
  rw [← mem_present, ← (builtRoot_leafBytes_perm h).mem_iff, leafBytes, List.mem_map]
  simp only [leadsTo_iff (built_internalAbove freq)]
  exact ⟨fun ⟨path, hmem⟩ => ⟨_, hmem, rfl⟩, fun ⟨⟨_, path⟩, hmem, he⟩ => ⟨path, he ▸ hmem⟩⟩

/-- The leaves have different bytes, so a byte has one path at most. -/
theorem built_leadsTo_unique {freq : Table Nat} {r : Nat} (h : builtRoot freq = some r) {v : Byte}
    {path path' : List Bool} (hp : LeadsTo (builtNodes freq) r v path)
    (hp' : LeadsTo (builtNodes freq) r v path') : path = path' := by
  rw [leadsTo_iff (built_internalAbove freq), ← h] at hp hp'
  exact congrArg Prod.snd (List.inj_on_of_nodup_map (built_leaves_nodup freq) hp hp' rfl)

/-- The leaf scan allocates leaves alone and the merge loop none. -/
theorem builtNodes_filter_isLeaf (freq : Table Nat) :
    (builtNodes freq).filter Node.isLeaf = (leafScan freq).nodes := by
  refine builtForest_induction (P := fun f => f.nodes.filter Node.isLeaf = (leafScan freq).nodes)
    (List.filter_eq_self.mpr fun n hn => ?_) fun nodes l r rest h => ?_
  · rw [leafScan_nodes] at hn
    obtain ⟨v, -, rfl⟩ := List.mem_map.mp hn
    rfl
  · rw [addMerged_eq_push, push_nodes, alloc, List.filter_append, h]
    exact List.append_nil _

/-- Of the `2 L - 1` slots, `L` are leaves and `L - 1` are internal (R115). -/
theorem builtNodes_leaf_count (freq : Table Nat) :
    ((builtNodes freq).filter fun n => n.isLeaf).length = (present freq).length
      ∧ ((builtNodes freq).filter fun n => !n.isLeaf).length = (present freq).length - 1 := by
  have hleaves : ((builtNodes freq).filter fun n => n.isLeaf).length = (present freq).length := by
    rw [builtNodes_filter_isLeaf, leafScan_nodes_length]
  have hsum := List.length_eq_length_filter_add (l := builtNodes freq) Node.isLeaf
  rw [(builtForest_lengths freq).2, hleaves] at hsum
  exact ⟨hleaves, by omega⟩

/-- Settles O35: the root by the number of present bytes, the paths by the leaves below it. -/
theorem treeBuilderContract : Obligations.TreeBuilderContract := by
  intro s t h
  cases h
  refine ⟨fun h0 => ?_, fun h1 => ?_, fun h2 => ?_, fun r v hr hv => ?_,
    fun r v path hr hp => ?_, builtNodes_leaf_count s.freq⟩
  · exact (built_nil (List.length_eq_zero_iff.mp h0)).2
  · obtain ⟨r, hr⟩ := exists_builtRoot (h1 ▸ Nat.one_pos)
    exact ⟨r, hr, Option.isNone_iff_eq_none.mp ((builtRoot_isLeaf_iff hr).mpr h1)⟩
  · obtain ⟨r, hr⟩ := exists_builtRoot (Nat.zero_lt_of_lt h2)
    refine ⟨r, hr, fun hk => ?_⟩
    have hone := (builtRoot_isLeaf_iff hr).mp (Option.isNone_iff_eq_none.mpr hk)
    omega
  · obtain ⟨path, hp⟩ := (exists_leadsTo_iff hr v).mpr hv
    exact ⟨path, hp, fun path' hp' => built_leadsTo_unique hr hp' hp⟩
  · exact (exists_leadsTo_iff hr v).mp ⟨path, hp⟩

end Sys2Proof.Machine
end

section
/-! SUPPORT. The code table (42_code_table.md R130 to R136): the entry of a path read back bit by bit,
what `GenCodes` leaves in the entry of each byte, and the read-out of an entry. -/

namespace Sys2Proof.Machine

theorem pathEntry_len {path : List Bool} (h : path.length ≤ maxCodeLen) :
    (pathEntry path).len.toNat = path.length :=
  Nat.mod_eq_of_lt (Nat.lt_succ_of_le h)

/-- Bit `k` of the entry of a path is the path's `k`-th edge, and 0 beyond its end. -/
theorem pathEntry_getLsbD {path : List Bool} (h : path.length ≤ maxCodeLen) (k : Nat) :
    (pathEntry path).bits.getLsbD k = path.getD k false := by
  rw [pathEntry, BitVec.getLsbD_ofNat, testBit_pathNat]
  rcases Nat.lt_or_ge k 256 with hk | hk
  · simp [hk]
  · have hbeyond : path.length ≤ k := (h.trans (by decide)).trans hk
    simp [hbeyond]

/-- The bits of a path's entry are the path. -/
theorem codeBits_pathEntry {path : List Bool} (h : path.length ≤ maxCodeLen) :
    codeBits (pathEntry path) = path := by
  refine List.ext_getElem (by simp [codeBits, pathEntry_len h]) fun k _ hk => ?_
  simp [codeBits, pathEntry_getLsbD h, hk]

/-- An entry that no pair is for is left as it is. -/
theorem foldl_writeCode_get_of_not_mem {vps : List (Byte × List Bool)} {v : Byte}
    (h : v ∉ vps.map Prod.fst) (t : Table CodeEntry) : (vps.foldl writeCode t).get v = t.get v := by
  induction vps generalizing t with
  | nil => rfl
  | cons vp vps ih =>
    rw [List.map_cons, List.mem_cons, not_or] at h
    obtain ⟨hne, hrest⟩ := h
    rw [List.foldl_cons, ih hrest, writeCode, Table.get_set_ne _ _ hne]

/-- Where no byte has two pairs, each pair's path is written and stays. -/
theorem foldl_writeCode_get_of_mem {vps : List (Byte × List Bool)}
    (hnodup : (vps.map Prod.fst).Nodup) {v : Byte} {path : List Bool} (h : (v, path) ∈ vps)
    (t : Table CodeEntry) : (vps.foldl writeCode t).get v = pathEntry path := by
  induction vps generalizing t with
  | nil => cases h
  | cons vp vps ih =>
    rw [List.map_cons, List.nodup_cons] at hnodup
    obtain ⟨hnot, hrest⟩ := hnodup
    rw [List.foldl_cons]
    rcases List.mem_cons.mp h with rfl | h
    · rw [foldl_writeCode_get_of_not_mem hnot, writeCode, Table.get_set_self]
    · exact ih hrest h _

/-- Where the leaves have different bytes, a leaf's byte has the entry of its path. -/
theorem genTable_get_of_leadsTo {nodes : List Node} {r : Nat} (hint : InternalAbove 0 nodes)
    (hnodup : ((treePaths nodes (some r)).map Prod.fst).Nodup) {v : Byte} {path : List Bool}
    (h : LeadsTo nodes r v path) : (genTable nodes (some r)).get v = pathEntry path :=
  foldl_writeCode_get_of_mem hnodup ((leadsTo_iff hint).mp h) _

/-- A byte at no leaf has the empty entry. -/
theorem genTable_get_of_no_leaf {nodes : List Node} {r : Nat} (hint : InternalAbove 0 nodes)
    {v : Byte} (h : ∀ path, ¬ LeadsTo nodes r v path) :
    (genTable nodes (some r)).get v = CodeEntry.empty := by
  have hnot : v ∉ (treePaths nodes (some r)).map Prod.fst := by
    intro hmem
    obtain ⟨⟨_, path⟩, hp, rfl⟩ := List.mem_map.mp hmem
    exact h path ((leadsTo_iff hint).mpr hp)
  rw [genTable, foldl_writeCode_get_of_not_mem hnot, Table.get_fill]

/-- Settles O38: `Visit` gives the pairs of a byte and the path to its leaf, and each is written to
its byte's entry. -/
theorem codesArePaths : Obligations.CodesArePaths := by
  refine fun s a b => ⟨rfl, genTable s.nodes s.root, (treePaths s.nodes s.root).length, rfl,
    fun hroot => ?_, fun r hinv hroot => ?_⟩
  · rw [hroot]
    exact ⟨rfl, Table.get_fill _⟩
  · have hint := hinv.nodes.internalAbove
    have hdepth := hinv.rootDepth
    have hnodup := hinv.rootLeaves
    rw [hroot] at hdepth hnodup ⊢
    refine ⟨fun v path hp => ?_, fun v => genTable_get_of_no_leaf hint,
      treePaths s.nodes (some r), hnodup.of_map _, rfl, fun v path => (leadsTo_iff hint).symm⟩
    have hlen : path.length ≤ maxCodeLen := hdepth _ ((leadsTo_iff hint).mp hp)
    rw [genTable_get_of_leadsTo hint hnodup hp]
    exact ⟨pathEntry_len hlen, pathEntry_getLsbD hlen⟩

section

variable {s : State} {a b : Nat}

theorem exec_ctLen_badOperand (h : 255 < a) : exec (.ctLen a) s = .next (s.err 7#8) := by
  rw [exec, execCtLen, if_pos (Nat.not_le.mpr h)]
  rfl

theorem exec_ctLen_ok (ha : isByte a) :
    exec (.ctLen a) s = .next (s.ok (natWord (s.code.get (byteOf a)).len.toNat)) := by
  rw [exec, execCtLen, if_neg (not_not.mpr ha), respond_eq, natWord, BitVec.ofNat_toNat]

theorem exec_ctBits_badOperand (h : 255 < a ∨ 3 < b) :
    exec (.ctBits a b) s = .next (s.err 7#8) := by
  by_cases ha : isByte a
  · have hb : ¬ isQuarter b := by omega
    rw [exec, execCtBits, if_neg (not_not.mpr ha), if_pos hb]
    rfl
  · rw [exec, execCtBits, if_pos ha]
    rfl

theorem exec_ctBits_ok (ha : isByte a) (hb : isQuarter b) :
    exec (.ctBits a b) s
      = .next (s.ok ((s.code.get (byteOf a)).bits.extractLsb' (64 * b) 64)) := by
  rw [exec, execCtBits, if_neg (not_not.mpr ha), if_neg (not_not.mpr hb), respond_eq]

end

/-- Settles O39: each command by its checks, and the bits of a quarter. -/
theorem codeTableReadOut : Obligations.CodeTableReadOut := by
  refine fun s a b => ⟨⟨rfl, rfl⟩, fun ha =>
    ⟨exec_ctLen_badOperand ha, exec_ctBits_badOperand (.inl ha)⟩,
    fun hb => exec_ctBits_badOperand (.inr hb), exec_ctLen_ok,
    fun ha hb => ⟨_, exec_ctBits_ok ha hb, fun k hk => ?_⟩⟩
  have hquarter : ((s.code.get (byteOf a)).bits.extractLsb' (64 * b) 64).getLsbD k
      = (s.code.get (byteOf a)).bits.getLsbD (64 * b + k) := by
    simp [hk]
  exact ⟨hquarter, fun hinv hlen => hquarter.trans (hinv.codeTail _ _ hlen)⟩

end Sys2Proof.Machine
end

section
/-! SUPPORT. The code of a frequency table (42_code_table.md R137): each present byte's code is the path
to its leaf in the built tree; no path to a leaf goes on to another leaf; and a full binary tree meets
Kraft's inequality with equality. -/

namespace Sys2Proof.Machine

theorem built_leadsTo_length_le {freq : Table Nat} {r : Nat} (hr : builtRoot freq = some r)
    {v : Byte} {path : List Bool} (h : LeadsTo (builtNodes freq) r v path) :
    path.length ≤ maxCodeLen :=
  built_path_length_le (hr ▸ (leadsTo_iff (built_internalAbove freq)).mp h)

/-- The entry of a byte at a leaf of the built tree is that of the path to it. -/
theorem codesOf_get_of_leadsTo {freq : Table Nat} {r : Nat} (hr : builtRoot freq = some r)
    {v : Byte} {path : List Bool} (h : LeadsTo (builtNodes freq) r v path) :
    (codesOf freq).get v = pathEntry path := by
  have hnodup := built_leaves_nodup freq
  rw [hr] at hnodup
  rw [codesOf, hr, genTable_get_of_leadsTo (built_internalAbove freq) hnodup h]

theorem codesOf_len_of_leadsTo {freq : Table Nat} {r : Nat} (hr : builtRoot freq = some r)
    {v : Byte} {path : List Bool} (h : LeadsTo (builtNodes freq) r v path) :
    ((codesOf freq).get v).len.toNat = path.length := by
  rw [codesOf_get_of_leadsTo hr h, pathEntry_len (built_leadsTo_length_le hr h)]

/-- A byte's code is the path to its leaf. -/
theorem codeBits_codesOf_of_leadsTo {freq : Table Nat} {r : Nat} (hr : builtRoot freq = some r)
    {v : Byte} {path : List Bool} (h : LeadsTo (builtNodes freq) r v path) :
    codeBits ((codesOf freq).get v) = path := by
  rw [codesOf_get_of_leadsTo hr h, codeBits_pathEntry (built_leadsTo_length_le hr h)]

/-- A built tree of two or more leaves has no leaf as its root, so no path to a leaf is empty. -/
theorem built_leadsTo_ne_nil {freq : Table Nat} {r : Nat} (hr : builtRoot freq = some r)
    (htwo : 2 ≤ (present freq).length) {v : Byte} {path : List Bool}
    (h : LeadsTo (builtNodes freq) r v path) : path ≠ [] := by
  rintro rfl
  obtain ⟨p, hd, hleaf, -⟩ := h
  cases hd
  have hone := (builtRoot_isLeaf_iff hr).mp (Option.isNone_iff_eq_none.mpr hleaf)
  omega

theorem descend_append {nodes : List Node} {n : Nat} {path rest : List Bool} :
    descend nodes n (path ++ rest) = (descend nodes n path).bind (descend nodes · rest) := by
  induction path generalizing n with
  | nil => rfl
  | cons b path ih =>
    rw [List.cons_append, descend, descend]
    cases (nodeAt nodes n).kids with
    | none => rfl
    | some lr => exact ih

/-- No path to a leaf goes on to another leaf. -/
theorem LeadsTo.eq_of_prefix {nodes : List Node} {n : Nat} {u v : Byte} {path path' : List Bool}
    (h : LeadsTo nodes n u path) (h' : LeadsTo nodes n v path') (hpre : path <+: path') : u = v := by
  obtain ⟨p, hd, hleaf, rfl⟩ := h
  obtain ⟨q, hd', -, rfl⟩ := h'
  obtain ⟨rest, rfl⟩ := hpre
  rw [descend_append, hd, Option.bind_some] at hd'
  cases rest with
  | nil => cases hd'; rfl
  | cons b rest => simp [descend, hleaf] at hd'

/-- The paths of a tree fill the code space: `2^(-length)` sums to 1, here times `2^m`. -/
theorem sum_two_pow_sub_length {nodes : List Node} (hint : InternalAbove 0 nodes) {n m : Nat}
    (h : ∀ vp ∈ treePaths nodes (some n), vp.2.length ≤ m) :
    ((treePaths nodes (some n)).map fun vp => 2 ^ (m - vp.2.length)).sum = 2 ^ m := by
  induction n using Nat.strongRecOn generalizing m with
  | ind n ih =>
    cases hk : (nodeAt nodes n).kids with
    | none => simp [treePaths_leaf hk]
    | some lr =>
      obtain ⟨l, r⟩ := lr
      obtain ⟨-, hl, hr⟩ := hint n l r hk
      rw [treePaths_internal hint hk] at h ⊢
      obtain ⟨hleft, hright⟩ := List.forall_mem_append.mp h
      rw [List.forall_mem_map] at hleft hright
      obtain ⟨vp, hvp, -⟩ := exists_mem_visit hint (Nat.lt_succ_self l) []
      obtain ⟨m, rfl⟩ := Nat.exists_eq_add_one_of_ne_zero (Nat.ne_zero_of_lt (hleft vp hvp))
      have hl' := ih l hl fun vp hvp => Nat.le_of_succ_le_succ (hleft vp hvp)
      have hr' := ih r hr fun vp hvp => Nat.le_of_succ_le_succ (hright vp hvp)
      simp [Function.comp_def, hl', hr', Nat.pow_succ, Nat.mul_two]

/-- The lengths of the codes are those of the tree's paths. -/
theorem sum_present_codesOf {freq : Table Nat} {r : Nat} (hr : builtRoot freq = some r)
    (f : Nat → Nat) :
    ((present freq).map fun v => f ((codesOf freq).get v).len.toNat).sum
      = ((treePaths (builtNodes freq) (some r)).map fun vp => f vp.2.length).sum := by
  rw [← ((builtRoot_leafBytes_perm hr).map _).sum_eq, leafBytes, List.map_map]
  refine congrArg List.sum (List.map_congr_left fun vp hvp => ?_)
  have hp := (leadsTo_iff (built_internalAbove freq)).mpr hvp
  exact congrArg f (codesOf_len_of_leadsTo hr hp)

/-- Settles O40: the codes are the paths to different leaves of a tree whose root is no leaf. -/
theorem codeIsPrefixFreeAndComplete : Obligations.CodeIsPrefixFreeAndComplete := by
  intro freq htwo
  obtain ⟨r, hr⟩ := exists_builtRoot (Nat.zero_lt_of_lt htwo)
  have hpath : ∀ v ∈ present freq, ∃ path, LeadsTo (builtNodes freq) r v path := fun v hv =>
    (exists_leadsTo_iff hr v).mpr (mem_present.mp hv)
  refine ⟨fun v hv => ?_, fun u hu v hv hne hpre => hne ?_, ?_⟩
  · obtain ⟨path, hp⟩ := hpath v hv
    rw [codesOf_len_of_leadsTo hr hp]
    exact List.length_pos_iff.mpr (built_leadsTo_ne_nil hr htwo hp)
  · obtain ⟨path, hp⟩ := hpath u hu
    obtain ⟨path', hp'⟩ := hpath v hv
    rw [codeBits_codesOf_of_leadsTo hr hp, codeBits_codesOf_of_leadsTo hr hp'] at hpre
    exact hp.eq_of_prefix hp' hpre
  · rw [sum_present_codesOf hr fun len => 2 ^ (255 - len)]
    exact sum_two_pow_sub_length (built_internalAbove freq) fun vp hvp =>
      built_path_length_le (hr ▸ hvp)

end Sys2Proof.Machine
end

section
/-! SUPPORT. The frequency table (43_encoder.md R140 to R144): the three entry commands by their checks,
and what a count of the input sums to. -/

namespace Sys2Proof.Machine

section

variable {s : State} {a b : Nat}

theorem exec_fqWrite_badOperand (h : 255 < a ∨ 2 ^ s.par.wFreq ≤ b) :
    exec (.fqWrite a b) s = .next (s.err 7#8) := by
  by_cases ha : isByte a
  · have hb : ¬ isCount b s := by rcases h with h | h <;> omega
    rw [exec, execFqWrite, if_neg (not_not.mpr ha), if_pos hb]
    rfl
  · rw [exec, execFqWrite, if_pos ha]
    rfl

theorem exec_fqWrite_ok (ha : isByte a) (hb : isCount b s) :
    exec (.fqWrite a b) s = .next ((s.setFreq (s.freq.set (byteOf a) b)).ok 0#64) := by
  rw [exec, execFqWrite, if_neg (not_not.mpr ha), if_neg (not_not.mpr hb), respond_eq]

theorem exec_fqRead_badOperand (h : 255 < a) : exec (.fqRead a) s = .next (s.err 7#8) := by
  rw [exec, execFqRead, if_pos (Nat.not_le.mpr h)]
  rfl

theorem exec_fqRead_ok (ha : isByte a) :
    exec (.fqRead a) s = .next (s.ok (natWord (s.freq.get (byteOf a)))) := by
  rw [exec, execFqRead, if_neg (not_not.mpr ha), respond_eq]

end

/-- Settles O23: each command by its checks, a write by the laws of the table. -/
theorem frequencyEntryCommands : Obligations.FrequencyEntryCommands := fun s a b =>
  ⟨⟨rfl, rfl, rfl⟩, ⟨Table.fill 0, rfl, Table.get_fill 0⟩,
    fun ha => exec_fqWrite_badOperand (.inl ha), fun hb => exec_fqWrite_badOperand (.inr hb),
    fun ha hb => ⟨s.freq.set (byteOf a) b, exec_fqWrite_ok ha hb, Table.get_set_self ..,
      fun _ hne => Table.get_set_ne _ _ hne⟩,
    exec_fqRead_badOperand, exec_fqRead_ok⟩

/-- The present bytes of a count are those of the input. -/
theorem mem_present_countBytes {bytes : List Byte} {v : Byte} :
    v ∈ present (countBytes bytes) ↔ v ∈ bytes := by
  rw [mem_present, countBytes_get, ← Nat.pos_iff_ne_zero, List.count_pos_iff]

/-- A sum over the input, taken byte value by byte value. -/
theorem sum_map_eq_sum_present (bytes : List Byte) (f : Byte → Nat) :
    (bytes.map f).sum
      = ((present (countBytes bytes)).map fun v => (countBytes bytes).get v * f v).sum := by
  have hset : bytes.toFinset = (present (countBytes bytes)).toFinset := by
    ext v
    rw [List.mem_toFinset, List.mem_toFinset, mem_present_countBytes]
  rw [Finset.sum_list_map_count, hset, List.sum_toFinset _ (present_nodup _)]
  simp only [countBytes_get, smul_eq_mul]

/-- Every byte of the input is counted once (R143). -/
theorem sum_countBytes (bytes : List Byte) : (countBytes bytes).cells.sum = bytes.length := by
  rw [← sum_present]
  simpa using (sum_map_eq_sum_present bytes fun _ => 1).symm

/-- Settles O24: the table counts, and the invariant's counters hold what it counts. -/
theorem countFrequencies : Obligations.CountFrequencies := fun s _ _ =>
  ⟨rfl, countBytes s.ibuf, rfl, countBytes_get s.ibuf, sum_countBytes s.ibuf,
    fun hinv => hinv.countFrequencies.counters⟩

end Sys2Proof.Machine
end

section
/-! SUPPORT. ENCODE writes the stream of its definition (43_encoder.md R145 to R151): `EmitBit` and
`FlushBits` put out the body of `Body`, and ENCODE as a whole is one `Put` of the stream. -/

namespace Sys2Proof.Machine

/-- `Put` of two strings, one after the other. -/
theorem putAll_append (cap : Nat) (xs ys out : List Byte) :
    putAll cap (xs ++ ys) out = (putAll cap xs out).bind (putAll cap ys) := by
  induction xs generalizing out with
  | nil => rfl
  | cons x xs ih =>
    rw [List.cons_append, putAll, putAll]
    cases put cap x out with
    | error k => rfl
    | ok o => exact ih o

theorem putAll_singleton (cap : Nat) (x : Byte) (out : List Byte) :
    putAll cap [x] out = put cap x out := by
  rw [putAll]
  cases put cap x out <;> rfl

/-! ### The bit packer -/

/-- The rest of a body: the code bits still to come through the packer, then the flush (R146 step 5). -/
def emitRest (cap : Nat) (pack : Bool) (bits : List Bool) (p : Packer) : Except Kind (List Byte) :=
  (emitBits cap pack bits p).bind fun p => (flushBits cap pack p).map Packer.out

theorem emitBody_eq_emitRest (cap : Nat) (pack : Bool) (bits : List Bool) (out : List Byte) :
    emitBody cap pack bits out = emitRest cap pack bits ⟨out, 0#8, 0⟩ := by
  rw [emitBody, emitRest]
  cases emitBits cap pack bits ⟨out, 0#8, 0⟩ <;> rfl

theorem emitRest_cons (cap : Nat) (pack b : Bool) (bits : List Bool) (p : Packer) :
    emitRest cap pack (b :: bits) p = (emitBit cap pack b p).bind (emitRest cap pack bits) := by
  rw [emitRest, emitBits]
  cases emitBit cap pack b p <;> rfl

/-- In ASCII mode each bit is put out as it comes (R150). -/
theorem emitRest_ascii (cap : Nat) (bits : List Bool) (p : Packer) :
    emitRest cap false bits p = putAll cap (bits.map bitChar) p.out := by
  induction bits generalizing p with
  | nil => rfl
  | cons b bits ih =>
    rw [emitRest_cons, emitBit, List.map_cons, putAll]
    cases put cap (bitChar b) p.out with
    | error k => rfl
    | ok o => exact ih ⟨o, p.pkByte, p.pkCnt⟩

/-- `pk_byte` with one more bit is the byte of the bits collected so far (R149, R151). -/
theorem packBit_packByte {bits : List Bool} (h : bits.length < 8) (b : Bool) :
    packBit (packByte bits) bits.length b = packByte (bits ++ [b]) := by
  refine BitVec.eq_of_getLsbD_eq fun i hi => ?_
  obtain ⟨j, hj, rfl⟩ : ∃ j, j < 8 ∧ i = 7 - j := ⟨7 - i, by omega, by omega⟩
  have hlen : (bits ++ [b]).length ≤ 8 := by simpa using h
  rw [packByte_getLsbD hlen hj, packBit, BitVec.getLsbD_or, packByte_getLsbD h.le hj,
    BitVec.getLsbD_shiftLeft, BitVec.getLsbD_ofNat, Nat.testBit_bool_toNat]
  rcases Nat.lt_trichotomy j bits.length with hlt | rfl | hgt
  · have hne : 7 - j - (7 - bits.length) ≠ 0 := by omega
    rw [List.getD_append _ _ _ _ hlt]
    simp [hne]
  · simp [hi]
  · have hbelow : 7 - j < 7 - bits.length := by omega
    have hbeyond : (bits ++ [b]).length ≤ j := by simpa using hgt
    rw [List.getD_eq_default _ _ hbeyond, List.getD_eq_default _ _ hgt.le]
    simp [hbelow]

theorem packBytes_nil (fuel : Nat) : packBytes fuel [] = [] := by
  cases fuel <;> rfl

/-- The bits of a body are packed from the front. -/
theorem packBytes_of_ne_nil {fuel : Nat} {bits : List Bool} (h : bits ≠ [])
    (hfuel : bits.length ≤ fuel) :
    packBytes fuel bits = packByte (bits.take 8) :: packBytes (fuel - 1) (bits.drop 8) := by
  cases bits with
  | nil => exact absurd rfl h
  | cons b rest =>
    cases fuel with
    | zero => exact absurd hfuel (Nat.not_succ_le_zero _)
    | succ fuel => rfl

/-- The flush puts out the bits collected, as the last byte of the body (R149). -/
theorem emitRest_nil_packed {cap fuel : Nat} {held : List Bool} (hheld : held.length < 8)
    (hfuel : held.length ≤ fuel) (out : List Byte) :
    emitRest cap true [] ⟨out, packByte held, held.length⟩
      = putAll cap (packBytes fuel held) out := by
  by_cases hne : held = []
  · rw [hne, packBytes_nil]
    rfl
  · have hpos : 0 < held.length := List.length_pos_iff.mpr hne
    rw [packBytes_of_ne_nil hne hfuel, List.take_of_length_le hheld.le,
      List.drop_of_length_le hheld.le, packBytes_nil, putAll_singleton]
    simp only [emitRest, emitBits, Except.bind, flushBits, if_pos hpos]
    cases put cap (packByte held) out <;> rfl

/-- In PACKED8 mode a byte is put out whenever eight bits are collected, and what is left by the flush
(R149, R151). -/
theorem emitRest_packed {cap fuel : Nat} {held bits : List Bool} (hheld : held.length < 8)
    (hfuel : (held ++ bits).length ≤ fuel) (out : List Byte) :
    emitRest cap true bits ⟨out, packByte held, held.length⟩
      = putAll cap (packBytes fuel (held ++ bits)) out := by
  induction bits generalizing held fuel out with
  | nil =>
    rw [List.append_nil] at hfuel ⊢
    exact emitRest_nil_packed hheld hfuel out
  | cons b bits ih =>
    have hsplit : held ++ b :: bits = (held ++ [b]) ++ bits := by simp
    have hlen : (held ++ [b]).length = held.length + 1 := List.length_append ..
    rw [emitRest_cons, emitBit, packBit_packByte hheld, hsplit]
    rw [hsplit] at hfuel
    by_cases hfull : held.length + 1 = 8
    · have h8 : (held ++ [b]).length = 8 := hlen.trans hfull
      rw [if_pos hfull, packBytes_of_ne_nil (by simp) hfuel, List.take_left' h8,
        List.drop_left' h8, putAll]
      cases put cap (packByte (held ++ [b])) out with
      | error k => rfl
      | ok o => exact ih (held := []) (by decide) (by simp at hfuel ⊢; omega) o
    · rw [if_neg hfull, ← hlen]
      exact ih (by omega) hfuel out

/-- The body of ENCODE is `Put` of the body of R145. -/
theorem emitBody_eq_putAll (cap : Nat) (pack : Bool) (bits : List Bool) (out : List Byte) :
    emitBody cap pack bits out = putAll cap (bodyBytes pack bits) out := by
  rw [emitBody_eq_emitRest]
  cases pack with
  | false => exact emitRest_ascii cap bits _
  | true => exact emitRest_packed (held := []) (by decide) (Nat.le_refl _) out

/-! ### The stream -/

/-- The stream of R145, its two cases told apart by the number of different bytes. -/
theorem encodedStream_eq (pack : Bool) (bytes : List Byte) :
    encodedStream pack bytes = createHeader (countBytes bytes) ++ [charNewline] ++
      if 2 ≤ (present (countBytes bytes)).length then
        bodyBytes pack (inputBits (codesOf (countBytes bytes)) bytes)
      else [] := by
  rw [encodedStream, codesOf]
  cases hr : builtRoot (countBytes bytes) with
  | none =>
    have hfew : ¬ 2 ≤ (present (countBytes bytes)).length := fun htwo => by
      obtain ⟨r, hr'⟩ := exists_builtRoot (Nat.zero_lt_of_lt htwo)
      simp [hr] at hr'
    rw [if_neg hfew]
  | some r =>
    have hpos : (present (countBytes bytes)).length ≠ 0 := fun h0 => by
      simp [(built_nil (List.length_eq_zero_iff.mp h0)).2] at hr
    have hleaf := builtRoot_isLeaf_iff hr
    by_cases hone : (present (countBytes bytes)).length = 1
    · simp [hleaf.mpr hone, hone]
    · have htwo : 2 ≤ (present (countBytes bytes)).length := by omega
      rw [if_pos htwo]
      simp only [if_neg (hleaf.not.mpr hone)]

theorem encodedStream_of_le_one {pack : Bool} {bytes : List Byte}
    (h : (present (countBytes bytes)).length ≤ 1) :
    encodedStream pack bytes = createHeader (countBytes bytes) ++ [charNewline] := by
  rw [encodedStream_eq, if_neg (Nat.not_le.mpr (Nat.lt_succ_of_le h)), List.append_nil]

theorem encodedStream_of_two_le {pack : Bool} {bytes : List Byte}
    (h : 2 ≤ (present (countBytes bytes)).length) :
    encodedStream pack bytes = createHeader (countBytes bytes) ++ charNewline ::
      bodyBytes pack (inputBits (codesOf (countBytes bytes)) bytes) := by
  rw [encodedStream_eq, if_pos h, List.append_assoc, List.singleton_append]

/-! ### The command -/

/-- The answer of a composite command whose run gives `r` (43_encoder.md R146, 60_exceptions.md
R203). -/
def compositeAnswer (s : State) (r : Except Kind State) : Result :=
  match r with
  | .error k => raise .composite k s
  | .ok t => respond (natWord t.obuf.length) t

theorem exec_encode (s : State) : exec .encode s = compositeAnswer s (encodeRun s) := by
  rw [exec, execEncode]
  cases encodeRun s <;> rfl

/-- What ENCODE leaves in its tables: the codes only of a tree of two or more leaves (R146). -/
def State.encodeResult (s : State) : State :=
  if s.encodeTables.branched then s.encodeTables.genCodes else s.encodeTables

theorem encodeTables_branched_iff (s : State) :
    s.encodeTables.branched = true ↔ 2 ≤ (present (countBytes s.ibuf)).length :=
  buildTree_branched_iff (s.setObuf []).countFrequencies

theorem encodeResult_of_two_le {s : State} (h : 2 ≤ (present (countBytes s.ibuf)).length) :
    s.encodeResult = s.encodeTables.genCodes :=
  if_pos ((encodeTables_branched_iff s).mpr h)

theorem encodeResult_of_le_one {s : State} (h : (present (countBytes s.ibuf)).length ≤ 1) :
    s.encodeResult = s.encodeTables :=
  if_neg fun hb => Nat.not_le.mpr (Nat.lt_succ_of_le h) ((encodeTables_branched_iff s).mp hb)

/-- ENCODE after the header line, which has left `out` in the output buffer (R146 steps 4 to 6). -/
def State.encodeBody (s : State) (out : List Byte) : Except Kind State :=
  if s.encodeTables.branched then
    (emitBody s.par.obufCap s.pack (inputBits s.encodeTables.genCodes.code s.ibuf) out).map
      fun o => s.encodeTables.genCodes.setObuf o
  else .ok (s.encodeTables.setObuf out)

theorem encodeRun_eq_bind (s : State) :
    encodeRun s = (putAll s.par.obufCap (createHeader (countBytes s.ibuf) ++ [charNewline]) []).bind
      s.encodeBody := by
  have hfreq : s.encodeTables.freq = countBytes s.ibuf := rfl
  rw [encodeRun, hfreq]
  cases putAll s.par.obufCap (createHeader (countBytes s.ibuf) ++ [charNewline]) [] with
  | error k => rfl
  | ok out =>
    simp only [Except.bind, State.encodeBody]
    split
    · cases emitBody s.par.obufCap s.pack (inputBits s.encodeTables.genCodes.code s.ibuf) out <;> rfl
    · rfl

/-- ENCODE is `Put` of the whole stream (R145, R146). -/
theorem encodeRun_eq_putAll (s : State) :
    encodeRun s = (putAll s.par.obufCap (encodedStream s.pack s.ibuf) []).map
      fun o => s.encodeResult.setObuf o := by
  rw [encodeRun_eq_bind, encodedStream_eq, putAll_append _ (_ ++ [charNewline])]
  cases putAll s.par.obufCap (createHeader (countBytes s.ibuf) ++ [charNewline]) [] with
  | error k => rfl
  | ok out =>
    simp only [Except.bind, State.encodeBody, State.encodeResult, encodeTables_branched_iff]
    split
    · rw [emitBody_eq_putAll]
      rfl
    · rfl

theorem exec_encode_fits {s : State}
    (h : (encodedStream s.pack s.ibuf).length ≤ s.par.obufCap) :
    exec .encode s = .next ((s.encodeResult.setObuf (encodedStream s.pack s.ibuf)).ok
      (natWord (encodedStream s.pack s.ibuf).length)) := by
  rw [exec_encode, encodeRun_eq_putAll, putAll_eq (Nat.zero_le _), List.length_nil, Nat.zero_add,
    if_pos h]
  rfl

theorem exec_encode_full {s : State}
    (h : s.par.obufCap < (encodedStream s.pack s.ibuf).length) :
    exec .encode s = .next (s.wiped.err 5#8) := by
  rw [exec_encode, encodeRun_eq_putAll, putAll_eq (Nat.zero_le _), List.length_nil, Nat.zero_add,
    if_neg (Nat.not_le.mpr h)]
  rfl

/-- Settles O47: ENCODE as one `Put` of the stream, in its two cases. -/
theorem encodeWritesTheStream : Obligations.EncodeWritesTheStream := by
  refine fun s a b => ⟨rfl, exec_encode_full, fun hfits => ?_, encodedStream_of_le_one,
    encodedStream_of_two_le⟩
  rw [exec_encode_fits hfits]
  by_cases htwo : 2 ≤ (present (countBytes s.ibuf)).length
  · rw [encodeResult_of_two_le htwo, if_pos htwo, decide_eq_true htwo]
    rfl
  · rw [encodeResult_of_le_one (Nat.le_of_not_lt htwo), if_neg htwo, decide_eq_false htwo]
    rfl

end Sys2Proof.Machine
end

section
/-! SUPPORT. The degenerate inputs (43_encoder.md R147, 60_exceptions.md R207): the tables of no byte
and of one byte; and DECODE as a function of its input, which is all that it reads (44_decoder.md R162,
R169). -/

namespace Sys2Proof.Machine

/-- The header's pairs are those of the present bytes, in their order (45_header_codec.md R176). -/
theorem flatMap_headerPair (freq : Table Nat) :
    freq.entries.flatMap headerPair = (present freq).flatMap fun v => headerPair (v, freq.get v) := by
  rw [Table.entries_eq, present_eq_filter, List.flatMap_map]
  induction symbols with
  | nil => rfl
  | cons v vs ih =>
    rw [List.flatMap_cons, ih, List.filter_cons]
    by_cases h : freq.get v = 0 <;> simp [h, headerPair]

theorem createHeader_of_nil {freq : Table Nat} (h : present freq = []) : createHeader freq = [] := by
  rw [createHeader, flatMap_headerPair, h]
  rfl

theorem createHeader_of_singleton {freq : Table Nat} {v : Byte} (h : present freq = [v]) :
    createHeader freq = dec v.toNat ++ charSpace :: dec (freq.get v) := by
  have hne : freq.get v ≠ 0 := mem_present.mp (by simp [h])
  rw [createHeader, flatMap_headerPair, h, List.flatMap_singleton, headerPair, if_neg hne,
    List.dropLast_concat, List.append_assoc, List.singleton_append]

theorem builtRoot_singleton {freq : Table Nat} {v : Byte} (h : present freq = [v]) :
    builtRoot freq = some 0 := by
  rw [builtRoot_eq (by simp [h]), h]
  rfl

theorem present_fill_zero : present (Table.fill 0) = [] := by
  simp [present_eq_filter]

theorem present_set_fill_zero (v : Byte) (n : Nat) :
    present ((Table.fill 0).set v (n + 1)) = [v] := by
  refine List.perm_singleton.mp
    ((List.perm_ext_iff_of_nodup (present_nodup _) (List.nodup_singleton v)).mpr fun u => ?_)
  rw [mem_present, Table.get_set, Table.get_fill, List.mem_singleton]
  by_cases h : u = v <;> simp [h]

theorem countBytes_replicate (n : Nat) (v : Byte) :
    countBytes (List.replicate n v) = (Table.fill 0).set v n := by
  refine Table.ext_get fun u => ?_
  rw [countBytes_get, Table.get_set, List.count_replicate]
  by_cases h : u = v
  · simp [h]
  · simp [h, Ne.symm h]

theorem buildTree_of_nil {s : State} (h : present s.freq = []) :
    s.buildTree = s.setTree [] none := by
  obtain ⟨hnodes, hroot⟩ := built_nil h
  rw [State.buildTree, hnodes, hroot]

theorem buildTree_of_singleton {s : State} {v : Byte} (h : present s.freq = [v]) :
    s.buildTree = s.setTree [leafNode v (s.freq.get v)] (some 0) := by
  rw [State.buildTree, builtNodes_singleton h, builtRoot_singleton h]

/-- ENCODE of an input with one byte value or none: the header line, and no codes (R147). -/
theorem exec_encode_of_le_one {s : State} {freq : Table Nat} {line : List Byte}
    (hcount : countBytes s.ibuf = freq) (hfew : (present freq).length ≤ 1)
    (hline : createHeader freq ++ [charNewline] = line) (hfits : line.length ≤ s.par.obufCap) :
    exec .encode s = .next
      ((((s.setObuf []).setFreq freq).buildTree.setObuf line).ok (natWord line.length)) := by
  subst hcount
  have hstream : encodedStream s.pack s.ibuf = line := (encodedStream_of_le_one hfew).trans hline
  rw [← hstream] at hfits ⊢
  rw [exec_encode_fits hfits, encodeResult_of_le_one hfew]
  rfl

/-! ### DECODE by its input -/

/-- What DECODE makes of its input: the table of the header and the output, or the error (44_decoder.md
R162). -/
def decodeResult (par : Params) (pack : Bool) (bytes : List Byte) :
    Except Kind (Table Nat × List Byte) :=
  (parseHeader par.wFreq (headerLine bytes)).bind fun tp =>
    (decodeOutput par.obufCap pack (builtNodes tp.1) (builtRoot tp.1) (bodyPart bytes)).map
      (tp.1, ·)

theorem decodeRun_eq (s : State) :
    decodeRun s = (decodeResult s.par s.pack s.ibuf).map fun r =>
      (s.setFreq r.1).buildTree.setObuf r.2 := by
  rw [decodeRun, decodeResult]
  cases parseHeader s.par.wFreq (headerLine s.ibuf) with
  | error k => rfl
  | ok tp =>
    have hnodes : (s.setFreq tp.1).buildTree.nodes = builtNodes tp.1 := rfl
    have hroot : (s.setFreq tp.1).buildTree.root = builtRoot tp.1 := rfl
    simp only [Except.bind, hnodes, hroot]
    cases decodeOutput s.par.obufCap s.pack (builtNodes tp.1) (builtRoot tp.1) (bodyPart s.ibuf) <;>
      rfl

theorem exec_decode (s : State) : exec .decode s = compositeAnswer s (decodeRun s) := by
  rw [exec, execDecode]
  cases decodeRun s <;> rfl

theorem exec_decode_ok {s : State} {freq : Table Nat} {out : List Byte}
    (h : decodeResult s.par s.pack s.ibuf = .ok (freq, out)) :
    exec .decode s
      = .next (((s.setFreq freq).buildTree.setObuf out).ok (natWord out.length)) := by
  rw [exec_decode, decodeRun_eq, h]
  rfl

theorem exec_decode_error {s : State} {k : Kind}
    (h : decodeResult s.par s.pack s.ibuf = .error k) :
    exec .decode s = .next (s.wiped.err k.code) := by
  rw [exec_decode, decodeRun_eq, h]
  rfl

theorem decodeResult_of_parse {par : Params} {pack : Bool} {bytes : List Byte} {freq : Table Nat}
    {n : Nat} (hparse : parseHeader par.wFreq (headerLine bytes) = .ok (freq, n)) :
    decodeResult par pack bytes
      = (decodeOutput par.obufCap pack (builtNodes freq) (builtRoot freq) (bodyPart bytes)).map
          (freq, ·) := by
  rw [decodeResult, hparse]
  rfl

theorem decodeResult_of_parse_error {par : Params} {pack : Bool} {bytes : List Byte} {k : Kind}
    (hparse : parseHeader par.wFreq (headerLine bytes) = .error k) :
    decodeResult par pack bytes = .error k := by
  rw [decodeResult, hparse]
  rfl

/-- What DECODE can answer: an error of the header, an error of the body, or the output. -/
theorem exec_decode_cases {s t : State} (h : exec .decode s = .next t) :
    (∃ k, parseHeader s.par.wFreq (headerLine s.ibuf) = .error k ∧ t = s.wiped.err k.code) ∨
      ∃ freq n, parseHeader s.par.wFreq (headerLine s.ibuf) = .ok (freq, n) ∧
        ((∃ k, decodeOutput s.par.obufCap s.pack (builtNodes freq) (builtRoot freq)
              (bodyPart s.ibuf) = .error k ∧ t = s.wiped.err k.code) ∨
          ∃ out, decodeOutput s.par.obufCap s.pack (builtNodes freq) (builtRoot freq)
              (bodyPart s.ibuf) = .ok out
            ∧ t = ((s.setFreq freq).buildTree.setObuf out).ok (natWord out.length)) := by
  cases hparse : parseHeader s.par.wFreq (headerLine s.ibuf) with
  | error k =>
    cases h.symm.trans (exec_decode_error (decodeResult_of_parse_error hparse))
    exact .inl ⟨k, rfl, rfl⟩
  | ok fn =>
    refine .inr ⟨fn.1, fn.2, rfl, ?_⟩
    have hresult := decodeResult_of_parse (pack := s.pack) hparse
    cases hout : decodeOutput s.par.obufCap s.pack (builtNodes fn.1) (builtRoot fn.1)
        (bodyPart s.ibuf) with
    | error k =>
      cases h.symm.trans (exec_decode_error (hresult.trans (by rw [hout]; rfl)))
      exact .inl ⟨k, rfl, rfl⟩
    | ok out =>
      cases h.symm.trans (exec_decode_ok (hresult.trans (by rw [hout]; rfl)))
      exact .inr ⟨out, rfl, rfl⟩

/-- DECODE under a header without a frequency other than 0 writes nothing (R207). -/
theorem decodeResult_of_nil {par : Params} {pack : Bool} {bytes : List Byte} {freq : Table Nat}
    {n : Nat} (hparse : parseHeader par.wFreq (headerLine bytes) = .ok (freq, n))
    (h : present freq = []) : decodeResult par pack bytes = .ok (freq, []) := by
  rw [decodeResult_of_parse hparse, (built_nil h).2]
  rfl

/-- Settles O50: each command on the table of no byte or of one byte. -/
theorem degenerateInputs : Obligations.DegenerateInputs := by
  have hnil := present_fill_zero
  refine ⟨fun s hempty hcap => ?_, fun s hfreq => ?_, fun s n hparse => ?_,
    fun s v n hsame hfits => ?_⟩
  · have hcount : countBytes s.ibuf = Table.fill 0 := by rw [hempty]; rfl
    have hline : createHeader (Table.fill 0) ++ [charNewline] = [0x0A#8] := by
      rw [createHeader_of_nil hnil]; rfl
    rw [exec_encode_of_le_one hcount (hnil ▸ Nat.zero_le 1) hline hcap,
      buildTree_of_nil (s := (s.setObuf []).setFreq (Table.fill 0)) hnil]
    rfl
  · have hnil : present s.freq = [] := hfreq ▸ hnil
    rw [exec_tbBuild, (built_nil hnil).2, buildTree_of_nil hnil]
    rfl
  · rw [exec_decode_ok (decodeResult_of_nil hparse hnil),
      buildTree_of_nil (s := s.setFreq (Table.fill 0)) hnil]
    rfl
  · have hone := present_set_fill_zero v n
    have hcount : countBytes s.ibuf = (Table.fill 0).set v (n + 1) :=
      hsame ▸ countBytes_replicate (n + 1) v
    have hheader := createHeader_of_singleton hone
    rw [Table.get_set_self] at hheader
    rw [exec_encode_of_le_one hcount (by rw [hone]; rfl) (by rw [hheader]; rfl) hfits,
      buildTree_of_singleton hone, State.setFreq_freq, Table.get_set_self]
    rfl

/-- Settles O51: ENCODE's stream and DECODE's result are functions of the input, `CONFIG.PACK` and the
parameters, and what else they leave is made from these. -/
theorem encodeAndDecodeReadOnlyTheInput : Obligations.EncodeAndDecodeReadOnlyTheInput := by
  intro i s s' t t' hi hpar hibuf hpack ht ht'
  obtain ⟨hframe, hframe'⟩ : t.ibuf = s.ibuf ∧ t.pack = s.pack := by
    have hf := exec_framed ht
    rcases hi with rfl | rfl <;> exact ⟨hf.ibuf rfl, hf.pack rfl⟩
  rcases hi with rfl | rfl
  · obtain ⟨-, hfull, hfits, -⟩ := encodeWritesTheStream s 0 0
    obtain ⟨-, hfull', hfits', -⟩ := encodeWritesTheStream s' 0 0
    rw [← hpar, ← hpack, ← hibuf] at hfull' hfits'
    rcases Nat.lt_or_ge s.par.obufCap (encodedStream s.pack s.ibuf).length with hlt | hle
    · cases ht.symm.trans (hfull hlt)
      cases ht'.symm.trans (hfull' hlt)
      exact ⟨rfl, rfl, rfl, rfl, rfl, rfl, rfl, rfl, hframe, hframe'⟩
    · cases ht.symm.trans (hfits hle)
      cases ht'.symm.trans (hfits' hle)
      exact ⟨rfl, rfl, rfl, rfl, rfl, rfl, rfl, rfl, hframe, hframe'⟩
  · have hsame : decodeResult s'.par s'.pack s'.ibuf = decodeResult s.par s.pack s.ibuf := by
      rw [hpar, hpack, hibuf]
    cases hrun : decodeResult s.par s.pack s.ibuf with
    | error k =>
      cases ht.symm.trans (exec_decode_error hrun)
      cases ht'.symm.trans (exec_decode_error (hsame.trans hrun))
      exact ⟨rfl, rfl, rfl, rfl, rfl, rfl, rfl, rfl, hframe, hframe'⟩
    | ok r =>
      cases ht.symm.trans (exec_decode_ok hrun)
      cases ht'.symm.trans (exec_decode_ok (hsame.trans hrun))
      exact ⟨rfl, rfl, rfl, rfl, rfl, rfl, rfl, rfl, hframe, hframe'⟩

end Sys2Proof.Machine
end

section
/-! SUPPORT. The lengths of the outputs (00_scope.md R7 clause f, 43_encoder.md R148, R154): the
header's bound, the number of code bits, and what a walk of the decoder can write. -/

namespace Sys2Proof.Machine

/-! ### The header and the stream -/

/-- A number below `10^k` has at most `k` digits (R11). -/
theorem dec_length_le {k n : Nat} (h : n < 10 ^ (k + 1)) : (dec n).length ≤ k + 1 := by
  induction k generalizing n with
  | zero => rw [dec_of_lt h]; exact Nat.le_refl 1
  | succ k ih =>
    rcases Nat.lt_or_ge n 10 with hlt | hge
    · rw [dec_of_lt hlt]; exact Nat.le_add_left ..
    · rw [Nat.pow_succ] at h
      rw [dec_of_le hge, List.length_append, List.length_singleton]
      exact Nat.succ_le_succ (ih (by omega))

theorem length_flatMap_le {α β : Type} {l : List α} {f : α → List β} {n : Nat}
    (h : ∀ x ∈ l, (f x).length ≤ n) : (l.flatMap f).length ≤ l.length * n := by
  rw [List.length_flatMap]
  simpa using List.sum_le_card_nsmul (l.map fun x => (f x).length) n (List.forall_mem_map.mpr h)

/-- A pair has a byte of up to three digits, a counter of up to ten, and two spaces (R176). -/
theorem headerPair_length_le (v : Byte) {w : Nat} (hw : w < 2 ^ 32) :
    (headerPair (v, w)).length ≤ 15 := by
  have hv : (dec v.toNat).length ≤ 3 := dec_length_le (k := 2) (by have := v.isLt; omega)
  have hf : (dec w).length ≤ 10 := dec_length_le (k := 9) (by omega)
  rw [headerPair]
  split
  · exact Nat.zero_le _
  · simp only [List.length_append, List.length_singleton]
    omega

/-- A header has up to 256 pairs, and no space at the end. -/
theorem createHeader_length_le {freq : Table Nat} (h : ∀ v, freq.get v < 2 ^ 32) :
    (createHeader freq).length ≤ 3839 := by
  have hpairs : (freq.entries.flatMap headerPair).length ≤ freq.entries.length * 15 := by
    refine length_flatMap_le fun ⟨v, w⟩ hvw => headerPair_length_le v ?_
    exact (Table.mem_entries freq v w).mp hvw ▸ h v
  have hlen : freq.entries.length = 256 := by rw [Table.entries_eq, List.length_map, symbols_length]
  rw [createHeader, List.length_dropLast]
  omega

theorem exec_hdCreate_fits {s : State} (h : (createHeader s.freq).length ≤ s.par.obufCap) :
    exec .hdCreate s = .next ((s.setObuf (createHeader s.freq)).ok
      (natWord (createHeader s.freq).length)) := by
  rw [exec, execHdCreate, if_neg (Nat.not_lt.mpr h), respond_eq]

theorem codeBits_length (c : CodeEntry) : (codeBits c).length = c.len.toNat := by
  simp [codeBits]

/-- A code has at most 255 bits, the most a length of 8 bits can say (R7 clause c). -/
theorem inputBits_length_le (code : Table CodeEntry) (bytes : List Byte) :
    (inputBits code bytes).length ≤ bytes.length * 255 :=
  length_flatMap_le fun x _ => codeBits_length (code.get x) ▸ Nat.le_of_lt_succ (BitVec.isLt _)

/-- Every byte of the input has a code (R148). -/
theorem codesOf_len_pos {bytes : List Byte} (htwo : 2 ≤ (present (countBytes bytes)).length)
    {x : Byte} (hx : x ∈ bytes) : 1 ≤ ((codesOf (countBytes bytes)).get x).len.toNat :=
  (codeIsPrefixFreeAndComplete _ htwo).1 x (mem_present_countBytes.mpr hx)

/-- The number of code bits, byte value by byte value (R148, R154). -/
theorem inputBits_length (code : Table CodeEntry) (bytes : List Byte) :
    (inputBits code bytes).length
      = ((present (countBytes bytes)).map fun v =>
          (countBytes bytes).get v * (code.get v).len.toNat).sum := by
  rw [← sum_map_eq_sum_present bytes fun v => (code.get v).len.toNat, inputBits, List.length_flatMap]
  simp only [codeBits_length]

theorem bodyBytes_length (bits : List Bool) :
    (bodyBytes false bits).length = bits.length
      ∧ (bodyBytes true bits).length = (bits.length + 7) / 8 :=
  ⟨List.length_map _, packBytes_length (Nat.le_refl _)⟩

/-- In either mode the body has at most one byte a bit, so an output is bounded by its header and its
input (R7 clause f). -/
theorem encodedStream_length_le (pack : Bool) (bytes : List Byte) :
    (encodedStream pack bytes).length
      ≤ (createHeader (countBytes bytes)).length + 1 + bytes.length * 255 := by
  rcases Nat.lt_or_ge (present (countBytes bytes)).length 2 with hfew | htwo
  · rw [encodedStream_of_le_one (Nat.le_of_lt_succ hfew), List.length_append]
    exact Nat.le_add_right ..
  · have hbits := inputBits_length_le (codesOf (countBytes bytes)) bytes
    obtain ⟨hascii, hpacked⟩ := bodyBytes_length (inputBits (codesOf (countBytes bytes)) bytes)
    rw [encodedStream_of_two_le htwo, List.length_append, List.length_cons]
    cases pack <;> omega

theorem countBytes_get_lt {bytes : List Byte} {n : Nat} (h : bytes.length < n) (v : Byte) :
    (countBytes bytes).get v < n := by
  rw [countBytes_get]
  exact List.count_le_length.trans_lt h

/-- An output of ENCODE for an input of less than 2^32 bytes (R7 clause f). -/
theorem encodedStream_length_lt {bytes : List Byte} (h : bytes.length ≤ 2 ^ 32 - 1) (pack : Bool) :
    (encodedStream pack bytes).length < 3841 + 255 * (2 ^ 32 - 1) := by
  have hheader := createHeader_length_le (countBytes_get_lt (bytes := bytes) (n := 2 ^ 32) (by omega))
  have hstream := encodedStream_length_le pack bytes
  omega

/-- ENCODE answers `Capacity` exactly when its output does not fit (R146). -/
theorem exec_encode_status_iff {s t : State} {r : Response} (h : exec .encode s = .next t)
    (hr : t.rsp = some r) :
    r.status = 5#8 ↔ s.par.obufCap < (encodedStream s.pack s.ibuf).length := by
  rcases Nat.lt_or_ge s.par.obufCap (encodedStream s.pack s.ibuf).length with hlt | hle
  · cases h.symm.trans (exec_encode_full hlt)
    cases hr
    exact iff_of_true rfl hlt
  · cases h.symm.trans (exec_encode_fits hle)
    cases hr
    exact iff_of_false (fun h => nomatch h) (Nat.not_lt.mpr hle)

/-! ### The output of DECODE -/

/-- `r` is no `Capacity` error, and its output has at most `n` bytes. -/
def StaysWithin (n : Nat) (r : Except Kind (List Byte)) : Prop :=
  r ≠ .error .capacity ∧ ∀ out, r = .ok out → out.length ≤ n

theorem staysWithin_ok {n : Nat} {out : List Byte} (h : out.length ≤ n) : StaysWithin n (.ok out) :=
  ⟨fun h => (nomatch h), fun _ ho => Except.ok.inj ho ▸ h⟩

theorem staysWithin_malformedBody (n : Nat) : StaysWithin n (.error .malformedBody) :=
  ⟨fun h => (nomatch h), fun _ ho => (nomatch ho)⟩

section

variable {nodes : List Node} {root cap : Nat}

/-- One tree edge writes at most one byte, and succeeds while there is room for one. -/
theorem walkBit_of_room {w : Walk} (h : w.out.length < cap) (bit : Bool) :
    ∃ w', walkBit nodes root cap bit w = .ok w' ∧ w'.out.length ≤ w.out.length + 1 := by
  have hput (x : Byte) : put cap x w.out = .ok (w.out ++ [x]) := put_ok_iff.mpr ⟨h.ne, rfl⟩
  unfold walkBit
  generalize (if bit = true then (nodeAt nodes w.cur).right else (nodeAt nodes w.cur).left) = next
  simp only [hput]
  split
  · exact ⟨_, rfl, by simp⟩
  · exact ⟨_, rfl, Nat.le_succ _⟩

theorem asciiBit_error {c : Byte} {k : Kind} (h : asciiBit c = .error k) : k = .malformedBody := by
  unfold asciiBit at h
  split at h
  · cases h
  · split at h <;> cases h
    rfl

/-- An ASCII body writes at most one byte for each of its own (R163). -/
theorem walkAscii_staysWithin {n : Nat} (hn : n ≤ cap) {body : List Byte} {w : Walk}
    (h : w.out.length + body.length ≤ n) : StaysWithin n (walkAscii nodes root cap body w) := by
  induction body generalizing w with
  | nil =>
    rw [walkAscii]
    split
    · exact staysWithin_ok h
    · exact staysWithin_malformedBody n
  | cons c rest ih =>
    rw [List.length_cons] at h
    rw [walkAscii]
    cases hbit : asciiBit c with
    | error k =>
      cases asciiBit_error hbit
      exact staysWithin_malformedBody n
    | ok bit =>
      obtain ⟨w', hw', hlen⟩ := walkBit_of_room (nodes := nodes) (root := root) (cap := cap)
        (w := w) (by omega) bit
      simp only [hw']
      exact ih (by omega)

/-- The bits of one body byte write at most one byte each, and succeed while there is room (R165). -/
theorem walkBits_of_room (total : Nat) {bits : List Bool} {w : Walk}
    (h : w.out.length + bits.length ≤ cap) :
    ∃ w', walkBits nodes root cap total bits w = .ok w'
      ∧ w'.out.length ≤ w.out.length + bits.length := by
  induction bits generalizing w with
  | nil => exact ⟨w, rfl, Nat.le_refl _⟩
  | cons bit rest ih =>
    rw [List.length_cons] at h ⊢
    rw [walkBits]
    split
    · obtain ⟨w₁, hw₁, hlen₁⟩ := walkBit_of_room (nodes := nodes) (root := root) (cap := cap)
        (w := w) (by omega) bit
      obtain ⟨w₂, hw₂, hlen₂⟩ := ih (w := w₁) (by omega)
      simp only [hw₁]
      exact ⟨w₂, hw₂, by omega⟩
    · exact ⟨w, rfl, Nat.le_add_right ..⟩

/-- A PACKED8 body writes at most eight bytes for each of its own (R165). -/
theorem walkPacked_staysWithin {n : Nat} (hn : n ≤ cap) (total : Nat) {body : List Byte} {w : Walk}
    (h : w.out.length + 8 * body.length ≤ n) :
    StaysWithin n (walkPacked nodes root cap total body w) := by
  induction body generalizing w with
  | nil =>
    rw [walkPacked]
    split
    · exact staysWithin_malformedBody n
    · exact staysWithin_ok h
  | cons b rest ih =>
    rw [List.length_cons] at h
    have h8 : (msbFirst b).length = 8 := rfl
    rw [walkPacked]
    split
    · obtain ⟨w', hw', hlen⟩ := walkBits_of_room (nodes := nodes) (root := root) (cap := cap) total
        (bits := msbFirst b) (w := w) (by omega)
      simp only [hw']
      exact ih (by omega)
    · exact staysWithin_ok (by omega)

end

/-- How many bytes an input of `length` bytes can decode to, beside the repeats of one byte. -/
def decodeBound (pack : Bool) (length : Nat) : Nat := if pack then 8 * length else length

/-- What DECODE writes under a header whose counters have 32 bits (R7 clause f, log 13). -/
theorem decodeOutput_staysWithin {freq : Table Nat} (hfreq : ∀ v, freq.get v < 2 ^ 32) {n cap : Nat}
    (hn : n ≤ cap) (hone : 2 ^ 32 - 1 ≤ n) {pack : Bool} {body : List Byte}
    (hbody : decodeBound pack body.length ≤ n) :
    StaysWithin n (decodeOutput cap pack (builtNodes freq) (builtRoot freq) body) := by
  unfold decodeOutput
  cases hr : builtRoot freq with
  | none => exact staysWithin_ok (Nat.zero_le n)
  | some r =>
    by_cases hleaf : (nodeAt (builtNodes freq) r).isLeaf
    · have hweight : (nodeAt (builtNodes freq) r).weight < 2 ^ 32 :=
        (builtNodes_nodesOk hfreq).leaf r (builtRoot_lt hr) (Option.isNone_iff_eq_none.mp hleaf)
      have hlen : (List.replicate (nodeAt (builtNodes freq) r).weight
          (nodeAt (builtNodes freq) r).value).length ≤ n := by
        rw [List.length_replicate]; omega
      simp only [if_pos hleaf]
      rw [putRepeat_eq_putAll, putAll_eq (Nat.zero_le _), List.length_nil, Nat.zero_add,
        if_pos (hlen.trans hn)]
      exact staysWithin_ok hlen
    · simp only [if_neg hleaf]
      cases pack with
      | false => exact walkAscii_staysWithin hn (by simpa [decodeBound] using hbody)
      | true => exact walkPacked_staysWithin hn _ (by simpa [decodeBound] using hbody)

theorem bodyPart_length_le (bytes : List Byte) : (bodyPart bytes).length ≤ bytes.length := by
  rw [bodyPart, List.length_drop]
  exact (Nat.sub_le ..).trans (List.length_dropWhile_le ..)

theorem Kind.code_eq_five_iff (k : Kind) : k.code = 5#8 ↔ k = .capacity := by
  cases k <;> decide

section

variable {s t : State}

/-- A counter has at most 32 bits (R6). -/
theorem Inv.two_pow_wFreq_le (h : Inv s) : 2 ^ s.par.wFreq ≤ 2 ^ 32 := by
  obtain ⟨-, hw, -⟩ := (legalParams_iff s.par).mp h.params
  exact Nat.pow_le_pow_right (by decide) hw

/-- The input has less than 2^32 bytes (R6). -/
theorem Inv.ibuf_length_le (h : Inv s) : s.ibuf.length ≤ 2 ^ 32 - 1 := by
  obtain ⟨-, -, hcap, -⟩ := (legalParams_iff s.par).mp h.params
  exact h.inputFits.trans (hcap.trans (Nat.sub_le_sub_right h.two_pow_wFreq_le 1))

/-- With room for the longest output a walk of DECODE never meets a full buffer (R7 clause f). -/
theorem Inv.decodeOutput_staysWithin (h : Inv s) {freq : Table Nat} {n : Nat}
    (hparse : parseHeader s.par.wFreq (headerLine s.ibuf) = .ok (freq, n))
    (hcap : decodeBound s.pack (2 ^ 32 - 1) ≤ s.par.obufCap) :
    StaysWithin (decodeBound s.pack (2 ^ 32 - 1))
      (decodeOutput s.par.obufCap s.pack (builtNodes freq) (builtRoot freq) (bodyPart s.ibuf)) := by
  have hbody := (bodyPart_length_le s.ibuf).trans h.ibuf_length_le
  refine Machine.decodeOutput_staysWithin
    (fun v => (parseHeader_get_lt hparse v).trans_le h.two_pow_wFreq_le) hcap ?_ ?_ <;>
  · unfold decodeBound
    split <;> omega

/-- The longest output of DECODE (R7 clause f, log 13). -/
theorem Inv.exec_decode_length_le (h : Inv s) (ht : Machine.exec .decode s = .next t) :
    t.obuf.length ≤ decodeBound s.pack (2 ^ 32 - 1) := by
  obtain ⟨k, -, rfl⟩ | ⟨freq, n, hparse, ⟨k, -, rfl⟩ | ⟨out, hout, rfl⟩⟩ := exec_decode_cases ht
  · exact Nat.zero_le _
  · exact Nat.zero_le _
  · rcases Nat.le_total (decodeBound s.pack (2 ^ 32 - 1)) s.par.obufCap with hroom | hroom
    · exact (h.decodeOutput_staysWithin hparse hroom).2 out hout
    · exact (decodeOutput_length_le hout).trans hroom

/-- With `OBUF_CAP = 2^40` the one `Capacity` of DECODE is its header parser's (R7 clause f). -/
theorem Inv.exec_decode_status_iff (h : Inv s) (hcap : s.par.obufCap = 2 ^ 40) {r : Response}
    (ht : Machine.exec .decode s = .next t) (hr : t.rsp = some r) :
    r.status = 5#8 ↔ parseHeader s.par.wFreq (headerLine s.ibuf) = .error .capacity := by
  have hroom : decodeBound s.pack (2 ^ 32 - 1) ≤ s.par.obufCap := by
    unfold decodeBound
    split <;> omega
  obtain ⟨k, hparse, rfl⟩ | ⟨freq, n, hparse, ⟨k, hout, rfl⟩ | ⟨out, -, rfl⟩⟩ :=
    exec_decode_cases ht <;> cases hr <;> rw [hparse]
  · exact k.code_eq_five_iff.trans ⟨congrArg Except.error, Except.error.inj⟩
  · obtain ⟨hnofull, -⟩ := h.decodeOutput_staysWithin hparse hroom
    exact iff_of_false (fun hk => hnofull (k.code_eq_five_iff.mp hk ▸ hout)) (fun he => nomatch he)
  · exact iff_of_false (fun he => nomatch he) (fun he => nomatch he)

end

/-- The lengths of R148 and R154. -/
theorem encodedStream_lengths (bytes : List Byte)
    (htwo : 2 ≤ (present (countBytes bytes)).length) :
    (encodedStream false bytes).length = (createHeader (countBytes bytes)).length + 1
        + (inputBits (codesOf (countBytes bytes)) bytes).length
      ∧ (encodedStream true bytes).length = (createHeader (countBytes bytes)).length + 1
        + ((inputBits (codesOf (countBytes bytes)) bytes).length + 7) / 8 := by
  obtain ⟨hascii, hpacked⟩ := bodyBytes_length (inputBits (codesOf (countBytes bytes)) bytes)
  simp only [encodedStream_of_two_le htwo, List.length_append, List.length_cons, hascii, hpacked]
  omega

theorem length_le_inputBits {bytes : List Byte}
    (htwo : 2 ≤ (present (countBytes bytes)).length) :
    bytes.length ≤ (inputBits (codesOf (countBytes bytes)) bytes).length := by
  have hpos : ∀ len ∈ bytes.map fun x => (codeBits ((codesOf (countBytes bytes)).get x)).length,
      1 ≤ len :=
    List.forall_mem_map.mpr fun x hx => codeBits_length _ ▸ codesOf_len_pos htwo hx
  rw [inputBits, List.length_flatMap]
  simpa using List.length_le_sum_of_one_le _ hpos

/-- Settles O49: the lengths of the header, of the codes and of a decoded output. -/
theorem outputLength : Obligations.OutputLength := by
  refine ⟨fun bytes => ⟨fun htwo => ?_, fun hfew pack => ?_, ?_⟩,
    fun bytes hlen => encodedStream_length_lt hlen false,
    fun s h hcap => ⟨?_, ?_, fun t r => h.exec_decode_status_iff hcap⟩, fun s t h ht => ?_⟩
  · obtain ⟨hascii, hpacked⟩ := encodedStream_lengths bytes htwo
    rw [← inputBits_length]
    exact ⟨fun x => codesOf_len_pos htwo, rfl, length_le_inputBits htwo, hascii, hpacked⟩
  · rw [encodedStream_of_le_one hfew, List.length_append, List.length_singleton]
  · rintro s t r rfl ht hr
    exact exec_encode_status_iff ht hr
  · have hheader := createHeader_length_le fun v => (h.counters v).trans_le h.two_pow_wFreq_le
    exact ⟨_, _, exec_hdCreate_fits (by omega), rfl⟩
  · have hstream := encodedStream_length_lt h.ibuf_length_le s.pack
    exact ⟨_, _, exec_encode_fits (by omega), rfl⟩
  · have hlen := h.exec_decode_length_le ht
    refine ⟨fun hpack => by rwa [hpack] at hlen, hlen.trans ?_⟩
    unfold decodeBound
    split <;> omega

end Sys2Proof.Machine
end

section
/-! SUPPORT. The table of ENCODE (43_encoder.md R152, 45_header_codec.md R186): the header byte by byte
through `Put`, the trailing space taken back, the code bits one a visit, and the flush. -/

namespace Sys2Proof.Machine

/-- The sequencer comes from `m` to what a composite command, which found the block in state `s`,
answers to a run with the result `r`. -/
def Ends (s : State) (m : Micro) (r : Except Kind State) : Prop :=
  Leads m fun m' => m'.seq = .idle ∧ compositeAnswer s r = .next m'.st

theorem sequencerAgrees_encode_iff (s : State) :
    SequencerAgrees .encode s ↔ Ends s (Micro.begin .encode s) (encodeRun s) := by
  rw [sequencerAgrees_iff, exec_encode, Ends]

section

variable {s : State} {m m' : Micro} {r : Except Kind State}

theorem Ends.visit (hm : microStep m = m') (h : Ends s m' r) : Ends s m r := Leads.visit hm h

/-- What the end `f` of a unit comes to, the unit comes to. -/
theorem Reaches.ends {t : State} {f : Micro → Micro} (h : Reaches m t f)
    (hf : ∀ m₀ : Micro, m₀.st = t → m₀.context = m.context → Ends s (f m₀) r) : Ends s m r := by
  refine Leads.trans h ?_
  rintro _ ⟨m₀, hst, hctx, rfl⟩
  exact hf m₀ hst hctx

/-- `EN_DONE` answers with the output's length. -/
theorem ends_enDone (m : Micro) : Ends s (m.goto .enDone) (.ok m.st) :=
  .visit rfl (.here ⟨rfl, rfl⟩)

/-- `EN_FAIL` wipes the working state, which is all that ENCODE has changed (60_exceptions.md R203). -/
theorem ends_enFail (k : Kind) (hwipe : m.st.wipeWork = s.wipeWork) :
    Ends s (m.failTo .enFail k) (.error k) := by
  refine .visit rfl (.here ⟨rfl, ?_⟩)
  rw [compositeAnswer, raise, failEffect, ← hwipe]
  rfl

/-- One `Put` of ENCODE, then what follows it or the failure. -/
theorem ends_putThen {x : Byte} {k : Micro → Micro} {g : List Byte → Except Kind State}
    (hwipe : m.st.wipeWork = s.wipeWork)
    (hk : ∀ out, Ends s (k (m.arch (State.setObuf out))) (g out)) :
    Ends s (m.putThen x .enFail k) ((put m.st.par.obufCap x m.st.obuf).bind g) := by
  rw [Micro.putThen]
  cases put m.st.par.obufCap x m.st.obuf with
  | error e => exact ends_enFail e hwipe
  | ok out => exact hk out

/-! ### The header -/

theorem putAll_append_bind (cap : Nat) (xs ys out : List Byte)
    (g : List Byte → Except Kind State) :
    (putAll cap (xs ++ ys) out).bind g
      = (putAll cap xs out).bind fun o => (putAll cap ys o).bind g := by
  rw [putAll_append]
  cases putAll cap xs out <;> rfl

/-- The bytes of a number of the header, each through `Put` (R152). -/
theorem ends_headerBytes {xs : List Byte} {k : Micro → Micro} {g : List Byte → Except Kind State}
    (hcmd : m.cmd = .encode) (hwipe : m.st.wipeWork = s.wipeWork)
    (hk : ∀ out, Ends s (k (m.arch (State.setObuf out))) (g out)) :
    Ends s (m.headerBytes xs k) ((putAll m.st.par.obufCap xs m.st.obuf).bind g) := by
  induction xs generalizing m with
  | nil => exact hk m.st.obuf
  | cons x xs ih =>
    rw [Micro.headerBytes, Micro.headerByte, hcmd, putAll]
    have hput := ends_putThen (x := x) (k := Micro.headerBytes xs k)
      (g := fun out => (putAll m.st.par.obufCap xs out).bind g) hwipe fun out =>
        ih (m := m.arch (State.setObuf out)) hcmd hwipe fun out' => hk out'
    cases hx : put m.st.par.obufCap x m.st.obuf <;> rw [hx] at hput <;> exact hput

/-- `HE_SCAN` and `HE_NUM` from byte value `sym` on: the pairs of the header, with the space after the
last one (R186). -/
theorem ends_heScan {n : Nat} {g : List Byte → Except Kind State} (hseq : m.seq = .heScan)
    (hcmd : m.cmd = .encode) (hwipe : m.st.wipeWork = s.wipeWork) (hn : m.work.sym + n = nSym)
    (hend : ∀ (m' : Micro) out, m'.st = m.st.setObuf out → m'.context = m.context →
      Ends s (m'.goto .heTrim) (g out)) :
    Ends s m ((putAll m.st.par.obufCap ((m.st.freq.entries.drop m.work.sym).flatMap headerPair)
      m.st.obuf).bind g) := by
  induction n generalizing m with
  | zero =>
    have hstep : microStep m = heScanStep m := by rw [microStep, hseq]
    have heq : m.work.sym = nSym := hn
    have hnil : m.st.freq.entries.drop nSym = [] := by simp [Table.entries_eq]
    rw [heScanStep, if_pos heq] at hstep
    rw [heq, hnil]
    exact .visit hstep (hend m m.st.obuf rfl rfl)
  | succ n ih =>
    have hstep : microStep m = heScanStep m := by rw [microStep, hseq]
    have hlt : m.work.sym < nSym := by omega
    have hnext := (Nat.succ_add_eq_add_succ m.work.sym n).trans hn
    have hsym : (byteOf m.work.sym).toNat = m.work.sym := Nat.mod_eq_of_lt hlt
    rw [heScanStep, if_neg (Nat.ne_of_lt hlt)] at hstep
    rw [Table.entries_drop _ hlt, List.flatMap_cons, headerPair]
    split
    · next hzero =>
      rw [if_pos hzero] at hstep
      exact .visit hstep (ih (m := Micro.regs _ _) hseq hcmd hwipe hnext hend)
    · next hne =>
      rw [if_neg hne] at hstep
      rw [hsym, List.append_assoc _ _ [charSpace], List.append_assoc, putAll_append_bind]
      -- `HE_SCAN`, then `HE_NUM` for the byte value and for its frequency.
      refine .visit hstep (.visit rfl (ends_headerBytes (m := Micro.regs _ (m.goto _)) hcmd hwipe
        fun out => ?_))
      rw [putAll_append_bind]
      refine .visit rfl (ends_headerBytes (m := Micro.regs _ _) hcmd hwipe fun out' => ?_)
      exact ih (m := Micro.goto .heScan _) rfl hcmd hwipe hnext hend

/-! ### The body -/

/-- The bits of a code are those of its shift register, from the low end (R152). -/
theorem range_map_getLsbD_succ (bits : BitVec 256) (k : Nat) :
    (List.range (k + 1)).map bits.getLsbD
      = bits.getLsbD 0 :: (List.range k).map (bits >>> 1).getLsbD := by
  rw [List.range_succ_eq_map, List.map_cons, List.map_map]
  refine congrArg _ (List.map_congr_left fun i _ => ?_)
  rw [BitVec.getLsbD_ushiftRight, Nat.add_comm, Function.comp_apply]

theorem emitRest_append (cap : Nat) (pack : Bool) (bits more : List Bool) (p : Packer) :
    emitRest cap pack (bits ++ more) p
      = (emitBits cap pack bits p).bind (emitRest cap pack more) := by
  induction bits generalizing p with
  | nil => rfl
  | cons b bits ih =>
    rw [List.cons_append, emitRest_cons, emitBits]
    cases emitBit cap pack b p with
    | error k => rfl
    | ok p' => exact ih p'

/-- The body for a byte with a code of `k + 1` bits and the bytes after it. -/
theorem map_emitRest_inputBits_cons {code : Table CodeEntry} {x : Byte} {k cap : Nat} {pack : Bool}
    (hk : (code.get x).len.toNat = k + 1) {xs : List Byte} {p : Packer} {f : List Byte → State} :
    (emitRest cap pack (inputBits code (x :: xs)) p).map f
      = (emitBits cap pack ((List.range (k + 1)).map (code.get x).bits.getLsbD) p).bind
          fun p' => (emitRest cap pack (inputBits code xs) p').map f := by
  rw [inputBits, List.flatMap_cons, codeBits, hk, emitRest_append]
  cases emitBits cap pack ((List.range (k + 1)).map (code.get x).bits.getLsbD) p <;> rfl

theorem emitBits_cons_bind (cap : Nat) (pack b : Bool) (bits : List Bool) (p : Packer)
    (g : Packer → Except Kind State) :
    (emitBits cap pack (b :: bits) p).bind g
      = (emitBit cap pack b p).bind fun p' => (emitBits cap pack bits p').bind g := by
  rw [emitBits]
  cases emitBit cap pack b p <;> rfl

/-- One visit of `EN_SHIFT`. -/
theorem ends_enShift_one {g : Packer → Except Kind State} (hseq : m.seq = .enShift)
    (hwipe : m.st.wipeWork = s.wipeWork) (hk : ∀ p, Ends s (enShifted (m.setPacker p)) (g p)) :
    Ends s m ((emitBit m.st.par.obufCap m.pack (m.work.shBits.getLsbD 0) m.packer).bind g) := by
  have hstep : microStep m = enShiftStep m := by rw [microStep, hseq]
  rw [enShiftStep] at hstep
  cases hbit : emitBit m.st.par.obufCap m.pack (m.work.shBits.getLsbD 0) m.packer with
  | error e =>
    rw [hbit] at hstep
    exact .visit hstep (ends_enFail e hwipe)
  | ok p =>
    rw [hbit] at hstep
    exact .visit hstep (hk p)

/-- The shift register after a bit is taken. -/
def Micro.shifted (m : Micro) : Micro :=
  m.regs fun w => { w with shBits := w.shBits >>> 1, shCnt := w.shCnt - 1 }

theorem enShifted_last (h : m.work.shCnt = 1) : enShifted m = m.shifted.goto .enFetch :=
  if_pos (Nat.sub_eq_zero_of_le h.le)

theorem enShifted_more (h : 1 < m.work.shCnt) : enShifted m = m.shifted.goto .enShift :=
  if_neg (Nat.sub_ne_zero_of_lt h)

/-- `EN_SHIFT` for the `k + 1` code bits in the shift register (R152). -/
theorem ends_enShift {k : Nat} {g : Packer → Except Kind State} (hseq : m.seq = .enShift)
    (hcnt : m.work.shCnt = k + 1) (hwipe : m.st.wipeWork = s.wipeWork)
    (hend : ∀ (m' : Micro) p, m'.st = m.st.setObuf p.out → m'.packer = p → m'.pack = m.pack →
      m'.work.ipos = m.work.ipos → Ends s (m'.goto .enFetch) (g p)) :
    Ends s m ((emitBits m.st.par.obufCap m.pack
      ((List.range (k + 1)).map m.work.shBits.getLsbD) m.packer).bind g) := by
  induction k generalizing m with
  | zero =>
    rw [range_map_getLsbD_succ, emitBits_cons_bind]
    refine ends_enShift_one hseq hwipe fun p => ?_
    rw [enShifted_last (m := m.setPacker p) hcnt]
    exact hend _ p rfl rfl rfl rfl
  | succ k ih =>
    have hmore : 1 < m.work.shCnt := by omega
    have hleft : m.work.shCnt - 1 = k + 1 := by omega
    rw [range_map_getLsbD_succ, emitBits_cons_bind]
    refine ends_enShift_one hseq hwipe fun p => ?_
    rw [enShifted_more (m := m.setPacker p) hmore]
    exact ih (m := Micro.goto .enShift _) rfl hleft hwipe hend

/-- `EN_FLUSH`. -/
theorem ends_enFlush (hseq : m.seq = .enFlush) (hwipe : m.st.wipeWork = s.wipeWork) :
    Ends s m (((flushBits m.st.par.obufCap m.pack m.packer).map Packer.out).map
      fun out => m.st.setObuf out) := by
  have hstep : microStep m = enFlushStep m := by rw [microStep, hseq]
  rw [enFlushStep] at hstep
  cases hflush : flushBits m.st.par.obufCap m.pack m.packer with
  | error e =>
    rw [hflush] at hstep
    exact .visit hstep (ends_enFail e hwipe)
  | ok p =>
    rw [hflush] at hstep
    exact .visit hstep (ends_enDone _)

/-- `EN_FETCH` to `EN_FLUSH`: the body for the input from `ipos` on, whose bytes all have a code
(R146 step 5, R152). -/
theorem ends_enFetch {bytes : List Byte} (hseq : m.seq = .enFetch)
    (hwipe : m.st.wipeWork = s.wipeWork) (hbytes : m.st.ibuf.drop m.work.ipos = bytes)
    (hcodes : ∀ x ∈ bytes, 1 ≤ (m.st.code.get x).len.toNat) :
    Ends s m ((emitRest m.st.par.obufCap m.pack (inputBits m.st.code bytes) m.packer).map
      fun out => m.st.setObuf out) := by
  induction bytes generalizing m with
  | nil =>
    have hend : ¬ m.work.ipos < m.st.ibuf.length :=
      Nat.not_lt.mpr (List.drop_eq_nil_iff.mp hbytes)
    have hstep : microStep m = enFetchStep m := by rw [microStep, hseq]
    rw [enFetchStep, if_neg hend] at hstep
    exact .visit hstep (ends_enFlush rfl hwipe)
  | cons x xs ih =>
    obtain ⟨hlt, hx, hxs⟩ := getD_of_drop_eq_cons hbytes 0#8
    obtain ⟨hcode, hcodes⟩ := List.forall_mem_cons.mp hcodes
    obtain ⟨k, hk⟩ := Nat.exists_eq_add_of_le' hcode
    have hstep : microStep m = enFetchStep m := by rw [microStep, hseq]
    rw [enFetchStep, if_pos hlt, hx] at hstep
    rw [map_emitRest_inputBits_cons hk]
    refine .visit hstep (ends_enShift (m := Micro.goto .enShift _) rfl hk hwipe ?_)
    intro m' p (hst : m'.st = m.st.setObuf p.out) hp (hpack : m'.pack = m.pack)
      (hipos : m'.work.ipos = m.work.ipos + 1)
    have hrest : Ends s (m'.goto .enFetch) ((emitRest m'.st.par.obufCap m'.pack
        (inputBits m'.st.code xs) m'.packer).map fun out => m'.st.setObuf out) := by
      refine ih (m := m'.goto .enFetch) rfl ?_ ?_ ?_
      · exact (congrArg State.wipeWork hst).trans hwipe
      · change m'.st.ibuf.drop m'.work.ipos = xs
        rw [hst, hipos]
        exact hxs
      · change ∀ x ∈ xs, 1 ≤ (m'.st.code.get x).len.toNat
        rw [hst]
        exact hcodes
    rw [hp, hpack, hst] at hrest
    exact hrest

/-! ### The whole table -/

/-- The context of ENCODE on state `s` after `EN_INIT`: the command, `CONFIG.PACK`, and an empty bit
packer. -/
def encodeContext (s : State) : Instr × Bool × Nat × Nat × Byte × Nat :=
  (.encode, s.pack, 0, 0, 0#8, 0)

theorem of_encodeContext (h : m.context = encodeContext s) :
    m.cmd = .encode ∧ m.pack = s.pack ∧ m.packer = ⟨m.st.obuf, 0#8, 0⟩ := by
  simp only [Micro.context, encodeContext, Prod.mk.injEq] at h
  obtain ⟨hcmd, hpack, -, -, hbyte, hcnt⟩ := h
  exact ⟨hcmd, hpack, by rw [Micro.packer, hbyte, hcnt]⟩

/-- Where `EN_NL` goes when the newline is written. -/
def afterNewline (m : Micro) : Micro :=
  if m.st.branched then (m.regs fun w => { w with sym := 0 }).goto .cgClear else m.goto .enDone

/-- `HE_TRIM` and `EN_NL` (R152, R186). -/
theorem ends_heTrim {g : List Byte → Except Kind State} (hseq : m.seq = .heTrim)
    (hcmd : m.cmd = .encode) (hwipe : m.st.wipeWork = s.wipeWork)
    (hk : ∀ out, Ends s (afterNewline ((m.arch (State.setObuf out)).goto .enNl)) (g out)) :
    Ends s m ((put m.st.par.obufCap charNewline m.st.obuf.dropLast).bind g) := by
  have hstep : microStep m = heTrimStep m := by rw [microStep, hseq]
  simp only [heTrimStep, hcmd] at hstep
  exact .visit hstep (.visit rfl (ends_putThen
    (m := (m.arch (State.setObuf m.st.obuf.dropLast)).goto .enNl) hwipe hk))

/-- A header with its last space taken back and a newline put out instead: the one `Put` fails where
the other does. -/
theorem putAll_trim (cap : Nat) (x : Byte) (xs : List Byte) (g : List Byte → Except Kind State) :
    ((putAll cap xs []).bind fun out => (put cap x out.dropLast).bind g)
      = (putAll cap (xs.dropLast ++ [x]) []).bind g := by
  by_cases hnil : xs = []
  · rw [hnil, List.dropLast_nil, List.nil_append, putAll_singleton]
    rfl
  · have hlen : (xs.dropLast ++ [x]).length = xs.length := by
      have hpos := List.length_pos_iff.mpr hnil
      rw [List.length_append, List.length_dropLast, List.length_singleton]
      omega
    rw [putAll_eq (Nat.zero_le _), putAll_eq (Nat.zero_le _), hlen]
    split
    · next hfits =>
      have hroom : xs.dropLast.length ≠ cap := by
        rw [List.length_append, List.length_singleton] at hlen
        simp only [List.length_nil, Nat.zero_add] at hfits
        omega
      have hput : put cap x xs.dropLast = .ok (xs.dropLast ++ [x]) := put_ok_iff.mpr ⟨hroom, rfl⟩
      simp only [Except.bind, List.nil_append, hput]
    · rfl

/-- What follows the newline: the codes and the body, or the end (R146 steps 4 to 6). -/
theorem ends_afterNewline {out : List Byte} (hst : m.st = s.encodeTables.setObuf out)
    (hctx : m.context = encodeContext s) : Ends s (afterNewline m) (s.encodeBody out) := by
  have hbranched : m.st.branched = s.encodeTables.branched := by rw [hst]; rfl
  rw [afterNewline, State.encodeBody, hbranched]
  split
  · next hb =>
    have htwo := (encodeTables_branched_iff s).mp hb
    have hnodes : m.st.nodes = builtNodes (countBytes s.ibuf) := by rw [hst]; rfl
    have hroot : m.st.root = builtRoot (countBytes s.ibuf) := by rw [hst]; rfl
    have hcodes := genCodes_reaches
      (m := (m.regs fun w => { w with sym := 0 }).goto .cgClear)
      (hnodes ▸ built_internalAbove (countBytes s.ibuf))
      (fun vp hvp => built_path_length_le (hnodes ▸ hroot ▸ hvp)) rfl rfl
    refine hcodes.ends fun m₀ hst₀ hctx₀ => ?_
    have hst₀ : m₀.st = (s.encodeTables.setObuf out).genCodes := hst ▸ hst₀
    obtain ⟨hcmd, hpack, hpacker⟩ := of_encodeContext (hctx₀.trans hctx)
    rw [codesEnd, hcmd, emitBody_eq_emitRest]
    have hwipe : m₀.st.wipeWork = s.wipeWork := by rw [hst₀]; rfl
    have hbytes : m₀.st.ibuf = s.ibuf := by rw [hst₀]; rfl
    have hlens : ∀ x ∈ s.ibuf, 1 ≤ (m₀.st.code.get x).len.toNat := by
      rw [hst₀]
      exact fun x => codesOf_len_pos htwo
    have hbody : Ends s ((m₀.regs fun w => { w with ipos := 0 }).goto .enFetch)
        ((emitRest m₀.st.par.obufCap m₀.pack (inputBits m₀.st.code s.ibuf) m₀.packer).map
          fun out => m₀.st.setObuf out) :=
      ends_enFetch (m := Micro.goto .enFetch _) rfl hwipe hbytes hlens
    rw [hpacker, hpack, hst₀] at hbody
    exact hbody
  · have hdone := ends_enDone (s := s) m
    rwa [hst] at hdone

/-- What follows the pairs of the header, the space after the last one written. -/
theorem ends_afterPairs {out : List Byte} (hst : m.st = s.encodeTables.setObuf out)
    (hctx : m.context = encodeContext s) :
    Ends s (m.goto .heTrim) ((put s.par.obufCap charNewline out.dropLast).bind s.encodeBody) := by
  obtain ⟨hcmd, -⟩ := of_encodeContext hctx
  have hwipe : m.st.wipeWork = s.wipeWork := by rw [hst]; rfl
  have hout (o : List Byte) : m.st.setObuf o = s.encodeTables.setObuf o := by rw [hst]; rfl
  have htrim : Ends s (m.goto .heTrim)
      ((put m.st.par.obufCap charNewline m.st.obuf.dropLast).bind s.encodeBody) :=
    ends_heTrim (m := m.goto .heTrim) rfl hcmd hwipe fun o =>
      ends_afterNewline (m := Micro.goto .enNl _) (hout o) hctx
  rw [hst] at htrim
  exact htrim

/-- The header, and all that follows it (R152). -/
theorem ends_header (hst : m.st = s.encodeTables) (hctx : m.context = encodeContext s) :
    Ends s ((m.regs fun w => { w with sym := 0 }).goto .heScan) (encodeRun s) := by
  obtain ⟨hcmd, -⟩ := of_encodeContext hctx
  have hwipe : m.st.wipeWork = s.wipeWork := by rw [hst]; rfl
  have hpairs : Ends s ((m.regs fun w => { w with sym := 0 }).goto .heScan)
      ((putAll m.st.par.obufCap (m.st.freq.entries.flatMap headerPair) m.st.obuf).bind fun out =>
        (put s.par.obufCap charNewline out.dropLast).bind s.encodeBody) :=
    ends_heScan (n := nSym) (m := Micro.goto .heScan _) rfl hcmd hwipe rfl
      fun m' out hst' hctx' => ends_afterPairs (hst ▸ hst') (hctx'.trans hctx)
  rw [hst] at hpairs
  rw [encodeRun_eq_bind, createHeader, ← putAll_trim]
  exact hpairs

end

/-- Settles O59: unit after unit of the table, from `EN_INIT` to `EN_DONE` or `EN_FAIL`. -/
theorem encodeSequencerAgrees : Obligations.EncodeSequencerAgrees := by
  intro s
  rw [sequencerAgrees_encode_iff]
  have hcount := countFrequencies_reaches (m := enInitStep (Micro.begin .encode s)) rfl rfl
  refine .visit rfl (hcount.ends fun m₁ hst₁ hctx₁ => ?_)
  obtain ⟨hcmd₁, -⟩ := of_encodeContext (s := s) hctx₁
  rw [countEnd, hcmd₁]
  refine (buildTree_reaches (m := m₁.goto .tbInit) rfl).ends fun m₂ hst₂ hctx₂ => ?_
  have hctx₂ : m₂.context = encodeContext s := hctx₂.trans hctx₁
  obtain ⟨hcmd₂, -⟩ := of_encodeContext hctx₂
  rw [buildEnd, hcmd₂]
  exact ends_header (hst₂.trans (congrArg State.buildTree hst₁)) hctx₂

end Sys2Proof.Machine
end

section
/-! SUPPORT. The header parser on what the header emitter writes (45_header_codec.md R176 to R184):
the tokens of a header are the numbers of its pairs, and the pairs give the table back. -/

namespace Sys2Proof.Machine

/-! ### Tokens -/

/-- Bytes that are no whitespace join the token in hand. -/
theorem tokensFrom_append {t : List Byte} (ht : ∀ c ∈ t, isSpace c = false)
    (open_ rest : List Byte) : tokensFrom open_ (t ++ rest) = tokensFrom (open_ ++ t) rest := by
  induction t generalizing open_ with
  | nil => rw [List.nil_append, List.append_nil]
  | cons c t ih =>
    obtain ⟨hc, ht⟩ := List.forall_mem_cons.mp ht
    rw [List.cons_append, tokensFrom, hc, if_neg Bool.false_ne_true, ih ht, List.append_assoc,
      List.singleton_append]

/-- A token ends at the first whitespace byte after it (R178). -/
theorem tokens_append_space {t : List Byte} (hne : t ≠ []) (ht : ∀ c ∈ t, isSpace c = false)
    {c : Byte} (hc : isSpace c = true) (rest : List Byte) :
    tokens (t ++ c :: rest) = t :: tokens rest := by
  rw [tokens, tokensFrom_append ht, List.nil_append, tokensFrom, if_pos hc, closeToken, if_neg hne,
    List.singleton_append, tokens]

/-- Whitespace at the end of a string is not part of a token. -/
theorem tokensFrom_concat_space {c : Byte} (hc : isSpace c = true) (open_ bytes : List Byte) :
    tokensFrom open_ (bytes ++ [c]) = tokensFrom open_ bytes := by
  induction bytes generalizing open_ with
  | nil => simp [tokensFrom, hc, closeToken]
  | cons x xs ih => rw [List.cons_append, tokensFrom, tokensFrom, ih, ih]

theorem isSpace_charSpace : isSpace charSpace = true := rfl

theorem isSpace_of_isDigit {c : Byte} (h : isDigit c = true) : isSpace c = false := by
  revert c
  decide

theorem isSpace_of_mem_dec {n : Nat} : ∀ c ∈ dec n, isSpace c = false :=
  fun _ hc => isSpace_of_isDigit (isDigit_of_mem_dec hc)

/-! ### The text of a header -/

section

variable {freq : Table Nat}

/-- The pair of a present byte (R176). -/
theorem headerPair_of_ne_zero {v : Byte} {w : Nat} (h : w ≠ 0) :
    headerPair (v, w) = dec v.toNat ++ charSpace :: (dec w ++ [charSpace]) := by
  rw [headerPair, if_neg h, List.append_assoc, List.append_assoc, List.singleton_append]

/-- The header is its pairs but for the space after the last one (R176). -/
theorem createHeader_concat_space (h : present freq ≠ []) :
    createHeader freq ++ [charSpace]
      = (present freq).flatMap fun v => headerPair (v, freq.get v) := by
  obtain ⟨vs, v, hvs⟩ := (List.eq_nil_or_concat' _).resolve_left h
  have hv : freq.get v ≠ 0 := mem_present.mp (by simp [hvs])
  rw [createHeader, flatMap_headerPair, hvs, List.flatMap_append, List.flatMap_singleton,
    headerPair_of_ne_zero hv, ← List.cons_append, ← List.append_assoc, ← List.append_assoc,
    List.dropLast_concat]

/-- A header has digits and spaces only (R175). -/
theorem mem_createHeader {c : Byte} (hc : c ∈ createHeader freq) :
    isDigit c = true ∨ c = charSpace := by
  have hmem := List.mem_of_mem_dropLast hc
  rw [flatMap_headerPair, List.mem_flatMap] at hmem
  obtain ⟨v, hv, hc⟩ := hmem
  rw [headerPair_of_ne_zero (mem_present.mp hv)] at hc
  simp only [List.mem_append, List.mem_cons, List.not_mem_nil, or_false] at hc
  obtain hc | hc | hc | hc := hc
  · exact .inl (isDigit_of_mem_dec hc)
  · exact .inr hc
  · exact .inl (isDigit_of_mem_dec hc)
  · exact .inr hc

theorem charNewline_not_mem_createHeader (freq : Table Nat) : charNewline ∉ createHeader freq := by
  intro hc
  obtain hd | hs := mem_createHeader hc
  · exact absurd hd (by decide)
  · exact absurd hs (by decide)

/-- The two tokens of a pair. -/
def pairTokens (g : Byte → Nat) (v : Byte) : List (List Byte) := [dec v.toNat, dec (g v)]

theorem tokens_flatMap_headerPair {g : Byte → Nat} {vs : List Byte} (h : ∀ v ∈ vs, g v ≠ 0) :
    tokens (vs.flatMap fun v => headerPair (v, g v)) = vs.flatMap (pairTokens g) := by
  induction vs with
  | nil => rfl
  | cons v vs ih =>
    obtain ⟨hv, hvs⟩ := List.forall_mem_cons.mp h
    rw [List.flatMap_cons, headerPair_of_ne_zero hv, List.append_assoc, List.cons_append,
      List.append_assoc, List.singleton_append,
      tokens_append_space (dec_ne_nil _) isSpace_of_mem_dec isSpace_charSpace,
      tokens_append_space (dec_ne_nil _) isSpace_of_mem_dec isSpace_charSpace, ih hvs]
    rfl

/-- The tokens of a header are the numbers of its pairs, in order. -/
theorem tokens_createHeader (freq : Table Nat) :
    tokens (createHeader freq) = (present freq).flatMap (pairTokens freq.get) := by
  by_cases hnil : present freq = []
  · rw [createHeader_of_nil hnil, hnil]
    rfl
  · rw [← tokens_flatMap_headerPair fun v => mem_present.mp, ← createHeader_concat_space hnil,
      tokens, tokens, tokensFrom_concat_space isSpace_charSpace]

/-! ### Parsing it -/

theorem isNumeric_dec (n : Nat) : isNumeric (dec n) = true :=
  List.all_eq_true.mpr fun _ => isDigit_of_mem_dec

/-- The two tokens of a pair write one entry (R180). -/
theorem parseTokens_pair {w : Nat} {g : Byte → Nat} {v : Byte} (hg : g v < 2 ^ w)
    (ts : List (List Byte)) (t : Table Nat) (n : Nat) :
    parseTokens w (pairTokens g v ++ ts) ⟨t, n, none⟩
      = parseTokens w ts ⟨t.set v (g v), n + 1, none⟩ := by
  have hbyte : byteOf v.toNat = v := (BitVec.ofNat_toNat ..).trans (BitVec.setWidth_eq v)
  have hle : ¬ 255 < v.toNat := by have := v.isLt; omega
  simp only [pairTokens, List.cons_append, List.nil_append, parseTokens, parseToken, isNumeric_dec,
    decVal_dec, not_true_eq_false, if_false, if_neg hle, if_neg (Nat.not_le.mpr hg), hbyte]

/-- Pairs with different bytes write their entries and no other one. -/
theorem parseTokens_pairs {w : Nat} {g : Byte → Nat} (hg : ∀ v, g v < 2 ^ w) (vs : List Byte)
    (t : Table Nat) (n : Nat) :
    ∃ t', parseTokens w (vs.flatMap (pairTokens g)) ⟨t, n, none⟩ = .ok (t', n + vs.length)
      ∧ ∀ v, t'.get v = if v ∈ vs then g v else t.get v := by
  induction vs generalizing t n with
  | nil => exact ⟨t, rfl, fun v => by simp⟩
  | cons u vs ih =>
    obtain ⟨t', hparse, hget⟩ := ih (t.set u (g u)) (n + 1)
    refine ⟨t', ?_, fun v => ?_⟩
    · rw [List.flatMap_cons, parseTokens_pair (hg u), hparse, List.length_cons, Nat.add_assoc,
        Nat.add_comm 1]
    · rw [hget, Table.get_set]
      by_cases hv : v = u
      · simp [hv]
      · simp [hv]

/-- `ParseHeader` gives back the table that `CreateHeader` wrote out (R184). -/
theorem parseHeader_createHeader {w : Nat} (h : ∀ v, freq.get v < 2 ^ w) :
    parseHeader w (createHeader freq) = .ok (freq, (present freq).length) := by
  obtain ⟨t, hparse, hget⟩ := parseTokens_pairs h (present freq) (Table.fill 0) 0
  have ht : t = freq := Table.ext_get fun v => by
    rw [hget, Table.get_fill]
    split
    · rfl
    · next hv => exact (not_not.mp (mt mem_present.mpr hv)).symm
  rw [parseHeader, tokens_createHeader, hparse, ht, Nat.zero_add]

end

end Sys2Proof.Machine
end

section
/-! SUPPORT. DECODE up to its body (44_decoder.md R160 to R162): the split of the input, the errors
of the header, and the tables of no byte and of one byte. -/

namespace Sys2Proof.Machine

theorem notNewline_eq_false_iff (c : Byte) : notNewline c = false ↔ c = charNewline := by
  simp [notNewline]

theorem notNewline_of_not_mem {bytes : List Byte} (h : charNewline ∉ bytes) :
    ∀ c ∈ bytes, notNewline c = true := by
  intro c hc
  rw [← Bool.not_eq_false, notNewline_eq_false_iff]
  exact fun he => h (he ▸ hc)

theorem charNewline_not_mem_headerLine (bytes : List Byte) : charNewline ∉ headerLine bytes :=
  fun hmem =>
    Bool.eq_false_iff.mp ((notNewline_eq_false_iff _).mpr rfl) (List.mem_takeWhile_imp hmem)

/-- The input is the header line and what stands from the first newline on (R160). -/
theorem headerLine_append_drop (bytes : List Byte) :
    bytes = headerLine bytes ++ bytes.dropWhile notNewline :=
  List.takeWhile_append_dropWhile.symm

theorem bodyPart_eq_drop (bytes : List Byte) :
    bodyPart bytes = bytes.drop ((headerLine bytes).length + 1) := by
  calc bodyPart bytes
    _ = (headerLine bytes ++ bytes.dropWhile notNewline).drop ((headerLine bytes).length + 1) :=
      (List.drop_length_add_append _).symm
    _ = bytes.drop ((headerLine bytes).length + 1) := by rw [← headerLine_append_drop bytes]

section

variable {line : List Byte} (h : charNewline ∉ line)
include h

/-- The first newline ends the header line (R160). -/
theorem headerLine_append_newline (body : List Byte) :
    headerLine (line ++ charNewline :: body) = line := by
  rw [headerLine, List.takeWhile_append_of_pos (notNewline_of_not_mem h)]
  exact List.append_nil line

/-- All that is behind the first newline is the body (R160). -/
theorem bodyPart_append_newline (body : List Byte) :
    bodyPart (line ++ charNewline :: body) = body := by
  rw [bodyPart, List.dropWhile_append_of_pos (notNewline_of_not_mem h)]
  rfl

theorem headerLine_of_not_mem : headerLine line = line :=
  List.takeWhile_eq_self_iff.mpr (notNewline_of_not_mem h)

theorem bodyPart_of_not_mem : bodyPart line = [] := by
  rw [bodyPart, List.dropWhile_eq_nil_iff.mpr (notNewline_of_not_mem h), List.drop_nil]

end

/-- Settles O52: an input with a newline is the bytes before the first one, the newline, and the
rest. -/
theorem inputSplitsAtFirstNewline : Obligations.InputSplitsAtFirstNewline := by
  refine fun E => ⟨charNewline_not_mem_headerLine E, fun hmem => ?_, fun hnot =>
    ⟨headerLine_of_not_mem hnot, bodyPart_of_not_mem hnot⟩⟩
  obtain ⟨line, body, rfl, hline⟩ := List.eq_append_cons_of_mem hmem
  rw [headerLine_append_newline hline, bodyPart_append_newline hline]
  rfl

/-- With a leaf as the root the body is not looked at (R162). -/
theorem decodeOutput_leaf {cap r : Nat} {pack : Bool} {nodes : List Node} {body : List Byte}
    (h : (nodeAt nodes r).isLeaf = true) :
    decodeOutput cap pack nodes (some r) body
      = putRepeat cap (nodeAt nodes r).value (nodeAt nodes r).weight [] :=
  if_pos h

section

variable {s : State} {freq : Table Nat} {n : Nat}

/-- Under a header of one present byte DECODE puts that byte out as often as its frequency says
(R162). -/
theorem decodeResult_of_singleton {par : Params} {pack : Bool} {bytes : List Byte} {v : Byte}
    (hparse : parseHeader par.wFreq (headerLine bytes) = .ok (freq, n)) (h : present freq = [v]) :
    decodeResult par pack bytes
      = if freq.get v ≤ par.obufCap then .ok (freq, List.replicate (freq.get v) v)
        else .error .capacity := by
  rw [decodeResult_of_parse hparse, builtNodes_singleton h, builtRoot_singleton h,
    decodeOutput_leaf rfl, putRepeat_eq_putAll, putAll_eq (Nat.zero_le _), List.length_nil,
    Nat.zero_add, List.length_replicate, List.nil_append]
  change Except.map _ (if freq.get v ≤ par.obufCap then _ else _) = _
  split <;> rfl

theorem exec_decode_nil (hparse : parseHeader s.par.wFreq (headerLine s.ibuf) = .ok (freq, n))
    (h : present freq = []) :
    exec .decode s = .next ((((s.setFreq freq).setTree [] none).setObuf []).ok 0#64) := by
  rw [exec_decode_ok (decodeResult_of_nil hparse h), buildTree_of_nil (s := s.setFreq freq) h]
  rfl

end

/-- Settles O53: the header's error, and the tables of no byte and of one byte. -/
theorem decodeShortCases : Obligations.DecodeShortCases := by
  refine fun s a b => ⟨rfl, fun k hparse => exec_decode_error (decodeResult_of_parse_error hparse),
    fun T n hparse => ⟨exec_decode_nil hparse, fun v hv hfits => ?_, fun v hv hfull => ?_⟩⟩
  · have hresult := decodeResult_of_singleton (pack := s.pack) hparse hv
    rw [if_pos hfits] at hresult
    rw [exec_decode_ok hresult, buildTree_of_singleton (s := s.setFreq T) hv, List.length_replicate]
    rfl
  · have hresult := decodeResult_of_singleton (pack := s.pack) hparse hv
    rw [if_neg (Nat.not_le.mpr hfull)] at hresult
    exact exec_decode_error hresult

end Sys2Proof.Machine
end

section
/-! SUPPORT. The tree walker on code bits (44_decoder.md R163 to R166): a path to a leaf writes its
byte, a path to an internal node nothing; both body formats are walks of the same bits; and DECODE
of a body under a header of two or more present bytes. -/

namespace Sys2Proof.Machine

/-! ### One code -/

section

variable {nodes : List Node} {root cap total : Nat}

/-- The child of an internal node that one bit leads to. -/
def childOn (bit : Bool) (lr : Nat × Nat) : Nat := if bit then lr.2 else lr.1

theorem descend_cons {n : Nat} {lr : Nat × Nat} (hk : (nodeAt nodes n).kids = some lr) (bit : Bool)
    (path : List Bool) : descend nodes n (bit :: path) = descend nodes (childOn bit lr) path := by
  rw [descend, hk]
  rfl

/-- A path goes on from an internal node only. -/
theorem exists_kids_of_descend_cons {n p : Nat} {bit : Bool} {path : List Bool}
    (h : descend nodes n (bit :: path) = some p) : ∃ lr, (nodeAt nodes n).kids = some lr := by
  rw [descend] at h
  cases hk : (nodeAt nodes n).kids with
  | none => rw [hk] at h; cases h
  | some lr => exact ⟨lr, rfl⟩

theorem isLeaf_of_descend_cons {n p : Nat} {bit : Bool} {path : List Bool}
    (h : descend nodes n (bit :: path) = some p) : (nodeAt nodes n).isLeaf = false := by
  obtain ⟨lr, hk⟩ := exists_kids_of_descend_cons h
  rw [Node.isLeaf, hk]
  rfl

/-- What the walk does at the node `next`: at a leaf it writes the byte and goes back to the root
(R163). -/
def Walk.arrive (nodes : List Node) (root cap next : Nat) (w : Walk) : Except Kind Walk :=
  if (nodeAt nodes next).isLeaf then
    match put cap (nodeAt nodes next).value w.out with
    | .ok o => .ok ⟨root, w.emitted + 1, o⟩
    | .error k => .error k
  else .ok ⟨next, w.emitted, w.out⟩

theorem arrive_leaf {next : Nat} (h : (nodeAt nodes next).isLeaf = true) (w : Walk) :
    w.arrive nodes root cap next
      = (put cap (nodeAt nodes next).value w.out).map (⟨root, w.emitted + 1, ·⟩) := by
  rw [Walk.arrive, if_pos h]
  cases put cap (nodeAt nodes next).value w.out <;> rfl

theorem arrive_internal {next : Nat} (h : (nodeAt nodes next).isLeaf = false) (w : Walk) :
    w.arrive nodes root cap next = .ok ⟨next, w.emitted, w.out⟩ := if_neg (Bool.eq_false_iff.mp h)

/-- One tree edge (R163). -/
theorem walkBit_eq_arrive (bit : Bool) (w : Walk) :
    walkBit nodes root cap bit w
      = w.arrive nodes root cap
          (if bit then (nodeAt nodes w.cur).right else (nodeAt nodes w.cur).left) := rfl

theorem walkBit_of_kids {w : Walk} {lr : Nat × Nat} (hk : (nodeAt nodes w.cur).kids = some lr)
    (bit : Bool) : walkBit nodes root cap bit w = w.arrive nodes root cap (childOn bit lr) := by
  rw [walkBit_eq_arrive, Node.right, Node.left, hk]
  rfl

/-- A bit that is looked at is one tree edge (R165). -/
theorem walkBits_cons {w : Walk} (h : w.emitted < total) (bit : Bool) (bits : List Bool) :
    walkBits nodes root cap total (bit :: bits) w
      = (walkBit nodes root cap bit w).bind (walkBits nodes root cap total bits) := by
  rw [walkBits, if_pos h]
  cases walkBit nodes root cap bit w <;> rfl

/-- After the last symbol no bit is looked at (R165). -/
theorem walkBits_done {w : Walk} (h : total ≤ w.emitted) (bits : List Bool) :
    walkBits nodes root cap total bits w = .ok w := by
  cases bits with
  | nil => rfl
  | cons bit bits => exact if_neg (Nat.not_lt.mpr h)

theorem walkBits_append (bits more : List Bool) (w : Walk) :
    walkBits nodes root cap total (bits ++ more) w
      = (walkBits nodes root cap total bits w).bind (walkBits nodes root cap total more) := by
  induction bits generalizing w with
  | nil => rfl
  | cons bit bits ih =>
    rcases Nat.lt_or_ge w.emitted total with hlt | hge
    · rw [List.cons_append, walkBits_cons hlt, walkBits_cons hlt]
      cases walkBit nodes root cap bit w with
      | error k => rfl
      | ok w' => exact ih w'
    · rw [walkBits_done hge, walkBits_done hge]
      exact (walkBits_done hge more).symm

/-- A path that ends at an internal node writes nothing. -/
theorem walkBits_inside {path : List Bool} {w : Walk} {p : Nat}
    (hd : descend nodes w.cur path = some p) (hin : (nodeAt nodes p).isLeaf = false)
    (hmore : w.emitted < total) :
    walkBits nodes root cap total path w = .ok ⟨p, w.emitted, w.out⟩ := by
  induction path generalizing w with
  | nil => cases hd; rfl
  | cons bit path ih =>
    obtain ⟨lr, hk⟩ := exists_kids_of_descend_cons hd
    rw [descend_cons hk] at hd
    have hnext : (nodeAt nodes (childOn bit lr)).isLeaf = false := by
      cases path with
      | nil => cases hd; exact hin
      | cons bit' path => exact isLeaf_of_descend_cons hd
    rw [walkBits_cons hmore, walkBit_of_kids hk, arrive_internal hnext]
    exact ih (w := ⟨childOn bit lr, w.emitted, w.out⟩) hd hmore

/-- A path to a leaf writes the leaf's byte, and the walk is back at the root. -/
theorem walkBits_toLeaf {path : List Bool} {w : Walk} {v : Byte}
    (h : LeadsTo nodes w.cur v path) (hne : path ≠ []) (hmore : w.emitted < total) :
    walkBits nodes root cap total path w = (put cap v w.out).map (⟨root, w.emitted + 1, ·⟩) := by
  obtain ⟨p, hd, hleaf, rfl⟩ := h
  obtain ⟨path, bit, rfl⟩ := (List.eq_nil_or_concat' path).resolve_left hne
  rw [descend_append] at hd
  cases hd₁ : descend nodes w.cur path with
  | none => rw [hd₁] at hd; cases hd
  | some q =>
    rw [hd₁, Option.bind_some] at hd
    have hin := isLeaf_of_descend_cons hd
    obtain ⟨lr, hk⟩ := exists_kids_of_descend_cons hd
    rw [descend_cons hk] at hd
    cases hd
    have hend : (nodeAt nodes (childOn bit lr)).isLeaf = true := by rw [Node.isLeaf, hleaf]; rfl
    rw [walkBits_append, walkBits_inside hd₁ hin hmore]
    change walkBits nodes root cap total [bit] ⟨q, w.emitted, w.out⟩ = _
    rw [walkBits_cons (w := ⟨q, w.emitted, w.out⟩) hmore,
      walkBit_of_kids (w := ⟨q, w.emitted, w.out⟩) hk, arrive_leaf hend]
    cases put cap (nodeAt nodes (childOn bit lr)).value w.out <;> rfl

/-! ### The two body formats -/

theorem walkBit_emitted_le {w w' : Walk} {bit : Bool}
    (h : walkBit nodes root cap bit w = .ok w') : w'.emitted ≤ w.emitted + 1 := by
  rw [walkBit_eq_arrive] at h
  generalize (if bit then (nodeAt nodes w.cur).right else (nodeAt nodes w.cur).left) = next at h
  cases hleaf : (nodeAt nodes next).isLeaf with
  | false =>
    rw [arrive_internal hleaf] at h
    cases h
    exact Nat.le_succ _
  | true =>
    rw [arrive_leaf hleaf] at h
    cases hput : put cap (nodeAt nodes next).value w.out with
    | error k => rw [hput] at h; cases h
    | ok o => rw [hput] at h; cases h; exact Nat.le_refl _

/-- One body byte of an ASCII walk: its bit, the tree edge, and the rest (R163). -/
theorem walkAscii_cons (c : Byte) (rest : List Byte) (w : Walk) :
    walkAscii nodes root cap (c :: rest) w
      = (asciiBit c).bind fun bit =>
          (walkBit nodes root cap bit w).bind (walkAscii nodes root cap rest) := by
  rw [walkAscii]
  cases asciiBit c with
  | error k => rfl
  | ok bit => simp only [Except.bind]; cases walkBit nodes root cap bit w <;> rfl

theorem asciiBit_bitChar (bit : Bool) : asciiBit (bitChar bit) = .ok bit := by
  cases bit <;> rfl

/-- The walk of ASCII symbols is that of their bits, any number of symbols being wanted (R163). -/
theorem walkAscii_append {bits : List Bool} {w : Walk} (h : w.emitted + bits.length ≤ total)
    (rest : List Byte) :
    walkAscii nodes root cap (bits.map bitChar ++ rest) w
      = (walkBits nodes root cap total bits w).bind (walkAscii nodes root cap rest) := by
  induction bits generalizing w with
  | nil => rfl
  | cons bit bits ih =>
    rw [List.length_cons] at h
    rw [List.map_cons, List.cons_append, walkAscii_cons, asciiBit_bitChar,
      walkBits_cons (by omega)]
    change (walkBit nodes root cap bit w).bind _ = _
    cases hw : walkBit nodes root cap bit w with
    | error k => rfl
    | ok w' =>
      have hle := walkBit_emitted_le hw
      exact ih (w := w') (by omega)

/-- The end of `WalkPacked()`: all symbols written, or the body too short (R165). -/
def packedEnd (total : Nat) (w : Walk) : Except Kind (List Byte) :=
  if w.emitted < total then .error .malformedBody else .ok w.out

/-- `WalkPacked()` walks the bits of its bytes (R165). -/
theorem walkPacked_eq (body : List Byte) (w : Walk) :
    walkPacked nodes root cap total body w
      = (walkBits nodes root cap total (body.flatMap msbFirst) w).bind (packedEnd total) := by
  induction body generalizing w with
  | nil => rfl
  | cons b rest ih =>
    rw [walkPacked]
    split
    · rw [List.flatMap_cons, walkBits_append]
      cases walkBits nodes root cap total (msbFirst b) w with
      | error k => rfl
      | ok w' => exact ih w'
    · next hdone =>
      rw [walkBits_done (Nat.not_lt.mp hdone)]
      exact (if_neg hdone).symm

end

/-- With an internal root the body is walked in its format (R162). -/
theorem decodeOutput_internal {nodes : List Node} {r : Nat}
    (h : ¬ (nodeAt nodes r).isLeaf = true) (cap : Nat) (pack : Bool) (body : List Byte) :
    decodeOutput cap pack nodes (some r) body
      = if pack then walkPacked nodes r cap (nodeAt nodes r).weight body ⟨r, 0, []⟩
        else walkAscii nodes r cap body ⟨r, 0, []⟩ := by
  simp only [decodeOutput, if_neg h]
  cases pack <;> rfl

/-! ### A body under a header of two or more bytes -/

section

variable {freq : Table Nat} {r cap total : Nat} {bytes : List Byte}

/-- Under a header of two or more bytes the body is walked for as many symbols as the frequencies
sum to (R162). -/
theorem decodeOutput_branched (hr : builtRoot freq = some r) (htwo : 2 ≤ (present freq).length)
    (pack : Bool) (body : List Byte) :
    decodeOutput cap pack (builtNodes freq) (builtRoot freq) body
      = if pack then walkPacked (builtNodes freq) r cap freq.cells.sum body ⟨r, 0, []⟩
        else walkAscii (builtNodes freq) r cap body ⟨r, 0, []⟩ := by
  have hleaf : ¬ (nodeAt (builtNodes freq) r).isLeaf = true := by
    rw [builtRoot_isLeaf_iff hr]
    omega
  rw [hr, decodeOutput_internal hleaf, builtRoot_weight hr]

/-- The code of a present byte walks from the root to its leaf. -/
theorem leadsTo_codeBits (hr : builtRoot freq = some r) {v : Byte} (hv : v ∈ present freq) :
    LeadsTo (builtNodes freq) r v (codeBits ((codesOf freq).get v)) := by
  obtain ⟨path, hp⟩ := (exists_leadsTo_iff hr v).mpr (mem_present.mp hv)
  rwa [codeBits_codesOf_of_leadsTo hr hp]

/-- The codes of some bytes walk to those bytes, one after the other. -/
theorem walkBits_inputBits (hr : builtRoot freq = some r) (htwo : 2 ≤ (present freq).length)
    (hbytes : ∀ x ∈ bytes, x ∈ present freq) {e : Nat} (he : e + bytes.length ≤ total)
    (out : List Byte) :
    walkBits (builtNodes freq) r cap total (inputBits (codesOf freq) bytes) ⟨r, e, out⟩
      = (putAll cap bytes out).map (⟨r, e + bytes.length, ·⟩) := by
  induction bytes generalizing e out with
  | nil => rfl
  | cons x xs ih =>
    obtain ⟨hx, hxs⟩ := List.forall_mem_cons.mp hbytes
    have hlead := leadsTo_codeBits hr hx
    rw [List.length_cons] at he
    rw [inputBits, List.flatMap_cons, walkBits_append, putAll,
      walkBits_toLeaf (w := ⟨r, e, out⟩) hlead (built_leadsTo_ne_nil hr htwo hlead)
        (Nat.lt_of_lt_of_le (Nat.lt_add_of_pos_right (Nat.succ_pos _)) he)]
    cases put cap x out with
    | error k => rfl
    | ok o =>
      have hlen : e + (x :: xs).length = e + 1 + xs.length := by rw [List.length_cons]; omega
      rw [hlen]
      exact ih (e := e + 1) hxs (by omega) o

/-- A walk of codes whose bytes fit writes them. -/
theorem walkBits_fits (hr : builtRoot freq = some r) (htwo : 2 ≤ (present freq).length)
    (hbytes : ∀ x ∈ bytes, x ∈ present freq) (htotal : bytes.length ≤ total)
    (hfits : bytes.length ≤ cap) :
    walkBits (builtNodes freq) r cap total (inputBits (codesOf freq) bytes) ⟨r, 0, []⟩
      = .ok ⟨r, bytes.length, bytes⟩ := by
  rw [walkBits_inputBits hr htwo hbytes (by omega), putAll_eq (Nat.zero_le _), List.length_nil,
    Nat.zero_add, if_pos hfits]
  rfl

/-- A walk of codes with one byte too many fails at that byte. -/
theorem walkBits_full (hr : builtRoot freq = some r) (htwo : 2 ≤ (present freq).length)
    (hbytes : ∀ x ∈ bytes, x ∈ present freq) (htotal : bytes.length ≤ total)
    (hfull : cap < bytes.length) :
    walkBits (builtNodes freq) r cap total (inputBits (codesOf freq) bytes) ⟨r, 0, []⟩
      = .error .capacity := by
  rw [walkBits_inputBits hr htwo hbytes (by omega), putAll_eq (Nat.zero_le _), List.length_nil,
    Nat.zero_add, if_neg (Nat.not_le.mpr hfull)]
  rfl

/-- Part of a code ends at an internal node of the tree. -/
theorem PartOfCode.descend (hr : builtRoot freq = some r) {x : List Bool} (h : PartOfCode freq x) :
    ∃ p, Machine.descend (builtNodes freq) r x = some p
      ∧ (nodeAt (builtNodes freq) p).isLeaf = false := by
  obtain ⟨v, hv, ⟨rest, hrest⟩, hne⟩ := h
  obtain ⟨q, hd, -⟩ := leadsTo_codeBits hr hv
  rw [← hrest, descend_append] at hd
  cases hp : Machine.descend (builtNodes freq) r x with
  | none => rw [hp] at hd; cases hd
  | some p =>
    refine ⟨p, rfl, ?_⟩
    rw [hp, Option.bind_some] at hd
    cases rest with
    | nil => exact absurd ((List.append_nil x).symm.trans hrest) hne
    | cons bit rest => exact isLeaf_of_descend_cons hd

/-- A path that is not empty leads to a lower slot. -/
theorem descend_lt {nodes : List Node} (hint : InternalAbove 0 nodes) {n p : Nat}
    {path : List Bool} (hne : path ≠ []) (hd : descend nodes n path = some p) : p < n := by
  induction path generalizing n with
  | nil => exact absurd rfl hne
  | cons bit path ih =>
    obtain ⟨⟨l, r⟩, hk⟩ := exists_kids_of_descend_cons hd
    obtain ⟨-, hl, hr⟩ := hint n l r hk
    have hchild : childOn bit (l, r) < n := by cases bit <;> assumption
    rw [descend_cons hk] at hd
    by_cases hpath : path = []
    · subst hpath
      cases hd
      exact hchild
    · exact (ih hpath hd).trans hchild

/-- A walk of codes and part of one more stops inside the tree. -/
theorem walkBits_part (hr : builtRoot freq = some r) (htwo : 2 ≤ (present freq).length)
    (hbytes : ∀ x ∈ bytes, x ∈ present freq) (htotal : bytes.length < total)
    (hfits : bytes.length ≤ cap) {x : List Bool} (hx : PartOfCode freq x) :
    ∃ p, (x ≠ [] → p ≠ r)
      ∧ walkBits (builtNodes freq) r cap total (inputBits (codesOf freq) bytes ++ x) ⟨r, 0, []⟩
        = .ok ⟨p, bytes.length, bytes⟩ := by
  obtain ⟨p, hd, hin⟩ := hx.descend hr
  refine ⟨p, fun hne => (descend_lt (built_internalAbove freq) hne hd).ne, ?_⟩
  rw [walkBits_append, walkBits_fits hr htwo hbytes htotal.le hfits]
  exact walkBits_inside (w := ⟨r, bytes.length, bytes⟩) hd hin htotal

end

section

variable {s : State} {freq : Table Nat} {n : Nat} {bytes : List Byte}

/-- DECODE under a header of two or more bytes, when the walk of its body succeeds. -/
theorem exec_decode_walk_ok {r : Nat}
    (hparse : parseHeader s.par.wFreq (headerLine s.ibuf) = .ok (freq, n))
    (hr : builtRoot freq = some r)
    (hwalk : decodeOutput s.par.obufCap s.pack (builtNodes freq) (builtRoot freq) (bodyPart s.ibuf)
      = .ok bytes) :
    exec .decode s = .next
      ({ s with
        freq := freq, nodes := builtNodes freq, pq := [], root := builtRoot freq
        emptyFlag := false, codesValid := false, obuf := bytes }.ok (natWord bytes.length)) := by
  have hresult := decodeResult_of_parse (pack := s.pack) hparse
  rw [hwalk] at hresult
  rw [exec_decode_ok hresult, hr]
  simp [State.buildTree, State.setTree, State.setFreq, State.setObuf, hr]

/-- DECODE when the walk of its body fails. -/
theorem exec_decode_walk_error {k : Kind}
    (hparse : parseHeader s.par.wFreq (headerLine s.ibuf) = .ok (freq, n))
    (hwalk : decodeOutput s.par.obufCap s.pack (builtNodes freq) (builtRoot freq) (bodyPart s.ibuf)
      = .error k) : exec .decode s = .next (s.wiped.err k.code) := by
  have hresult := decodeResult_of_parse (pack := s.pack) hparse
  rw [hwalk] at hresult
  exact exec_decode_error hresult

end

end Sys2Proof.Machine
end

section
/-! SUPPORT. DECODE of the two body formats (44_decoder.md R163 to R166). -/

namespace Sys2Proof.Machine

section

variable {freq : Table Nat} {r cap : Nat} {bytes : List Byte} (hr : builtRoot freq = some r)
  (htwo : 2 ≤ (present freq).length) (hbytes : ∀ x ∈ bytes, x ∈ present freq)
include hr htwo hbytes

/-- An ASCII walk of codes whose bytes fit goes on behind them from the root. -/
theorem walkAscii_fits (hfits : bytes.length ≤ cap) (rest : List Byte) :
    walkAscii (builtNodes freq) r cap ((inputBits (codesOf freq) bytes).map bitChar ++ rest)
        ⟨r, 0, []⟩
      = walkAscii (builtNodes freq) r cap rest ⟨r, bytes.length, bytes⟩ := by
  rw [walkAscii_append (total := (inputBits (codesOf freq) bytes).length + bytes.length)
    (by simp only; omega), walkBits_fits hr htwo hbytes (Nat.le_add_left ..) hfits]
  rfl

/-- An ASCII walk of codes with one byte too many fails, whatever is behind them. -/
theorem walkAscii_full (hfull : cap < bytes.length) (rest : List Byte) :
    walkAscii (builtNodes freq) r cap ((inputBits (codesOf freq) bytes).map bitChar ++ rest)
        ⟨r, 0, []⟩
      = .error .capacity := by
  rw [walkAscii_append (total := (inputBits (codesOf freq) bytes).length + bytes.length)
    (by simp only; omega), walkBits_full hr htwo hbytes (Nat.le_add_left ..) hfull]
  rfl

/-- An ASCII walk of codes and part of one more goes on behind them from inside the tree. -/
theorem walkAscii_part (hfits : bytes.length ≤ cap) {x : List Bool} (hx : PartOfCode freq x) :
    ∃ p, (x ≠ [] → p ≠ r) ∧ ∀ rest,
      walkAscii (builtNodes freq) r cap ((inputBits (codesOf freq) bytes ++ x).map bitChar ++ rest)
          ⟨r, 0, []⟩
        = walkAscii (builtNodes freq) r cap rest ⟨p, bytes.length, bytes⟩ := by
  obtain ⟨p, hp, hpart⟩ := walkBits_part (cap := cap)
    (total := (inputBits (codesOf freq) bytes ++ x).length + (bytes.length + 1)) hr htwo hbytes
    (Nat.le_add_left ..) hfits hx
  refine ⟨p, hp, fun rest => ?_⟩
  rw [walkAscii_append (total := (inputBits (codesOf freq) bytes ++ x).length + (bytes.length + 1))
    (by simp only; omega), hpart]
  rfl

end

/-- Settles O54: the walk of the codes, or of the codes and part of one more, and what comes behind
them. -/
theorem decodeAsciiBody : Obligations.DecodeAsciiBody := by
  intro s T n B hparse htwo hpack hB
  obtain ⟨r, hr⟩ := exists_builtRoot (Nat.zero_lt_of_lt htwo)
  have hout := decodeOutput_branched (cap := s.par.obufCap) hr htwo s.pack (bodyPart s.ibuf)
  rw [if_neg (Bool.eq_false_iff.mp hpack)] at hout
  refine ⟨fun hbody hfits => exec_decode_walk_ok hparse hr (hout.trans ?_),
    fun x hx hne hbody hfits =>
      exec_decode_walk_error (k := .malformedBody) hparse (hout.trans ?_),
    fun x c rest hx h0 h1 hbody hfits =>
      exec_decode_walk_error (k := .malformedBody) hparse (hout.trans ?_),
    fun rest hbody hfull => exec_decode_walk_error (k := .capacity) hparse (hout.trans ?_)⟩
  · have hwalk := walkAscii_fits hr htwo hB hfits []
    rw [List.append_nil] at hwalk
    rw [hbody]
    exact hwalk.trans (if_pos rfl)
  · obtain ⟨p, hp, hwalk⟩ := walkAscii_part hr htwo hB hfits hx
    have hwalk := hwalk []
    rw [List.append_nil] at hwalk
    rw [hbody]
    exact hwalk.trans (if_neg (hp hne))
  · obtain ⟨p, -, hwalk⟩ := walkAscii_part hr htwo hB hfits hx
    have hc : asciiBit c = .error .malformedBody := (if_neg h0).trans (if_neg h1)
    rw [hbody]
    refine (hwalk _).trans ?_
    rw [walkAscii_cons, hc]
    rfl
  · rw [hbody]
    exact walkAscii_full hr htwo hB (by omega) rest

/-- Settles O55: the walk of the body's bits, up to the last symbol wanted. -/
theorem decodePackedBody : Obligations.DecodePackedBody := by
  intro s T n B hparse htwo hpack hB
  obtain ⟨r, hr⟩ := exists_builtRoot (Nat.zero_lt_of_lt htwo)
  have hout := decodeOutput_branched (cap := s.par.obufCap) hr htwo s.pack (bodyPart s.ibuf)
  rw [if_pos hpack, walkPacked_eq] at hout
  refine ⟨fun ⟨rest, hbody⟩ htotal hfits => exec_decode_walk_ok hparse hr (hout.trans ?_),
    fun x hx hbody htotal hfits =>
      exec_decode_walk_error (k := .malformedBody) hparse (hout.trans ?_),
    fun ⟨rest, hbody⟩ hfull htotal =>
      exec_decode_walk_error (k := .capacity) hparse (hout.trans ?_)⟩
  · have hwalk := walkBits_fits hr htwo hB htotal.le hfits
    rw [← hbody, walkBits_append, ← inputBits, hwalk]
    change (walkBits _ _ _ _ rest _).bind _ = _
    rw [walkBits_done htotal.ge]
    exact if_neg (Nat.not_lt.mpr htotal.ge)
  · obtain ⟨p, -, hwalk⟩ := walkBits_part hr htwo hB htotal hfits hx
    rw [hbody, ← inputBits, hwalk]
    exact if_pos htotal
  · have hwalk := walkBits_full hr htwo hB htotal (cap := s.par.obufCap) (by omega)
    rw [← hbody, walkBits_append, ← inputBits, hwalk]
    rfl

end Sys2Proof.Machine
end

section
/-! SUPPORT. The round trip (44_decoder.md R168): the bits of a packed body start with the code
bits it was packed from, and what ENCODE writes is a header and a body that DECODE reads. -/

namespace Sys2Proof.Machine

/-- The bits of a packed byte are those it was packed from, then zeros (R151, R165). -/
theorem msbFirst_packByte {bits : List Bool} (h : bits.length ≤ 8) :
    msbFirst (packByte bits) = bits ++ List.replicate (8 - bits.length) false := by
  have hmap : msbFirst (packByte bits)
      = (List.range 8).map fun j => (packByte bits).getLsbD (7 - j) := rfl
  rw [hmap]
  refine List.ext_getElem (by simp; omega) fun j hj hj' => ?_
  rw [List.getElem_map, List.getElem_range, packByte_getLsbD h (by simpa using hj),
    List.getElem_append]
  split
  · next hlt => exact List.getD_eq_getElem _ _ hlt
  · next hge => rw [List.getElem_replicate, List.getD_eq_default _ _ (Nat.not_lt.mp hge)]

/-- The bits of a packed body start with those it was packed from. -/
theorem prefix_flatMap_packBytes {fuel : Nat} {bits : List Bool} (h : bits.length ≤ fuel) :
    bits <+: (packBytes fuel bits).flatMap msbFirst := by
  induction fuel generalizing bits with
  | zero => rw [List.length_eq_zero_iff.mp (Nat.le_zero.mp h)]; exact List.nil_prefix
  | succ fuel ih =>
    by_cases hne : bits = []
    · rw [hne]; exact List.nil_prefix
    · have hbyte := msbFirst_packByte (List.length_take_le 8 bits)
      rw [packBytes_of_ne_nil hne h, List.flatMap_cons, hbyte]
      rcases Nat.lt_or_ge bits.length 8 with hlt | hge
      · rw [List.take_of_length_le hlt.le, List.append_assoc]
        exact List.prefix_append ..
      · have hrest := ih (bits := bits.drop 8) (by rw [List.length_drop]; omega)
        rw [List.length_take, Nat.min_eq_left hge, Nat.sub_self, List.replicate_zero,
          List.append_nil]
        conv_lhs => rw [← List.take_append_drop 8 bits]
        exact List.prefix_append_right_inj _ |>.mpr hrest

section

variable {bytes : List Byte}

/-- The stream's header line is the header, and its body what is behind the newline (R145, R160). -/
theorem encodedStream_split (pack : Bool) (bytes : List Byte) :
    headerLine (encodedStream pack bytes) = createHeader (countBytes bytes)
      ∧ (2 ≤ (present (countBytes bytes)).length → bodyPart (encodedStream pack bytes)
          = bodyBytes pack (inputBits (codesOf (countBytes bytes)) bytes)) := by
  have hnot := charNewline_not_mem_createHeader (countBytes bytes)
  rw [encodedStream_eq, List.append_assoc, List.singleton_append]
  refine ⟨headerLine_append_newline hnot _, fun htwo => ?_⟩
  rw [bodyPart_append_newline hnot, if_pos htwo]

/-- An input with one byte value repeats it (R147). -/
theorem eq_replicate_of_present_singleton {v : Byte} (h : present (countBytes bytes) = [v]) :
    bytes = List.replicate ((countBytes bytes).get v) v := by
  have hall : ∀ x ∈ bytes, x = v := fun x hx => by
    rw [← mem_present_countBytes, h] at hx
    exact List.mem_singleton.mp hx
  rw [countBytes_get, List.count_eq_length.mpr fun x hx => (hall x hx).symm]
  exact List.eq_replicate_of_mem hall

/-- DECODE reads an encoded stream back (R168). -/
theorem exec_decode_encodedStream {s : State} (hlen : bytes.length < 2 ^ s.par.wFreq)
    (hfits : bytes.length ≤ s.par.obufCap) (hin : s.ibuf = encodedStream s.pack bytes) :
    ∃ t, exec .decode s = .next t ∧ t.obuf = bytes
      ∧ t.rsp = some ⟨0#8, natWord bytes.length⟩ := by
  obtain ⟨hline, hbody⟩ := encodedStream_split s.pack bytes
  rw [← hin] at hline hbody
  have hparse := parseHeader_createHeader (countBytes_get_lt hlen)
  rw [← hline] at hparse
  obtain ⟨-, -, hshort⟩ := decodeShortCases s 0 0
  obtain ⟨hnone, hone, -⟩ := hshort _ _ hparse
  rcases Nat.lt_or_ge (present (countBytes bytes)).length 2 with hfew | htwo
  · match hp : present (countBytes bytes), hfew with
    | [], _ =>
      have hnil : bytes = [] := List.eq_nil_iff_forall_not_mem.mpr fun x hx => by
        rw [← mem_present_countBytes, hp] at hx
        cases hx
      exact ⟨_, hnone hp, hnil.symm, by rw [hnil]; rfl⟩
    | [v], _ =>
      have hsame := eq_replicate_of_present_singleton hp
      have hcount : (countBytes bytes).get v = bytes.length := by
        conv_rhs => rw [hsame, List.length_replicate]
      exact ⟨_, hone v hp (hcount ▸ hfits), hsame.symm, by rw [← hcount]; rfl⟩
  · have hbody := hbody htwo
    have hmem : ∀ x ∈ bytes, x ∈ present (countBytes bytes) := fun x => mem_present_countBytes.mpr
    cases hpack : s.pack with
    | false =>
      rw [hpack] at hbody
      exact ⟨_, (decodeAsciiBody s _ _ _ hparse htwo hpack hmem).1 hbody hfits, rfl, rfl⟩
    | true =>
      rw [hpack] at hbody
      have hbits : inputBits (codesOf (countBytes bytes)) bytes
          <+: (bodyPart s.ibuf).flatMap msbFirst := by
        rw [hbody]
        exact prefix_flatMap_packBytes (Nat.le_refl _)
      exact ⟨_, (decodePackedBody s _ _ _ hparse htwo hpack hmem).1 hbits
        (sum_countBytes bytes).symm hfits, rfl, rfl⟩

end

/-- Settles O56: ENCODE writes the stream of its input, and DECODE reads it back. -/
theorem roundTrip : Obligations.RoundTrip := by
  intro s s' hlegal hpar hpack hin hfits hout _ hstream
  obtain ⟨-, -, hcap, -⟩ := (legalParams_iff s.par).mp hlegal
  have hpos := Nat.two_pow_pos s.par.wFreq
  obtain ⟨t', hdec, hobuf, hrsp⟩ := exec_decode_encodedStream (s := s') (bytes := s.ibuf)
    (hpar ▸ by omega) (hpar ▸ hfits) (hpack ▸ hstream)
  exact ⟨_, t', exec_encode_fits hout, hstream.symm, hstream ▸ rfl, hdec, hobuf, hrsp⟩

end Sys2Proof.Machine
end

section
/-! SUPPORT. The table of the header parser (45_header_codec.md R185): the token registers hold what
`ParseHeader` needs of the token in hand, and the table parses the header bytes as R180 does
wherever a counter can hold a byte value (log 9). -/

namespace Sys2Proof.Machine

/-! ### The token registers -/

/-- The token registers after the bytes `t` of a token: whether there are any, whether all are
digits, and then their value, or that a counter of `w` bits does not hold it. -/
structure Work.HoldsToken (w : Nat) (t : List Byte) (k : Work) : Prop where
  tokenOpen : k.tokenOpen = true ↔ t ≠ []
  bad : k.tokBad = !isNumeric t
  saturated : isNumeric t = true → (k.tokSat = true ↔ 2 ^ w ≤ decVal t)
  value : isNumeric t = true → k.tokSat = false → k.tokVal = decVal t

theorem holdsToken_clear (w : Nat) (k : Work) : k.clearToken.HoldsToken w [] where
  tokenOpen := by simp [Work.clearToken, Work.tokenOpen]
  bad := rfl
  saturated _ := iff_of_false Bool.false_ne_true (Nat.not_le.mpr (Nat.two_pow_pos w))
  value _ _ := rfl

theorem decVal_concat (t : List Byte) (c : Byte) : decVal (t ++ [c]) = decStep (decVal t) c :=
  List.foldl_append

theorem isNumeric_concat (t : List Byte) (c : Byte) :
    isNumeric (t ++ [c]) = (isNumeric t && isDigit c) := by
  simp [isNumeric]

theorem le_decStep (v : Nat) (c : Byte) : v ≤ decStep v c := by
  unfold decStep
  omega

/-- A byte of a token changes the four token registers only. -/
theorem exists_tokenByte_eq (w : Nat) (c : Byte) (k : Work) :
    ∃ v sat digits bad, tokenByte w c k
      = { k with tokVal := v, tokSat := sat, tokDigits := digits, tokBad := bad } := by
  unfold tokenByte
  split
  · split <;> exact ⟨_, _, _, _, rfl⟩
  · exact ⟨_, _, _, _, rfl⟩

/-- The registers with one more byte of the token (R185). -/
theorem Work.HoldsToken.tokenByte {w : Nat} {t : List Byte} {k : Work} (h : k.HoldsToken w t)
    (c : Byte) : (Machine.tokenByte w c k).HoldsToken w (t ++ [c]) := by
  obtain ⟨-, hbad, hsat, hval⟩ := h
  unfold Machine.tokenByte
  cases hc : isDigit c with
  | false =>
    have hnum : isNumeric (t ++ [c]) = false := by rw [isNumeric_concat, hc, Bool.and_false]
    exact ⟨by simp [Work.tokenOpen], by rw [hnum]; rfl, by simp [hnum], by simp [hnum]⟩
  | true =>
    have hnum : isNumeric (t ++ [c]) = isNumeric t := by rw [isNumeric_concat, hc, Bool.and_true]
    have hle := le_decStep (decVal t) c
    have hpos := Nat.two_pow_pos w
    rw [if_pos rfl]
    split
    · next hover =>
      refine ⟨by simp [Work.tokenOpen], hnum ▸ hbad, fun hn => iff_of_true rfl ?_,
        fun _ h => nomatch h⟩
      rw [hnum] at hn
      rw [decVal_concat]
      cases hs : k.tokSat with
      | true => exact ((hsat hn).mp hs).trans hle
      | false =>
        rw [hval hn hs] at hover
        omega
    · next hroom =>
      refine ⟨by simp [Work.tokenOpen], hnum ▸ hbad, fun hn => ?_, fun hn hs => ?_⟩
      · rw [hnum] at hn
        rw [decVal_concat]
        cases hs : k.tokSat with
        | true => exact iff_of_true rfl (((hsat hn).mp hs).trans hle)
        | false =>
          rw [hval hn hs] at hroom
          exact iff_of_false Bool.false_ne_true (by omega)
      · rw [hnum] at hn
        rw [decVal_concat, ← hval hn hs]

/-! ### Between two tokens -/

/-- The state of `ParseHeader` that the registers hold between two tokens (R180). -/
def Micro.parse (m : Micro) : Parse :=
  ⟨m.st.freq, m.count, if m.work.tokOdd then some m.work.curBv else none⟩

/-- The registers after a token that leaves `ParseHeader` in the state `p`. -/
def Micro.setParse (p : Parse) (m : Micro) : Micro :=
  { m with
    st := m.st.setFreq p.table
    count := p.pairs
    work := { m.work.clearToken with curBv := p.key.getD m.work.curBv, tokOdd := p.key.isSome } }

theorem Micro.parse_setParse (p : Parse) (m : Micro) : (m.setParse p).parse = p := by
  obtain ⟨table, pairs, key⟩ := p
  cases key <;> rfl

/-- Closing a token is one token of `ParseHeader` (R180, R185). -/
theorem closeTokenThen_eq {k : Micro → Micro} {m : Micro} {t : List Byte}
    (hw : 8 ≤ m.st.par.wFreq) (h : m.work.HoldsToken m.st.par.wFreq t) :
    closeTokenThen k m
      = match parseToken m.st.par.wFreq m.parse t with
        | .ok p => k (m.setParse p)
        | .error e => m.failTo .hpFail e := by
  rw [closeTokenThen, parseToken, h.bad]
  cases hnum : isNumeric t with
  | false => rfl
  | true =>
    have hsat := h.saturated hnum
    simp only [Bool.not_true, Bool.false_eq_true, not_true_eq_false, if_false]
    cases hodd : m.work.tokOdd with
    | false =>
      have hkey : m.parse.key = none := by rw [Micro.parse, hodd]; rfl
      rw [hkey, if_pos rfl]
      by_cases hs : m.work.tokSat = true
      · have h256 : 2 ^ 8 ≤ 2 ^ m.st.par.wFreq := Nat.pow_le_pow_right (by decide) hw
        have hbig : 255 < decVal t := by have := hsat.mp hs; omega
        rw [if_pos (.inl hs)]
        simp only [if_pos hbig]
      · have hval := h.value hnum (Bool.eq_false_iff.mpr hs)
        by_cases hbig : 255 < decVal t
        · rw [if_pos (.inr (hval ▸ hbig))]
          simp only [if_pos hbig]
        · rw [if_neg (hval ▸ not_or.mpr ⟨hs, hbig⟩)]
          simp only [if_neg hbig, Micro.regs, hval]
          rfl
    | true =>
      have hkey : m.parse.key = some m.work.curBv := by rw [Micro.parse, hodd]; rfl
      rw [hkey, if_neg Bool.true_eq_false.mp]
      by_cases hs : m.work.tokSat = true
      · rw [if_pos hs]
        simp only [if_pos (hsat.mp hs)]
      · rw [if_neg hs, h.value hnum (Bool.eq_false_iff.mpr hs)]
        simp only [if_neg (hsat.not.mp hs)]
        rfl

/-! ### The whole header -/

/-- Where the table goes with the result of `ParseHeader`: the response of HD.PARSE or the next
table of DECODE, or `HP_FAIL`. -/
def parseEnd (r : Except Kind (Table Nat × Nat)) (m : Micro) : Micro :=
  match r with
  | .error e => m.failTo .hpFail e
  | .ok tn =>
    match m.cmd with
    | .decode => m.goto .tbInit
    | _ => m.finish (natWord tn.2)

/-- From `m` the table comes to the end of a header with the result `r`. It has written `FREQ`
alone, which holds the table of `r` if there is one. -/
def Parses (m : Micro) (r : Except Kind (Table Nat × Nat)) : Prop :=
  Leads m fun m' => ∃ m₀ : Micro, m₀.st = m.st.setFreq m₀.st.freq ∧ m₀.context = m.context
    ∧ (∀ tn, r = .ok tn → m₀.st.freq = tn.1) ∧ m' = parseEnd r m₀

section

variable {m m' : Micro} {r : Except Kind (Table Nat × Nat)}

/-- A run that writes `FREQ` alone may come before. -/
theorem Parses.after (hm : Leads m (· = m')) (hst : m'.st = m.st.setFreq m'.st.freq)
    (hctx : m'.context = m.context) (h : Parses m' r) : Parses m r := by
  refine hm.trans ?_
  rintro _ rfl
  refine Leads.trans h ?_
  rintro _ ⟨m₀, hst₀, hctx₀, hfreq, rfl⟩
  refine .here ⟨m₀, ?_, hctx₀.trans hctx, hfreq, rfl⟩
  rw [hst₀, hst]
  rfl

theorem Parses.visit (hm : microStep m = m') (hst : m'.st = m.st.setFreq m'.st.freq)
    (hctx : m'.context = m.context) (h : Parses m' r) : Parses m r :=
  .after (.visit hm (.here rfl)) hst hctx h

/-- The last visit of the table. -/
theorem Parses.last (hm : microStep m = parseEnd r m') (hst : m'.st = m.st.setFreq m'.st.freq)
    (hctx : m'.context = m.context) (hfreq : ∀ tn, r = .ok tn → m'.st.freq = tn.1) : Parses m r :=
  Leads.visit hm (.here ⟨m', hst, hctx, hfreq, rfl⟩)

/-- `HP_TOK` and `HP_END` close a token, and go on with `k` if it is not at fault. -/
theorem parses_closeToken {k : Micro → Micro} {t : List Byte} {ts : List (List Byte)}
    (hstep : microStep m = closeTokenThen k m) (hw : 8 ≤ m.st.par.wFreq)
    (h : m.work.HoldsToken m.st.par.wFreq t)
    (hk : ∀ p, microStep m = k (m.setParse p) → Parses m (parseTokens m.st.par.wFreq ts p)) :
    Parses m (parseTokens m.st.par.wFreq (t :: ts) m.parse) := by
  rw [closeTokenThen_eq hw h] at hstep
  rw [parseTokens]
  cases ht : parseToken m.st.par.wFreq m.parse t with
  | error e =>
    rw [ht] at hstep
    exact .last (m' := m) hstep rfl rfl fun _ h => nomatch h
  | ok p =>
    rw [ht] at hstep
    exact hk p hstep

/-- At the end of the header the number of tokens must be even (R180). -/
theorem parses_hpFinish (w : Nat) (hstep : microStep m = hpFinish m')
    (hst : m'.st = m.st.setFreq m'.st.freq) (hctx : m'.context = m.context) :
    Parses m (parseTokens w [] m'.parse) := by
  rw [hpFinish] at hstep
  rw [parseTokens, Micro.parse]
  cases hodd : m'.work.tokOdd with
  | false =>
    rw [hodd] at hstep
    exact .last hstep hst hctx fun tn htn => by cases htn; rfl
  | true =>
    rw [hodd] at hstep
    exact .last hstep hst hctx fun _ h => nomatch h

/-- `HP_END` with the token `t` in hand, which may be empty. -/
theorem parses_hpEnd {t : List Byte} (hseq : m.seq = .hpEnd) (hw : 8 ≤ m.st.par.wFreq)
    (h : m.work.HoldsToken m.st.par.wFreq t) :
    Parses m (parseTokens m.st.par.wFreq (closeToken t) m.parse) := by
  have hstep : microStep m = hpEndStep m := by rw [microStep, hseq]
  rw [hpEndStep] at hstep
  rw [closeToken]
  split
  · next hnil =>
    rw [if_neg fun ho => h.tokenOpen.mp ho hnil] at hstep
    exact parses_hpFinish _ hstep rfl rfl
  · next hne =>
    rw [if_pos (h.tokenOpen.mpr hne)] at hstep
    refine parses_closeToken hstep hw h fun p hnext => ?_
    have hend := parses_hpFinish m.st.par.wFreq hnext rfl rfl
    rwa [Micro.parse_setParse] at hend

/-- `ipos` behind the byte that is looked at. -/
def Micro.pastByte (m : Micro) : Micro := m.regs fun w => { w with ipos := w.ipos + 1 }

/-- `HP_BYTE` and `HP_TOK` on the header bytes from `ipos` on, with the token `t` in hand. -/
theorem parses_hpByte {bytes rest t : List Byte} (hseq : m.seq = .hpByte) (hw : 8 ≤ m.st.par.wFreq)
    (hbytes : m.st.ibuf.drop m.work.ipos = bytes ++ rest) (hhi : m.work.ipos + bytes.length = m.hi)
    (h : m.work.HoldsToken m.st.par.wFreq t) :
    Parses m (parseTokens m.st.par.wFreq (tokensFrom t bytes) m.parse) := by
  induction bytes generalizing m t with
  | nil =>
    have hstep : microStep m = hpByteStep m := by rw [microStep, hseq]
    have hend : ¬ m.work.ipos < m.hi := Nat.not_lt.mpr hhi.ge
    rw [hpByteStep, if_neg hend] at hstep
    exact .visit hstep rfl rfl (parses_hpEnd (m := m.goto .hpEnd) rfl hw h)
  | cons c bytes ih =>
    have hstep : microStep m = hpByteStep m := by rw [microStep, hseq]
    rw [List.length_cons] at hhi
    have hlt : m.work.ipos < m.hi := by omega
    have hhi' : m.work.ipos + 1 + bytes.length = m.hi := by omega
    obtain ⟨-, hc, hrest⟩ := getD_of_drop_eq_cons hbytes 0#8
    have hpast : m.pastByte.work.HoldsToken m.st.par.wFreq t :=
      ⟨h.tokenOpen, h.bad, h.saturated, h.value⟩
    rw [hpByteStep, if_pos hlt, hc] at hstep
    rw [tokensFrom]
    split
    · next hs =>
      simp only [if_pos hs] at hstep
      by_cases ht : t = []
      · subst ht
        rw [if_neg fun ho => h.tokenOpen.mp ho rfl] at hstep
        exact .visit hstep rfl rfl (ih (m := m.pastByte) hseq hw hrest hhi' hpast)
      · rw [if_pos (h.tokenOpen.mpr ht)] at hstep
        rw [closeToken, if_neg ht]
        refine .visit hstep rfl rfl
          (parses_closeToken (m := m.pastByte.goto .hpTok) rfl hw hpast fun p hnext => ?_)
        have hclear := holdsToken_clear m.st.par.wFreq m.work
        have htail := ih (m := ((m.pastByte.goto .hpTok).setParse p).goto .hpByte) rfl hw hrest hhi'
          ⟨hclear.tokenOpen, hclear.bad, hclear.saturated, hclear.value⟩
        have hparse : (((m.pastByte.goto .hpTok).setParse p).goto .hpByte).parse = p :=
          Micro.parse_setParse p _
        rw [hparse] at htail
        exact .visit hnext rfl rfl htail
    · next hs =>
      simp only [if_neg hs] at hstep
      have htoken := hpast.tokenByte c
      obtain ⟨v, sat, digits, bad, hbyte⟩ :=
        exists_tokenByte_eq m.st.par.wFreq c m.pastByte.work
      have hnext : microStep m = m.pastByte.regs fun k =>
          { k with tokVal := v, tokSat := sat, tokDigits := digits, tokBad := bad } :=
        hstep.trans (congrArg (fun k => { m.pastByte with work := k }) hbyte)
      rw [hbyte] at htoken
      exact .visit hnext rfl rfl (ih (m := Micro.regs _ _) hseq hw hrest hhi' htoken)

/-- `HP_INIT` clears the `n` entries of `FREQ` from `sym` on (R185). -/
theorem hpInit_leads {n : Nat} (hseq : m.seq = .hpInit) (hn : m.work.sym + n = nSym)
    (hdone : m.st.freq.FilledTo 0 m.work.sym) :
    Leads m (· = (({ m with st := m.st.setFreq (Table.fill 0), count := 0 }).regs
      fun w => { w.clearToken with ipos := 0, tokOdd := false, sym := nSym }).goto .hpByte) := by
  induction n generalizing m with
  | zero =>
    have heq : m.work.sym = nSym := hn
    have hstep : microStep m = hpInitStep m := by rw [microStep, hseq]
    rw [hpInitStep, if_pos heq] at hstep
    rw [heq] at hdone
    refine .visit hstep (.here ?_)
    rw [← hdone.eq_fill, ← heq]
    rfl
  | succ n ih =>
    have hne : m.work.sym ≠ nSym := by omega
    have hstep : microStep m = hpInitStep m := by rw [microStep, hseq]
    rw [hpInitStep, if_neg hne] at hstep
    exact .visit hstep
      (ih (m := Micro.regs _ _) hseq ((Nat.succ_add_eq_add_succ ..).trans hn) hdone.set)

/-- `ParseHeader` by the sequencer, on the input up to `hi` (R185). -/
theorem parses_hpInit {bytes rest : List Byte} (hseq : m.seq = .hpInit) (hsym : m.work.sym = 0)
    (hw : 8 ≤ m.st.par.wFreq) (hbytes : m.st.ibuf = bytes ++ rest) (hhi : bytes.length = m.hi) :
    Parses m (parseHeader m.st.par.wFreq bytes) := by
  have hclear := hpInit_leads (n := nSym) hseq (by rw [hsym, Nat.zero_add])
    (hsym.symm ▸ Table.filledTo_zero 0 m.st.freq)
  have hempty := holdsToken_clear m.st.par.wFreq m.work
  refine .after hclear rfl rfl ?_
  exact parses_hpByte (m := Micro.goto .hpByte _) rfl hw hbytes ((Nat.zero_add _).trans hhi)
    ⟨hempty.tokenOpen, hempty.bad, hempty.saturated, hempty.value⟩

end

end Sys2Proof.Machine
end

section
/-! SUPPORT. The table of DECODE (44_decoder.md R167): the split, the header parser, the tree
builder, and the bit unpackers, one symbol or one bit a visit, around the tree walker. -/

namespace Sys2Proof.Machine

theorem sequencerAgrees_decode_iff (s : State) :
    SequencerAgrees .decode s ↔ Ends s (Micro.begin .decode s) (decodeRun s) := by
  rw [sequencerAgrees_iff, exec_decode, Ends]

section

variable {s : State} {m : Micro}

/-- `DE_DONE` answers with the output's length. -/
theorem ends_deDone (m : Micro) : Ends s (m.goto .deDone) (.ok m.st) :=
  .visit rfl (.here ⟨rfl, rfl⟩)

/-- `DE_FAIL` wipes the working state, which is all that DECODE has changed (60_exceptions.md
R203). -/
theorem ends_deFail (k : Kind) (hwipe : m.st.wipeWork = s.wipeWork) :
    Ends s (m.failTo .deFail k) (.error k) := by
  refine .visit rfl (.here ⟨rfl, ?_⟩)
  rw [compositeAnswer, raise, failEffect, ← hwipe]
  rfl

/-- `HP_FAIL` of DECODE goes on to `DE_FAIL`. -/
theorem ends_hpFail (k : Kind) (hcmd : m.cmd = .decode) (hwipe : m.st.wipeWork = s.wipeWork) :
    Ends s (m.failTo .hpFail k) (.error k) := by
  have hstep : microStep (m.failTo .hpFail k) = hpFailStep (m.failTo .hpFail k) := rfl
  have hcmd' : (m.failTo .hpFail k).cmd = .decode := hcmd
  rw [hpFailStep, hcmd'] at hstep
  exact .visit hstep (ends_deFail k hwipe)

/-! ### The tree walker -/

/-- The registers of the tree walker and the output (10_state.md R25). -/
def Micro.walk (m : Micro) : Walk := ⟨m.work.cur, m.work.emitted, m.st.obuf⟩

/-- What the tree walker leaves. -/
def Micro.setWalk (w : Walk) (m : Micro) : Micro :=
  (m.arch (State.setObuf w.out)).regs fun k => { k with cur := w.cur, emitted := w.emitted }

/-- One tree edge by the sequencer. -/
def Micro.walkBit (m : Micro) (bit : Bool) (w : Walk) : Except Kind Walk :=
  Machine.walkBit m.st.nodes m.st.rootPtr m.st.par.obufCap bit w

/-- `DE_STEP` is one tree edge (R167). -/
theorem ends_deStep {g : Walk → Except Kind State} (hseq : m.seq = .deStep)
    (hwipe : m.st.wipeWork = s.wipeWork)
    (hk : ∀ w, m.walkBit m.bit m.walk = .ok w → Ends s (deStepNext (m.setWalk w)) (g w)) :
    Ends s m ((m.walkBit m.bit m.walk).bind g) := by
  have hstep : microStep m = deStepStep m := by rw [microStep, hseq]
  have hedge : deStepStep m = match m.walkBit m.bit m.walk with
      | .ok w => deStepNext (m.setWalk w)
      | .error k => m.failTo .deFail k := by
    simp only [deStepStep, Micro.walkBit, walkBit_eq_arrive, Micro.walk]
    generalize (if m.bit = true then (nodeAt m.st.nodes m.work.cur).right
      else (nodeAt m.st.nodes m.work.cur).left) = next
    cases hleaf : (nodeAt m.st.nodes next).isLeaf with
    | false => rw [arrive_internal hleaf]; rfl
    | true =>
      rw [arrive_leaf hleaf, if_pos rfl, Micro.putThen]
      cases put m.st.par.obufCap (nodeAt m.st.nodes next).value m.st.obuf <;> rfl
  rw [hedge] at hstep
  cases hw : m.walkBit m.bit m.walk with
  | error k =>
    rw [hw] at hstep
    exact .visit hstep (ends_deFail k hwipe)
  | ok w =>
    rw [hw] at hstep
    exact .visit hstep (hk w hw)

/-- A bit handed to `DE_STEP` (R167). -/
def Micro.toWalker (bit : Bool) (m : Micro) : Micro := { m with bit := bit, seq := .deStep }

theorem deStepNext_of_ascii (h : m.pack = false) : deStepNext m = m.goto .deSym :=
  if_neg (Bool.eq_false_iff.mp h)

theorem deStepNext_of_packed (h : m.pack = true) : deStepNext m = m.goto .deByte := if_pos h

/-! ### The ASCII body -/

/-- The two symbols and their bits (R163). -/
theorem asciiBit_eq (c : Byte) :
    asciiBit c = if c = charZero ∨ c = charOne then .ok (c.getLsbD 0)
      else .error .malformedBody := by
  unfold asciiBit
  split
  · next h0 => subst h0; rfl
  · next h0 =>
    split
    · next h1 => subst h1; rfl
    · next h1 => rw [if_neg (not_or.mpr ⟨h0, h1⟩)]

/-- An ASCII walk does not look at the number of symbols written. -/
theorem walkAscii_emitted {nodes : List Node} {root cap : Nat} (body : List Byte)
    (cur e e' : Nat) (out : List Byte) :
    walkAscii nodes root cap body ⟨cur, e, out⟩ = walkAscii nodes root cap body ⟨cur, e', out⟩ := by
  induction body generalizing cur e e' out with
  | nil => rfl
  | cons c rest ih =>
    rw [walkAscii_cons, walkAscii_cons]
    cases asciiBit c with
    | error k => rfl
    | ok bit =>
      simp only [Except.bind, walkBit_eq_arrive]
      generalize (if bit = true then (nodeAt nodes cur).right else (nodeAt nodes cur).left) = next
      cases hleaf : (nodeAt nodes next).isLeaf with
      | false =>
        rw [arrive_internal hleaf, arrive_internal hleaf]
        exact ih ..
      | true =>
        rw [arrive_leaf hleaf, arrive_leaf hleaf]
        cases put cap (nodeAt nodes next).value out with
        | error k => rfl
        | ok o => exact ih ..

/-- `DE_SYM` and `DE_STEP` on the body from `ipos` on (R163). -/
theorem ends_deSym {bytes : List Byte} (hseq : m.seq = .deSym) (hpack : m.pack = false)
    (hwipe : m.st.wipeWork = s.wipeWork) (hbytes : m.st.ibuf.drop m.work.ipos = bytes) :
    Ends s m ((walkAscii m.st.nodes m.st.rootPtr m.st.par.obufCap bytes m.walk).map
      fun out => m.st.setObuf out) := by
  induction bytes generalizing m with
  | nil =>
    have hstep : microStep m = deSymStep m := by rw [microStep, hseq]
    have hend : ¬ m.work.ipos < m.st.ibuf.length :=
      Nat.not_lt.mpr (List.drop_eq_nil_iff.mp hbytes)
    rw [deSymStep, if_neg hend] at hstep
    by_cases hroot : m.work.cur = m.st.rootPtr
    · rw [if_pos hroot] at hstep
      rw [walkAscii, if_pos (show m.walk.cur = m.st.rootPtr from hroot)]
      exact .visit hstep (ends_deDone m)
    · rw [if_neg hroot] at hstep
      rw [walkAscii, if_neg (show ¬ m.walk.cur = m.st.rootPtr from hroot)]
      exact .visit hstep (ends_deFail _ hwipe)
  | cons c rest ih =>
    have hstep : microStep m = deSymStep m := by rw [microStep, hseq]
    obtain ⟨hlt, hc, hrest⟩ := getD_of_drop_eq_cons hbytes 0#8
    rw [deSymStep, if_pos hlt, hc] at hstep
    by_cases hbit : c = charZero ∨ c = charOne
    · simp only [if_pos hbit] at hstep
      have hwalk : ∀ w, (walkAscii m.st.nodes m.st.rootPtr m.st.par.obufCap (c :: rest) w).map
            (fun out => m.st.setObuf out)
          = (m.walkBit (c.getLsbD 0) w).bind fun w' =>
              (walkAscii m.st.nodes m.st.rootPtr m.st.par.obufCap rest w').map
                fun out => m.st.setObuf out := fun w => by
        rw [walkAscii_cons, asciiBit_eq, if_pos hbit]
        change ((m.walkBit (c.getLsbD 0) w).bind _).map _ = _
        cases m.walkBit (c.getLsbD 0) w <;> rfl
      rw [hwalk]
      refine .visit hstep (ends_deStep (m := m.pastByte.toWalker (c.getLsbD 0)) rfl hwipe
        fun w _ => ?_)
      rw [deStepNext_of_ascii]
      · exact ih (m := Micro.goto .deSym _) rfl hpack hwipe hrest
      · exact hpack
    · simp only [if_neg hbit] at hstep
      rw [walkAscii_cons, asciiBit_eq, if_neg hbit]
      exact .visit hstep (ends_deFail (m := m.pastByte) _ hwipe)

/-! ### The PACKED8 body -/

/-- The bits of `up_byte` not yet taken. -/
def Work.heldBits (k : Work) : List Bool :=
  (List.range k.upCnt).map fun i => k.upByte.getLsbD (7 - i)

/-- The bits of the body not yet taken: those of `up_byte`, then those of the bytes from `ipos`
on. -/
def Micro.unread (m : Micro) : List Bool :=
  m.work.heldBits ++ (m.st.ibuf.drop m.work.ipos).flatMap msbFirst

/-- The next body byte in `up_byte`. -/
def Micro.loadByte (m : Micro) : Micro :=
  m.regs fun w => { w with upByte := m.st.ibuf.getD w.ipos 0#8, ipos := w.ipos + 1, upCnt := 8 }

theorem unread_loadByte (hcnt : m.work.upCnt = 0) (hlt : m.work.ipos < m.st.ibuf.length) :
    m.loadByte.unread = m.unread := by
  have hheld : m.work.heldBits = [] := by rw [Work.heldBits, hcnt]; rfl
  have hbyte : m.loadByte.work.heldBits = msbFirst (m.st.ibuf.getD m.work.ipos 0#8) := rfl
  rw [Micro.unread, Micro.unread, hheld, hbyte, List.drop_eq_getElem_cons hlt, List.flatMap_cons,
    List.getD_eq_getElem _ _ hlt]
  rfl

/-- The bit taken is the first one unread (R167). -/
theorem unread_deTakeBit (hpos : m.work.upCnt ≠ 0) (hcnt : m.work.upCnt ≤ 8) :
    m.unread = (deTakeBit m).bit :: (deTakeBit m).unread := by
  obtain ⟨n, hn⟩ := Nat.exists_eq_add_one_of_ne_zero hpos
  have hheld : m.work.heldBits = (deTakeBit m).bit :: (deTakeBit m).work.heldBits := by
    have hcnt' : (deTakeBit m).work.upCnt = n := by
      change m.work.upCnt - 1 = n
      omega
    rw [Work.heldBits, Work.heldBits, hn, hcnt', List.range_succ_eq_map, List.map_cons,
      List.map_map]
    refine congrArg (_ :: ·) (List.map_congr_left fun i hi => ?_)
    have hi := List.mem_range.mp hi
    change m.work.upByte.getLsbD (7 - (i + 1)) = (m.work.upByte <<< 1).getLsbD (7 - i)
    have hshift : 7 - i - 1 = 7 - (i + 1) := by omega
    have h8 : 7 - i < 8 := by omega
    have h1 : ¬ 7 - i < 1 := by omega
    rw [BitVec.getLsbD_shiftLeft, hshift, decide_eq_true h8, decide_eq_false h1]
    rfl
  rw [Micro.unread, hheld]
  rfl

/-- The PACKED8 unpacker of DECODE on state `s` between two bits, `bits` being unread. -/
structure Unpacking (s : State) (m : Micro) (bits : List Bool) : Prop where
  pack : m.pack = true
  wipe : m.st.wipeWork = s.wipeWork
  unread : m.unread = bits
  upCnt_le : m.work.upCnt ≤ 8
  emitted_le : m.work.emitted ≤ m.work.total

/-- What the rest of a PACKED8 walk gives (R165). -/
def Micro.packedRun (m : Micro) (bits : List Bool) : Except Kind State :=
  ((walkBits m.st.nodes m.st.rootPtr m.st.par.obufCap m.work.total bits m.walk).bind
    (packedEnd m.work.total)).map fun out => m.st.setObuf out

/-- The bit taken goes to `DE_STEP`, which comes back for the next one. -/
theorem ends_deTakeBit {bit : Bool} {bits : List Bool} (h : Unpacking s m (bit :: bits))
    (hpos : m.work.upCnt ≠ 0) (hmore : m.work.emitted < m.work.total)
    (hnext : ∀ m' : Micro, m'.seq = .deByte → Unpacking s m' bits → Ends s m' (m'.packedRun bits)) :
    Ends s (deTakeBit m) (m.packedRun (bit :: bits)) := by
  have hunread := unread_deTakeBit hpos h.upCnt_le
  rw [h.unread] at hunread
  obtain ⟨rfl, rfl⟩ := List.cons.inj hunread
  have hrun : m.packedRun ((deTakeBit m).bit :: (deTakeBit m).unread)
      = ((deTakeBit m).walkBit (deTakeBit m).bit (deTakeBit m).walk).bind fun w =>
          (m.setWalk w).packedRun (deTakeBit m).unread := by
    rw [Micro.packedRun, walkBits_cons hmore]
    change (((m.walkBit (deTakeBit m).bit m.walk).bind _).bind _).map _
      = (m.walkBit (deTakeBit m).bit m.walk).bind _
    cases m.walkBit (deTakeBit m).bit m.walk <;> rfl
  rw [hrun]
  refine ends_deStep rfl h.wipe fun w hw => ?_
  rw [deStepNext_of_packed]
  · have hle : w.emitted ≤ m.work.emitted + 1 := walkBit_emitted_le hw
    refine hnext (Micro.goto .deByte _) rfl ⟨h.pack, h.wipe, rfl, ?_, ?_⟩
    · exact (Nat.sub_le ..).trans h.upCnt_le
    · exact hle.trans hmore
  · exact h.pack

/-- When every symbol wanted is written, the rest of the body is left (R165). -/
theorem ends_deByte_done {bits : List Bool} (hseq : m.seq = .deByte)
    (hdone : m.work.emitted = m.work.total) : Ends s m (m.packedRun bits) := by
  have hstep : microStep m = deByteStep m := by rw [microStep, hseq]
  rw [deByteStep, if_pos hdone] at hstep
  rw [Micro.packedRun, walkBits_done (show m.work.total ≤ m.walk.emitted from hdone.ge)]
  change Ends s m ((packedEnd m.work.total m.walk).map _)
  rw [packedEnd, if_neg (show ¬ m.walk.emitted < m.work.total from Nat.not_lt.mpr hdone.ge)]
  exact .visit hstep (ends_deDone m)

/-- `DE_BYTE` and `DE_STEP` on the unread bits of the body (R165). -/
theorem ends_deByte {bits : List Bool} (hseq : m.seq = .deByte) (h : Unpacking s m bits) :
    Ends s m (m.packedRun bits) := by
  induction bits generalizing m with
  | nil =>
    rcases Nat.eq_or_lt_of_le h.emitted_le with hdone | hmore
    · exact ends_deByte_done hseq hdone
    · have hstep : microStep m = deByteStep m := by rw [microStep, hseq]
      obtain ⟨hheld, hbody⟩ := List.append_eq_nil_iff.mp h.unread
      have hcnt : m.work.upCnt = 0 := by simpa [Work.heldBits] using hheld
      have hend : ¬ m.work.ipos < m.st.ibuf.length := fun hlt => by
        rw [List.drop_eq_getElem_cons hlt, List.flatMap_cons] at hbody
        exact absurd (List.append_eq_nil_iff.mp hbody).1 (List.cons_ne_nil _ _)
      rw [deByteStep, if_neg hmore.ne, if_pos hcnt, if_neg hend] at hstep
      rw [Micro.packedRun, walkBits]
      change Ends s m ((packedEnd m.work.total m.walk).map _)
      rw [packedEnd, if_pos (show m.walk.emitted < m.work.total from hmore)]
      exact .visit hstep (ends_deFail _ h.wipe)
  | cons bit bits ih =>
    rcases Nat.eq_or_lt_of_le h.emitted_le with hdone | hmore
    · exact ends_deByte_done hseq hdone
    · have hstep : microStep m = deByteStep m := by rw [microStep, hseq]
      rw [deByteStep, if_neg hmore.ne] at hstep
      by_cases hcnt : m.work.upCnt = 0
      · have hlt : m.work.ipos < m.st.ibuf.length := by
          by_contra hge
          have hnil : m.unread = [] := by
            rw [Micro.unread, List.drop_eq_nil_of_le (Nat.not_lt.mp hge), Work.heldBits, hcnt]
            rfl
          exact List.cons_ne_nil _ _ (h.unread.symm.trans hnil)
        rw [if_pos hcnt, if_pos hlt] at hstep
        exact .visit hstep (ends_deTakeBit (m := m.loadByte)
          ⟨h.pack, h.wipe, (unread_loadByte hcnt hlt).trans h.unread, Nat.le_refl 8, h.emitted_le⟩
          (Nat.succ_ne_zero 7) hmore fun m' => ih)
      · rw [if_neg hcnt] at hstep
        exact .visit hstep (ends_deTakeBit h hcnt hmore fun m' => ih)

/-! ### The cases of R162 -/

/-- `DE_REP` puts the root's byte out `n` times. -/
theorem ends_deRep {n : Nat} (hseq : m.seq = .deRep) (hn : m.work.repCnt = n)
    (hwipe : m.st.wipeWork = s.wipeWork) :
    Ends s m ((putRepeat m.st.par.obufCap (nodeAt m.st.nodes m.st.rootPtr).value n m.st.obuf).map
      fun out => m.st.setObuf out) := by
  induction n generalizing m with
  | zero =>
    have hstep : microStep m = deRepStep m := by rw [microStep, hseq]
    rw [deRepStep, if_pos hn] at hstep
    exact .visit hstep (ends_deDone m)
  | succ n ih =>
    have hstep : microStep m = deRepStep m := by rw [microStep, hseq]
    have hne : m.work.repCnt ≠ 0 := by omega
    have hleft : m.work.repCnt - 1 = n := by omega
    rw [deRepStep, if_neg hne, Micro.putThen] at hstep
    rw [putRepeat]
    cases hput : put m.st.par.obufCap (nodeAt m.st.nodes m.st.rootPtr).value m.st.obuf with
    | error k =>
      rw [hput] at hstep
      exact .visit hstep (ends_deFail k hwipe)
    | ok out =>
      rw [hput] at hstep
      exact .visit hstep (ih (m := Micro.regs _ _) hseq hleft hwipe)

/-- `DE_CASE`: the three cases of R162. -/
theorem ends_deCase (hseq : m.seq = .deCase) (hwipe : m.st.wipeWork = s.wipeWork)
    (hout : m.st.obuf = []) :
    Ends s m ((decodeOutput m.st.par.obufCap m.pack m.st.nodes m.st.root
      (m.st.ibuf.drop m.work.bodyStart)).map fun out => m.st.setObuf out) := by
  have hstep : microStep m = deCaseStep m := by rw [microStep, hseq]
  rw [deCaseStep] at hstep
  cases hroot : m.st.root with
  | none =>
    rw [hroot] at hstep
    have hst : m.st.setObuf [] = m.st := by rw [← hout]; rfl
    change Ends s m (.ok (m.st.setObuf []))
    rw [hst]
    exact .visit hstep (ends_deDone m)
  | some r =>
    have hptr : m.st.rootPtr = r := by rw [State.rootPtr, hroot]; rfl
    subst hptr
    rw [hroot] at hstep
    simp only at hstep
    by_cases hleaf : (nodeAt m.st.nodes m.st.rootPtr).isLeaf = true
    · rw [if_pos hleaf] at hstep
      rw [decodeOutput_leaf hleaf, ← hout]
      exact .visit hstep (ends_deRep (m := Micro.goto .deRep _) rfl rfl hwipe)
    · rw [if_neg hleaf] at hstep
      rw [decodeOutput_internal hleaf, ← hout]
      split
      · next hpack =>
        rw [if_pos hpack] at hstep
        rw [walkPacked_eq]
        exact .visit hstep (ends_deByte (m := Micro.goto .deByte _) rfl
          ⟨hpack, hwipe, rfl, Nat.zero_le _, Nat.zero_le _⟩)
      · next hpack =>
        rw [if_neg hpack] at hstep
        rw [walkAscii_emitted _ _ 0 m.work.emitted]
        exact .visit hstep (ends_deSym (m := Micro.goto .deSym _) rfl
          (Bool.eq_false_iff.mpr hpack) hwipe rfl)

/-! ### The whole table -/

/-- `DE_SPLIT` has found the header line, which ends before index `k` (R160). -/
def Micro.splitAt (k : Nat) (m : Micro) : Micro :=
  (m.regs fun w =>
    { w with ipos := k, hdrEnd := k, bodyStart := min (k + 1) m.st.ibuf.length, sym := 0 }).goto
      .hpInit

/-- `DE_SPLIT` on the input from `ipos` on. -/
theorem deSplit_leads {bytes : List Byte} (hseq : m.seq = .deSplit)
    (hle : m.work.ipos ≤ m.st.ibuf.length) (hbytes : m.st.ibuf.drop m.work.ipos = bytes) :
    Leads m (· = m.splitAt (m.work.ipos + (headerLine bytes).length)) := by
  induction bytes generalizing m with
  | nil =>
    have hstep : microStep m = deSplitStep m := by rw [microStep, hseq]
    have hend : m.st.ibuf.length = m.work.ipos :=
      Nat.le_antisymm (List.drop_eq_nil_iff.mp hbytes) hle
    rw [deSplitStep, if_neg hend.not_gt, hend] at hstep
    refine .visit hstep (.here ?_)
    simp [Micro.splitAt, hend, headerLine, Micro.regs]
  | cons c rest ih =>
    have hstep : microStep m = deSplitStep m := by rw [microStep, hseq]
    obtain ⟨hlt, hc, hrest⟩ := getD_of_drop_eq_cons hbytes 0#8
    rw [deSplitStep, if_pos hlt, hc] at hstep
    by_cases hnl : c = charNewline
    · have hline : headerLine (c :: rest) = [] := by simp [headerLine, notNewline, hnl]
      have hbody : min (m.work.ipos + 1) m.st.ibuf.length = m.work.ipos + 1 := Nat.min_eq_left hlt
      rw [if_pos hnl] at hstep
      rw [hline, List.length_nil, Nat.add_zero, Micro.splitAt, hbody]
      exact .visit hstep (.here rfl)
    · have hline : headerLine (c :: rest) = c :: headerLine rest := by
        rw [headerLine, List.takeWhile_cons_of_pos (by simpa [notNewline] using hnl)]
        rfl
      rw [if_neg hnl] at hstep
      rw [hline, List.length_cons, Nat.add_comm _ 1, ← Nat.add_assoc]
      exact .visit hstep (ih (m := m.pastByte) hseq hlt hrest)

/-- What follows the header parser in DECODE: the tree builder, or the failure. -/
theorem Parses.ends {r : Except Kind (Table Nat × Nat)} {g : Table Nat × Nat → Except Kind State}
    (h : Parses m r) (hcmd : m.cmd = .decode) (hwipe : m.st.wipeWork = s.wipeWork)
    (hok : ∀ (m₀ : Micro) tn, m₀.st = m.st.setFreq tn.1 → m₀.context = m.context →
      Ends s (m₀.goto .tbInit) (g tn)) : Ends s m (r.bind g) := by
  refine Leads.trans h ?_
  rintro _ ⟨m₀, hst, hctx, hfreq, rfl⟩
  have hcmd₀ : m₀.cmd = .decode := (m.cmd_eq_of_context hctx).trans hcmd
  have hwipe₀ : m₀.st.wipeWork = s.wipeWork := by rw [hst]; exact hwipe
  cases r with
  | error k => exact ends_hpFail k hcmd₀ hwipe₀
  | ok tn =>
    rw [hfreq tn rfl] at hst
    rw [parseEnd, hcmd₀]
    exact hok m₀ tn hst hctx

end

/-- DECODE after its header parser: the tree of the table `tn.1`, then the body (R162). -/
def State.decodeBody (s : State) (tn : Table Nat × Nat) : Except Kind State :=
  (decodeOutput s.par.obufCap s.pack (builtNodes tn.1) (builtRoot tn.1) (bodyPart s.ibuf)).map
    fun out => (s.setFreq tn.1).buildTree.setObuf out

theorem decodeRun_eq_bind (s : State) :
    decodeRun s = (parseHeader s.par.wFreq (headerLine s.ibuf)).bind s.decodeBody := by
  rw [decodeRun_eq, decodeResult]
  cases parseHeader s.par.wFreq (headerLine s.ibuf) with
  | error k => rfl
  | ok tn =>
    simp only [Except.bind, State.decodeBody]
    cases decodeOutput s.par.obufCap s.pack (builtNodes tn.1) (builtRoot tn.1) (bodyPart s.ibuf) <;>
      rfl

/-- The context of DECODE on state `s` after `DE_SPLIT`: the command, `CONFIG.PACK`, and where the
header ends and the body starts (R167). -/
def decodeContext (s : State) : Instr × Bool × Nat × Nat × Byte × Nat :=
  (.decode, s.pack, (headerLine s.ibuf).length,
    min ((headerLine s.ibuf).length + 1) s.ibuf.length, 0#8, 0)

/-- What follows the tree builder in DECODE (R162). -/
theorem ends_buildEnd {s : State} {m : Micro} {tn : Table Nat × Nat}
    (hst : m.st = ((s.setObuf []).setFreq tn.1).buildTree) (hctx : m.context = decodeContext s) :
    Ends s (buildEnd m) (s.decodeBody tn) := by
  simp only [Micro.context, decodeContext, Prod.mk.injEq] at hctx
  obtain ⟨hcmd, hpack, -, hstart, -⟩ := hctx
  have hwipe : m.st.wipeWork = s.wipeWork := by rw [hst]; rfl
  have hout : m.st.obuf = [] := by rw [hst]; rfl
  have hinput : m.st.ibuf = s.ibuf := by rw [hst]; rfl
  have hbody : m.st.ibuf.drop m.work.bodyStart = bodyPart s.ibuf := by
    rw [hinput, hstart, bodyPart_eq_drop, List.drop_eq_drop_iff]
    omega
  have hcase : Ends s (m.goto .deCase) ((decodeOutput m.st.par.obufCap m.pack m.st.nodes m.st.root
      (m.st.ibuf.drop m.work.bodyStart)).map fun out => m.st.setObuf out) :=
    ends_deCase (m := m.goto .deCase) rfl hwipe hout
  rw [hbody, hpack, hst] at hcase
  rw [buildEnd, hcmd]
  exact hcase

/-- Settles O60: unit after unit of the table, from `DE_INIT` to `DE_DONE` or `DE_FAIL`. -/
theorem decodeSequencerAgrees : Obligations.DecodeSequencerAgrees := by
  intro s hw
  rw [sequencerAgrees_decode_iff, decodeRun_eq_bind]
  have hsplit := deSplit_leads (m := deInitStep (Micro.begin .decode s)) rfl (Nat.zero_le _) rfl
  rw [show (deInitStep (Micro.begin .decode s)).work.ipos = 0 from rfl, Nat.zero_add] at hsplit
  refine .visit rfl (Leads.trans hsplit ?_)
  rintro _ rfl
  refine (parses_hpInit rfl rfl hw (headerLine_append_drop s.ibuf) rfl).ends rfl rfl
    fun m₁ tn hst₁ hctx₁ => ?_
  refine (buildTree_reaches (m := m₁.goto .tbInit) rfl).ends fun m₂ hst₂ hctx₂ => ?_
  exact ends_buildEnd (hst₂.trans (congrArg State.buildTree hst₁)) (hctx₂.trans hctx₁)

end Sys2Proof.Machine
end

section
/-! SUPPORT. The header writer (45_header_codec.md R175 to R177, R184): the header as a join of its
pairs, its length digit by digit, and HD.CREATE where the header does not fit; and the tokens of a
string, case by case (R178). -/

namespace Sys2Proof.Machine

/-- Settles O46: the tokens of a header are the numbers of its pairs, each of which writes its
entry. -/
theorem headerRoundTrip : Obligations.HeaderRoundTrip :=
  fun _ _ h => parseHeader_createHeader h

/-! ### HD.CREATE -/

theorem exec_hdCreate_full {s : State} (h : s.par.obufCap < (createHeader s.freq).length) :
    exec .hdCreate s = .next ((s.setObuf []).err 5#8) := by
  rw [exec, execHdCreate, if_pos h, raise_headerWriter, Kind.code]

/-- Settles O43: the header fits the output buffer or it does not. -/
theorem headerCreate : Obligations.HeaderCreate :=
  fun _ _ _ => ⟨rfl, exec_hdCreate_full, exec_hdCreate_fits⟩

/-! ### Tokens -/

theorem isSpace_iff (c : Byte) :
    isSpace c = true ↔ c ∈ [0x09#8, 0x0A#8, 0x0B#8, 0x0C#8, 0x0D#8, 0x20#8] := by
  simp [isSpace, or_assoc]

/-- Whitespace in front of a string is not part of a token. -/
theorem tokens_cons_space {c : Byte} (hc : isSpace c = true) (rest : List Byte) :
    tokens (c :: rest) = tokens rest := by
  rw [tokens, tokensFrom, if_pos hc, closeToken, if_pos rfl, List.nil_append, tokens]

/-- A token ends at the end of the string, if not before. -/
theorem tokens_of_no_space {t : List Byte} (hne : t ≠ []) (ht : ∀ c ∈ t, isSpace c = false) :
    tokens t = [t] := by
  have h := tokensFrom_append ht [] []
  rwa [List.append_nil, List.nil_append, tokensFrom, closeToken, if_neg hne] at h

/-- Settles O44: each equation by what closes the token in hand. -/
theorem tokensAreMaximalRuns : Obligations.TokensAreMaximalRuns :=
  ⟨isSpace_iff, rfl, fun _ rest hc => tokens_cons_space hc rest,
    fun _ hne ht => tokens_of_no_space hne ht,
    fun _ _ rest hne ht hc => tokens_append_space hne ht hc rest⟩

/-! ### The header as text -/

/-- A join with `sep`, and `sep` once more, is a `sep` after each part. -/
theorem intercalate_append_sep {α : Type} {sep l : List α} {ls : List (List α)} :
    sep.intercalate (l :: ls) ++ sep = (l :: ls).flatMap (· ++ sep) := by
  induction ls generalizing l with
  | nil => simp
  | cons l' ls ih => rw [List.intercalate_cons_cons, List.append_assoc, ih]; rfl

/-- The header is its pairs, with a space between one and the next (R176). -/
theorem createHeader_eq_intercalate (freq : Table Nat) :
    createHeader freq = [charSpace].intercalate
      ((present freq).map fun v => dec v.toNat ++ charSpace :: dec (freq.get v)) := by
  by_cases hnil : present freq = []
  · rw [createHeader_of_nil hnil, hnil]
    rfl
  · refine List.append_cancel_right (bs := [charSpace]) ?_
    have hpairs : (present freq).flatMap (fun v => headerPair (v, freq.get v))
        = ((present freq).map fun v => dec v.toNat ++ charSpace :: dec (freq.get v)).flatMap
            (· ++ [charSpace]) := by
      rw [List.flatMap_map]
      refine List.flatMap_congr fun v hv => ?_
      rw [headerPair_of_ne_zero (mem_present.mp hv), List.append_assoc, List.cons_append]
    rw [createHeader_concat_space hnil, hpairs]
    obtain ⟨v, vs, hvs⟩ := List.exists_cons_of_ne_nil hnil
    rw [hvs, List.map_cons, intercalate_append_sep]

/-- A pair has the digits of its byte, at most ten of its counter, and two spaces (R176). -/
theorem headerPair_length_le_dec (v : Byte) {w : Nat} (hw : w < 2 ^ 32) :
    (headerPair (v, w)).length ≤ (dec v.toNat).length + 12 := by
  have hf : (dec w).length ≤ 10 := dec_length_le (k := 9) (by omega)
  rw [headerPair]
  split
  · exact Nat.zero_le _
  · simp only [List.length_append, List.length_singleton]
    omega

/-- The 256 byte values have 658 digits, and 256 pairs have 12 bytes each beside them. -/
theorem sum_dec_length : (symbols.map fun v => (dec v.toNat).length + 12).sum = 3730 := by
  decide +kernel

/-- A header of all 256 pairs at their longest, without the space at the end (R176). -/
theorem createHeader_length_le_all {freq : Table Nat} (h : ∀ v, freq.get v < 2 ^ 32) :
    (createHeader freq).length ≤ 3729 := by
  have hpairs : (freq.entries.flatMap headerPair).length
      ≤ (symbols.map fun v => (dec v.toNat).length + 12).sum := by
    rw [Table.entries_eq, List.flatMap_map, List.length_flatMap]
    exact List.sum_le_sum fun v _ => headerPair_length_le_dec v (h v)
  rw [sum_dec_length] at hpairs
  rw [createHeader, List.length_dropLast]
  omega

/-- Settles O42: the header as a join, its bytes, and its length by the digits of the byte
values. -/
theorem headerGrammar : Obligations.HeaderGrammar := fun freq =>
  ⟨createHeader_eq_intercalate freq, fun _ => mem_createHeader,
    charNewline_not_mem_createHeader freq, createHeader_length_le_all⟩

end Sys2Proof.Machine
end

section
/-! SUPPORT. HD.PARSE (45_header_codec.md R180 to R183): one token against its own fault, the first
fault of a token list, and the pairs of a list without one. -/

namespace Sys2Proof.Machine

/-! ### One token -/

/-- A token in the byte value's place is at fault as `ParseHeader` finds it with no open pair, and
one in the frequency's place with an open pair (R180). -/
theorem tokenFault_eq_some_iff {w k : Nat} {p : Parse} {t : List Byte} {e : Kind}
    (hkey : p.key = none ↔ k % 2 = 0) :
    tokenFault w k t = some e ↔ parseToken w p t = .error e := by
  unfold tokenFault parseToken
  by_cases hnum : isNumeric t = true
  · cases hp : p.key with
    | none =>
      have hk : k % 2 = 0 := hkey.mp hp
      simp only [hnum, hk, not_true_eq_false, if_false, if_true]
      split <;> simp
    | some v =>
      have hk : ¬ k % 2 = 0 := fun h => nomatch hp.symm.trans (hkey.mpr h)
      simp only [hnum, hk, not_true_eq_false, if_false]
      split <;> simp
  · simp [hnum]

/-- A token that is read opens a pair or closes the one that is open. -/
theorem key_eq_none_iff_of_parseToken {w : Nat} {p p' : Parse} {t : List Byte}
    (h : parseToken w p t = .ok p') : p'.key = none ↔ p.key ≠ none := by
  unfold parseToken at h
  split at h
  · cases h
  · split at h
    · next hp =>
      split at h <;> cases h
      simp [hp]
    · next v hp =>
      split at h <;> cases h
      simp [hp]

theorem exists_parseToken_of_noFault {w k : Nat} {p : Parse} {t : List Byte}
    (hkey : p.key = none ↔ k % 2 = 0) (h : tokenFault w k t = none) :
    ∃ p', parseToken w p t = .ok p' ∧ (p'.key = none ↔ (k + 1) % 2 = 0) := by
  cases hp : parseToken w p t with
  | error e => rw [(tokenFault_eq_some_iff hkey).mpr hp] at h; cases h
  | ok p' =>
    refine ⟨p', rfl, ?_⟩
    rw [key_eq_none_iff_of_parseToken hp, ne_eq, hkey]
    omega

/-! ### The first fault -/

/-- Number `n` of the tokens left, which are numbered from `k`, is the first at fault: each token is
looked at completely before the next (R182). -/
theorem parseTokens_of_fault {w k n : Nat} {ts : List (List Byte)} {p : Parse} {t : List Byte}
    {e : Kind} (hkey : p.key = none ↔ k % 2 = 0) (ht : ts[n]? = some t)
    (hfault : tokenFault w (k + n) t = some e)
    (hbefore : ∀ j u, j < n → ts[j]? = some u → tokenFault w (k + j) u = none) :
    parseTokens w ts p = .error e := by
  induction n generalizing ts p k with
  | zero =>
    cases ts with
    | nil => cases ht
    | cons x rest =>
      cases ht
      rw [parseTokens, (tokenFault_eq_some_iff hkey).mp hfault]
  | succ n ih =>
    cases ts with
    | nil => cases ht
    | cons x rest =>
      obtain ⟨p', hp', hkey'⟩ :=
        exists_parseToken_of_noFault hkey (hbefore 0 x (Nat.succ_pos n) rfl)
      rw [parseTokens, hp']
      refine ih hkey' ht (by rwa [Nat.succ_add_eq_add_succ]) fun j u hj hu => ?_
      rw [Nat.succ_add_eq_add_succ]
      exact hbefore (j + 1) u (Nat.succ_lt_succ hj) hu

/-! ### The pairs -/

/-- No token of the list is at fault by itself (R180). -/
def Faultless (w : Nat) (ts : List (List Byte)) : Prop :=
  ∀ k t, ts[k]? = some t → tokenFault w k t = none

/-- The byte value and the frequency of each two tokens (R180). -/
def tokenPairs : List (List Byte) → List (Byte × Nat)
  | [] => []
  | [_] => []
  | x :: f :: ts => (byteOf (decVal x), decVal f) :: tokenPairs ts

theorem tokenPairs_getElem?_eq_some_iff {ts : List (List Byte)} {j : Nat} {vf : Byte × Nat} :
    (tokenPairs ts)[j]? = some vf ↔
      ∃ x f, ts[2 * j]? = some x ∧ ts[2 * j + 1]? = some f
        ∧ (byteOf (decVal x), decVal f) = vf := by
  induction ts using tokenPairs.induct generalizing j with
  | case1 => simp [tokenPairs]
  | case2 x => simp [tokenPairs]
  | case3 x f ts ih =>
    cases j with
    | zero => simp [tokenPairs]
    | succ j => exact ih

section

variable {w : Nat} {x f : List Byte} {ts : List (List Byte)}

theorem byteToken_noFault_iff {k : Nat} (hk : k % 2 = 0) {t : List Byte} :
    tokenFault w k t = none ↔ isNumeric t = true ∧ decVal t ≤ 255 := by
  rw [tokenFault, if_pos hk]
  by_cases hnum : isNumeric t = true <;> simp [hnum]

theorem countToken_noFault_iff {k : Nat} (hk : k % 2 = 1) {t : List Byte} :
    tokenFault w k t = none ↔ isNumeric t = true ∧ decVal t < 2 ^ w := by
  have hodd : ¬ k % 2 = 0 := by omega
  rw [tokenFault, if_neg hodd]
  by_cases hnum : isNumeric t = true <;> simp [hnum]

/-- A byte value of a list without fault is one of the 256 (R180). -/
theorem Faultless.toNat_byteOf (h : Faultless w ts) {j : Nat} (hx : ts[2 * j]? = some x) :
    (byteOf (decVal x)).toNat = decVal x :=
  Nat.mod_eq_of_lt (Nat.lt_succ_of_le
    ((byteToken_noFault_iff (Nat.mul_mod_right 2 j)).mp (h (2 * j) x hx)).2)

/-- What is left behind a pair. -/
theorem Faultless.drop_pair (h : Faultless w (x :: f :: ts)) : Faultless w ts := by
  intro k t ht
  have hk := h (k + 2) t ht
  rwa [tokenFault, Nat.add_mod_right] at hk

/-- A pair without fault writes its entry (R180). -/
theorem Faultless.parseTokens_pair (h : Faultless w (x :: f :: ts)) (T : Table Nat) (n : Nat) :
    parseTokens w (x :: f :: ts) ⟨T, n, none⟩
      = parseTokens w ts ⟨T.set (byteOf (decVal x)) (decVal f), n + 1, none⟩ := by
  obtain ⟨hxnum, hxle⟩ := (byteToken_noFault_iff rfl).mp (h 0 x rfl)
  obtain ⟨hfnum, hflt⟩ := (countToken_noFault_iff rfl).mp (h 1 f rfl)
  simp only [parseTokens, parseToken, hxnum, hfnum, not_true_eq_false, if_false,
    if_neg (Nat.not_lt.mpr hxle), if_neg (Nat.not_le.mpr hflt)]

/-- `ParseHeader` on a list without fault: every pair is written, and the odd count is looked at
last (R180, R182). -/
theorem Faultless.parseTokens_eq (h : Faultless w ts) (T : Table Nat) (n : Nat) :
    parseTokens w ts ⟨T, n, none⟩
      = if ts.length % 2 = 0 then .ok ((tokenPairs ts).foldl writePair T, n + ts.length / 2)
        else .error .malformedHeader := by
  induction ts using tokenPairs.induct generalizing T n with
  | case1 => rfl
  | case2 x =>
    obtain ⟨p, hp, hkey⟩ := exists_parseToken_of_noFault
      (p := ⟨T, n, none⟩) (iff_of_true rfl rfl) (h 0 x rfl)
    rw [parseTokens, hp]
    exact if_neg fun hnone => nomatch hkey.mp hnone
  | case3 x f ts ih =>
    have hlen : (x :: f :: ts).length = ts.length + 2 := rfl
    have hpairs : n + 1 + ts.length / 2 = n + (ts.length / 2 + 1) := by omega
    rw [h.parseTokens_pair, ih h.drop_pair, hlen, Nat.add_mod_right,
      Nat.add_div_right _ Nat.two_pos, hpairs]
    rfl

/-! ### The table -/

/-- The last frequency given for a byte value stands (R180). -/
theorem Faultless.get_last (h : Faultless w ts) {j : Nat} (hx : ts[2 * j]? = some x)
    (hf : ts[2 * j + 1]? = some f)
    (hlast : ∀ j' y, j < j' → ts[2 * j']? = some y → decVal y ≠ decVal x) (T : Table Nat) :
    ((tokenPairs ts).foldl writePair T).get (byteOf (decVal x)) = decVal f := by
  have hj := tokenPairs_getElem?_eq_some_iff.mpr ⟨x, f, hx, hf, rfl⟩
  obtain ⟨hlt, hpair⟩ := List.getElem?_eq_some_iff.mp hj
  have hsplit := List.take_append_drop j (tokenPairs ts)
  rw [List.drop_eq_getElem_cons hlt, hpair] at hsplit
  rw [← hsplit]
  refine foldl_writePair_get_last (fun vf hvf hbyte => ?_) T
  obtain ⟨i, hi⟩ := List.mem_iff_getElem?.mp hvf
  rw [List.getElem?_drop] at hi
  obtain ⟨y, g, hy, -, rfl⟩ := tokenPairs_getElem?_eq_some_iff.mp hi
  refine hlast (j + 1 + i) y (by omega) hy ?_
  rw [← h.toNat_byteOf hy, ← h.toNat_byteOf hx]
  exact congrArg BitVec.toNat hbyte

/-- A byte value without a pair keeps its entry. -/
theorem Faultless.get_absent (h : Faultless w ts) {v : Byte}
    (hv : ∀ j x, ts[2 * j]? = some x → decVal x ≠ v.toNat) (T : Table Nat) :
    ((tokenPairs ts).foldl writePair T).get v = T.get v := by
  refine foldl_writePair_get_of_ne (fun vf hvf hbyte => ?_) T
  obtain ⟨i, hi⟩ := List.mem_iff_getElem?.mp hvf
  obtain ⟨x, g, hx, -, rfl⟩ := tokenPairs_getElem?_eq_some_iff.mp hi
  exact hv i x hx ((h.toNat_byteOf hx).symm.trans (congrArg BitVec.toNat hbyte))

end

/-! ### The command -/

section

variable {s : State}

theorem exec_hdParse_ok {T : Table Nat} {n : Nat}
    (h : parseHeader s.par.wFreq s.ibuf = .ok (T, n)) :
    exec .hdParse s = .next ((s.setFreq T).ok (natWord n)) := by
  rw [exec, execHdParse, h]
  rfl

theorem exec_hdParse_error {k : Kind} (h : parseHeader s.par.wFreq s.ibuf = .error k) :
    exec .hdParse s = .next ((s.setFreq (Table.fill 0)).err k.code) := by
  rw [exec, execHdParse, h]
  rfl

end

/-- Settles O45: the first token at fault, or the pairs of a list without one. -/
theorem headerParse : Obligations.HeaderParse := by
  intro s a b toks
  refine ⟨rfl, fun hnone heven => ?_, fun k t kind ht hfault hbefore => ?_, fun hnone hodd => ?_⟩
  · have hfree : Faultless s.par.wFreq toks := hnone
    have hparse := hfree.parseTokens_eq (Table.fill 0) 0
    rw [if_pos heven, Nat.zero_add] at hparse
    exact ⟨_, exec_hdParse_ok hparse,
      fun j x f hx hf hlast => hfree.get_last hx hf hlast (Table.fill 0),
      fun v hv => (hfree.get_absent hv (Table.fill 0)).trans (Table.get_fill 0 v)⟩
  · refine exec_hdParse_error (parseTokens_of_fault (k := 0) (iff_of_true rfl rfl) ht ?_
      fun j u hj hu => ?_)
    · rwa [Nat.zero_add]
    · rw [Nat.zero_add]
      exact hbefore j u hj hu
  · have hfree : Faultless s.par.wFreq toks := hnone
    have hparse := hfree.parseTokens_eq (Table.fill 0) 0
    rw [if_neg (by omega)] at hparse
    exact exec_hdParse_error hparse

end Sys2Proof.Machine
end

section
/-! SUPPORT. The tables of HD.CREATE and HD.PARSE (45_header_codec.md R185, R186): the header
emitter without a `Put` for each byte, and the header parser with the response of HD.PARSE. -/

namespace Sys2Proof.Machine

/-! ### HD.CREATE -/

/-- The bytes of HD.CREATE's header are not checked against the capacity one by one (log 9). -/
theorem headerBytes_of_hdCreate {m : Micro} (hcmd : m.cmd = .hdCreate) (xs : List Byte)
    (k : Micro → Micro) :
    m.headerBytes xs k = k (m.arch fun s => s.setObuf (s.obuf ++ xs)) := by
  induction xs generalizing m with
  | nil => simp [Micro.headerBytes, Micro.arch, State.setObuf]
  | cons x xs ih =>
    rw [Micro.headerBytes, Micro.headerByte, hcmd]
    refine (ih (m := m.arch fun s => s.setObuf (s.obuf ++ [x])) hcmd).trans ?_
    simp [Micro.arch, State.setObuf]

/-- One number of the header, in `dec_buf` and, with the space after it, in the output (R186). -/
def Micro.writeNumber (n : Nat) (m : Micro) : Micro :=
  (m.regs fun w => { w with decBuf := dec n }).arch fun s =>
    s.setObuf (s.obuf ++ (dec n ++ [charSpace]))

theorem heNum_first {m : Micro} (hseq : m.seq = .heNum false) (hcmd : m.cmd = .hdCreate) :
    microStep m = (m.writeNumber m.work.sym).goto (.heNum true) := by
  rw [microStep, hseq]
  exact headerBytes_of_hdCreate (m := Micro.regs _ m) hcmd _ _

theorem heNum_second {m : Micro} (hseq : m.seq = .heNum true) (hcmd : m.cmd = .hdCreate) :
    microStep m = ((m.writeNumber (m.st.freq.get (byteOf m.work.sym))).regs
      fun w => { w with sym := w.sym + 1 }).goto .heScan := by
  rw [microStep, hseq]
  exact headerBytes_of_hdCreate (m := Micro.regs _ m) hcmd _ _

/-- `HE_SCAN` and `HE_NUM` of HD.CREATE from byte value `sym` on: the pairs of the header, with the
space after the last one (R186). -/
theorem heScan_reaches {n : Nat} {m : Micro} {out : List Byte} (hseq : m.seq = .heScan)
    (hcmd : m.cmd = .hdCreate) (hn : m.work.sym + n = nSym)
    (hout : m.st.obuf ++ (m.st.freq.entries.drop m.work.sym).flatMap headerPair = out) :
    Reaches m (m.st.setObuf out) (Micro.goto .heTrim) := by
  induction n generalizing m with
  | zero =>
    have hstep : microStep m = heScanStep m := by rw [microStep, hseq]
    have heq : m.work.sym = nSym := hn
    have hnil : m.st.freq.entries.drop nSym = [] := by simp [Table.entries_eq]
    rw [heScanStep, if_pos heq] at hstep
    rw [heq, hnil, List.flatMap_nil, List.append_nil] at hout
    exact .last hstep (by rw [← hout]; rfl) rfl
  | succ n ih =>
    have hstep : microStep m = heScanStep m := by rw [microStep, hseq]
    have hlt : m.work.sym < nSym := by omega
    have hnext := (Nat.succ_add_eq_add_succ m.work.sym n).trans hn
    have hsym : (byteOf m.work.sym).toNat = m.work.sym := Nat.mod_eq_of_lt hlt
    rw [heScanStep, if_neg (Nat.ne_of_lt hlt)] at hstep
    rw [Table.entries_drop _ hlt, List.flatMap_cons, headerPair, hsym] at hout
    by_cases hzero : m.st.freq.get (byteOf m.work.sym) = 0
    · rw [if_pos hzero] at hstep hout
      exact .visit hstep rfl (ih (m := Micro.regs _ _) hseq hcmd hnext hout)
    · rw [if_neg hzero] at hstep hout
      have hpair : m.st.obuf ++ (dec m.work.sym ++ [charSpace])
          ++ (dec (m.st.freq.get (byteOf m.work.sym)) ++ [charSpace])
          ++ (m.st.freq.entries.drop (m.work.sym + 1)).flatMap headerPair = out := by
        rw [← hout]
        simp only [List.append_assoc]
      -- `HE_SCAN`, then `HE_NUM` for the byte value and for its frequency.
      exact .visit hstep rfl (.visit (heNum_first rfl hcmd) rfl
        (.visit (heNum_second rfl hcmd) rfl (ih (m := Micro.goto .heScan _) rfl hcmd hnext hpair)))

/-- `HE_TRIM` of HD.CREATE takes the last space back and checks the header's length (R177, R186). -/
theorem heTrim_leads {m : Micro} {pairs : List Byte} {s : State} (hseq : m.seq = .heTrim)
    (hcmd : m.cmd = .hdCreate) (hst : m.st = s.setObuf pairs)
    (hpairs : pairs.dropLast = createHeader s.freq) :
    Leads m fun m' => m'.seq = .idle ∧ exec .hdCreate s = .next m'.st := by
  have hstep : microStep m = heTrimStep m := by rw [microStep, hseq]
  have htrim : m.arch (fun s => s.setObuf s.obuf.dropLast)
      = { m with st := s.setObuf (createHeader s.freq) } := by
    rw [Micro.arch, hst, ← hpairs]
    rfl
  simp only [heTrimStep, htrim, hcmd, hst, State.setObuf_par, State.setObuf_obuf] at hstep
  split at hstep
  · next hfull => exact .visit hstep (.here ⟨rfl, exec_hdCreate_full hfull⟩)
  · next hfits => exact .visit hstep (.here ⟨rfl, exec_hdCreate_fits (Nat.le_of_not_lt hfits)⟩)

/-- HD.CREATE by its table. -/
theorem sequencerAgrees_hdCreate (s : State) : SequencerAgrees .hdCreate s := by
  rw [sequencerAgrees_iff]
  exact (heScan_reaches (m := Micro.begin .hdCreate s) (n := nSym) rfl rfl rfl rfl).leads
    fun m₀ hst hcmd => heTrim_leads (m := m₀.goto .heTrim) rfl hcmd hst rfl

/-! ### HD.PARSE -/

/-- The end of the header is the end of HD.PARSE: its response, or `HP_FAIL`, which clears `FREQ`
(R181, R182). -/
theorem parseEnd_leads {m : Micro} {s : State} {r : Except Kind (Table Nat × Nat)}
    (hparse : parseHeader s.par.wFreq s.ibuf = r) (hcmd : m.cmd = .hdParse)
    (hst : m.st = s.setFreq m.st.freq) (hfreq : ∀ tn, r = .ok tn → m.st.freq = tn.1) :
    Leads (parseEnd r m) fun m' => m'.seq = .idle ∧ exec .hdParse s = .next m'.st := by
  cases r with
  | error k =>
    have hstep : microStep (m.failTo .hpFail k) = hpFailStep (m.failTo .hpFail k) := rfl
    have hcmd' : (m.failTo .hpFail k).cmd = .hdParse := hcmd
    rw [hpFailStep, hcmd'] at hstep
    have hraise : raise .headerReader k (s.setFreq m.st.freq) = raise .headerReader k m.st := by
      rw [← hst]
    exact .visit hstep (.here ⟨rfl, (exec_hdParse_error hparse).trans hraise⟩)
  | ok tn =>
    rw [hfreq tn rfl] at hst
    rw [parseEnd, hcmd]
    refine .here ⟨rfl, (exec_hdParse_ok hparse).trans ?_⟩
    rw [Micro.next_finish, hst, respond_eq]

/-- HD.PARSE by its table, where a counter can hold a byte value (log 9). -/
theorem sequencerAgrees_hdParse {s : State} (hw : 8 ≤ s.par.wFreq) :
    SequencerAgrees .hdParse s := by
  rw [sequencerAgrees_iff]
  have hparses : Parses (Micro.begin .hdParse s) (parseHeader s.par.wFreq s.ibuf) :=
    parses_hpInit rfl rfl hw (List.append_nil s.ibuf).symm rfl
  refine Leads.trans hparses ?_
  rintro _ ⟨m₀, hst, hctx, hfreq, rfl⟩
  exact parseEnd_leads rfl (Micro.cmd_eq_of_context hctx) hst hfreq

/-- Settles O58: the emitter pair by pair, and the parser token by token. -/
theorem headerSequencersAgree : Obligations.HeaderSequencersAgree :=
  fun s => ⟨sequencerAgrees_hdCreate s, sequencerAgrees_hdParse⟩

end Sys2Proof.Machine
end

section
/-! SUPPORT. The system commands and the byte buffers (46_system_and_buffers.md R190 to R195): the words
of the CSR file, a buffer with one more byte, and each command by its checks. -/

namespace Sys2Proof.Machine

/-- CLEAR is `WipeWork()` and `LASTERR <- 0` (R190), the wiped state by its reset values. -/
theorem exec_clear (s : State) :
    exec .clear s = .next ((s.wiped.setLastErr 0#8).ok 0#64) := by
  rw [wiped_eq_wipeWork, exec, execClear, respond_eq]

/-- Settles O19: the wiped state is the reset state with `IBUF`, `CONFIG` and the host's pins kept. -/
theorem clearWipesWorkingState : Obligations.ClearWipesWorkingState :=
  fun s _ _ => ⟨rfl, exec_clear s, exec_clear s⟩

/-! ### The words of the CSR file -/

/-- `CONFIG` reads as its one bit (R34). -/
theorem State.configWord_eq (s : State) : s.configWord = natWord (if s.pack then 1 else 0) := by
  rw [configWord]
  cases s.pack <;> rfl

/-- `STATUS` is the sum of its four bits (R35). -/
theorem State.statusWord_eq (s : State) :
    s.statusWord = natWord ((if s.rootValid then 1 else 0) + (if s.single then 2 else 0)
      + (if s.emptyFlag then 4 else 0) + (if s.codesValid then 8 else 0)) := by
  rw [statusWord]
  cases s.codesValid <;> cases s.emptyFlag <;> cases s.single <;> cases s.rootValid <;> rfl

/-- `ROOT` reads as 0 without a root (R37). -/
theorem State.rootWord_of_none {s : State} (hroot : s.root = none) : s.rootWord = 0#64 := by
  rw [rootWord, hroot]

/-- `ROOT` of a root that fits its nine bits (R37). -/
theorem State.rootWord_of_lt {s : State} {r : Nat} (hroot : s.root = some r) (hr : r < 2 ^ 9) :
    s.rootWord = natWord (65536 + r) := by
  refine BitVec.eq_of_toNat_eq ?_
  rw [rootWord, hroot, natWord, BitVec.toNat_setWidth, toNat_append_eq_add, BitVec.toNat_ofNat,
    BitVec.toNat_ofNat, Nat.mod_eq_of_lt hr]
  rfl

/-- Within the invariant a root has 9 bits (R22 clauses a and g). -/
theorem Inv.root_lt {s : State} (h : Inv s) {r : Nat} (hroot : s.root = some r) : r < 2 ^ 9 := by
  have hr : r < 511 := (h.rootAllocated r hroot).trans_le h.nodeCount
  omega

/-! ### CSR.READ and CSR.WRITE -/

section

variable {s : State} {a b : Nat}

theorem exec_csrRead_badOperand (h : 6 < a) : exec (.csrRead a) s = .next (s.err 7#8) := by
  rw [exec, execCsrRead, if_pos (Nat.not_le.mpr h)]
  rfl

theorem exec_csrRead_ok {w : Word} (ha : isCsr a) (hw : s.csr a = w) :
    exec (.csrRead a) s = .next (s.ok w) := by
  rw [exec, execCsrRead, if_neg (not_not.mpr ha), respond_eq, hw]

theorem exec_csrWrite_badIndex (h : a ≠ 0) : exec (.csrWrite a b) s = .next (s.err 7#8) := by
  by_cases ha : isCsr a
  · rw [exec, execCsrWrite, if_neg (not_not.mpr ha), if_pos h]
    rfl
  · rw [exec, execCsrWrite, if_pos ha]
    rfl

theorem exec_csrWrite_packUnsupported (hb : bit0 b = true) (hp : s.par.packSupported = false) :
    exec (.csrWrite 0 b) s = .next (s.err 7#8) := by
  simp [exec, execCsrWrite, hb, hp, raise_primitive, Kind.code]

theorem exec_csrWrite_ok (h : bit0 b = true → s.par.packSupported = true) :
    exec (.csrWrite 0 b) s = .next ((s.setPack (bit0 b)).ok 0#64) := by
  have hlegal : ¬ (bit0 b ∧ ¬ s.par.packSupported) := fun ⟨hb, hp⟩ => hp (h hb)
  rw [exec, execCsrWrite, if_neg (not_not.mpr (Nat.zero_le 6)), if_neg (not_not.mpr rfl),
    if_neg hlegal, respond_eq]

theorem bit0_eq_true_iff : bit0 b = true ↔ b % 2 = 1 := beq_iff_eq

theorem bit0_eq_false_iff : bit0 b = false ↔ b % 2 = 0 := by
  rw [← Bool.not_eq_true, bit0_eq_true_iff, ← ne_eq, Nat.mod_two_ne_one]

end

/-- Settles O20: one read of the CSR file, and the word of each register. -/
theorem csrReadLayouts : Obligations.CsrReadLayouts := by
  refine fun s a b => ⟨rfl, exec_csrRead_badOperand, exec_csrRead_ok (by decide) s.configWord_eq,
    exec_csrRead_ok (by decide) (s.statusWord_eq.trans ?_),
    exec_csrRead_ok (by decide) (BitVec.ofNat_toNat ..).symm, exec_csrRead_ok (by decide) rfl,
    exec_csrRead_ok (by decide) rfl, exec_csrRead_ok (by decide) rfl,
    fun hroot => exec_csrRead_ok (by decide) (State.rootWord_of_none hroot),
    fun r hinv hroot =>
      exec_csrRead_ok (by decide) (State.rootWord_of_lt hroot (hinv.root_lt hroot))⟩
  rw [State.rootValid, State.single]
  cases s.root with
  | none => rfl
  | some r => simp only [Node.isLeaf, Option.isNone_iff_eq_none]

/-- Settles O21: the checks, and the bit stored when they pass. -/
theorem csrWriteSetsPackOnly : Obligations.CsrWriteSetsPackOnly := by
  refine fun s a b => ⟨rfl, exec_csrWrite_badIndex,
    fun hb => exec_csrWrite_packUnsupported (bit0_eq_true_iff.mpr hb), fun hb hp => ?_, fun hb => ?_⟩
  · have hbit : bit0 b = true := bit0_eq_true_iff.mpr hb
    exact hbit ▸ exec_csrWrite_ok fun _ => hp
  · have hbit : bit0 b = false := bit0_eq_false_iff.mpr hb
    exact hbit ▸ exec_csrWrite_ok fun h => absurd (hbit.symm.trans h) Bool.false_ne_true

/-! ### IB.RESET, IB.PUT and OB.GET -/

theorem byteAt_concat_length (buf : List Byte) (x : Byte) :
    byteAt (buf ++ [x]) buf.length = some x := List.getElem?_concat_length

theorem byteAt_concat_ne {buf : List Byte} {j : Nat} (x : Byte) (h : j ≠ buf.length) :
    byteAt (buf ++ [x]) j = byteAt buf j := by
  rcases Nat.lt_or_gt_of_ne h with hlt | hgt
  · exact List.getElem?_append_left hlt
  · have hlen : (buf ++ [x]).length ≤ j := by simpa using hgt
    exact (List.getElem?_eq_none hlen).trans (List.getElem?_eq_none hgt.le).symm

section

variable {s : State} {a b : Nat}

theorem exec_ibPut_badOperand (h : 255 < a) : exec (.ibPut a) s = .next (s.err 7#8) := by
  rw [exec, execIbPut, if_pos (Nat.not_le.mpr h)]
  rfl

theorem exec_ibPut_full (ha : isByte a) (hfull : s.ibuf.length = s.par.ibufCap) :
    exec (.ibPut a) s = .next (s.err 5#8) := by
  rw [exec, execIbPut, if_neg (not_not.mpr ha), if_pos hfull]
  rfl

theorem exec_ibPut_ok (ha : isByte a) (hroom : s.ibuf.length ≠ s.par.ibufCap) :
    exec (.ibPut a) s
      = .next ((s.setIbuf (s.ibuf ++ [byteOf a])).ok (natWord (s.ibuf.length + 1))) := by
  rw [exec, execIbPut, if_neg (not_not.mpr ha), if_neg hroom, respond_eq]

theorem exec_obGet_badOperand (h : s.obuf.length ≤ b) :
    exec (.obGet b) s = .next (s.err 7#8) := by
  rw [exec, execObGet, if_pos (Nat.not_lt.mpr h)]
  rfl

theorem exec_obGet_ok {x : Byte} (h : byteAt s.obuf b = some x) :
    exec (.obGet b) s = .next (s.ok (x.setWidth 64)) := by
  obtain ⟨hb, rfl⟩ := List.getElem?_eq_some_iff.mp h
  rw [exec, execObGet, if_neg (not_not.mpr hb), respond_eq, List.getD_eq_getElem _ _ hb]

end

/-- Settles O22: each command by its checks, and the buffer with one more byte at its end. -/
theorem bufferCommands : Obligations.BufferCommands := fun s a _ =>
  ⟨⟨rfl, rfl, rfl⟩, rfl, exec_ibPut_badOperand, exec_ibPut_full,
    fun ha hroom => ⟨s.ibuf ++ [byteOf a], exec_ibPut_ok ha hroom, List.length_append,
      byteAt_concat_length .., fun _ => byteAt_concat_ne _⟩,
    exec_obGet_badOperand, fun _ => exec_obGet_ok⟩

end Sys2Proof.Machine
end

section
/-! SUPPORT. Which kinds of error each command raises, by the table of 60_exceptions.md R202: first
the procedures that can fail (`Put`, `ParseHeader`, the walks of DECODE), then all thirty commands. -/

namespace Sys2Proof.Machine

/-- Every error of `r` is of one of `kinds`. -/
def RaisesOnly {α : Type} (kinds : List Kind) (r : Except Kind α) : Prop :=
  ∀ k, r = .error k → k ∈ kinds

section

variable {α β : Type} {kinds : List Kind}

theorem RaisesOnly.ok {a : α} : RaisesOnly kinds (.ok a) := fun _ h => nomatch h

theorem RaisesOnly.error {k : Kind} (hk : k ∈ kinds) :
    RaisesOnly kinds (.error k : Except Kind α) :=
  fun _ h => Except.error.inj h ▸ hk

theorem RaisesOnly.mono {more : List Kind} {r : Except Kind α} (h : RaisesOnly kinds r)
    (hsub : kinds ⊆ more) : RaisesOnly more r :=
  fun k hk => hsub (h k hk)

theorem RaisesOnly.bind {r : Except Kind α} {f : α → Except Kind β} (h : RaisesOnly kinds r)
    (hf : ∀ a, RaisesOnly kinds (f a)) : RaisesOnly kinds (r.bind f) := by
  cases r with
  | error k => exact .error (h k rfl)
  | ok a => exact hf a

theorem RaisesOnly.map {r : Except Kind α} (h : RaisesOnly kinds r) (f : α → β) :
    RaisesOnly kinds (r.map f) := by
  cases r with
  | error k => exact .error (h k rfl)
  | ok a => exact .ok

end

/-! ### The output buffer -/

theorem put_raisesOnly (cap : Nat) (x : Byte) (out : List Byte) :
    RaisesOnly [.capacity] (put cap x out) :=
  fun _ h => List.mem_singleton.mpr (put_error_iff.mp h).2

theorem putAll_raisesOnly {cap : Nat} {xs out : List Byte} (h : out.length ≤ cap) :
    RaisesOnly [.capacity] (putAll cap xs out) := by
  rw [putAll_eq h]
  split
  · exact .ok
  · exact .error (List.mem_singleton_self _)

/-! ### The header -/

theorem parseToken_raisesOnly (w : Nat) (p : Parse) (t : List Byte) :
    RaisesOnly [.malformedHeader, .capacity] (parseToken w p t) := by
  unfold parseToken
  split
  · exact .error (by decide)
  · split
    · split
      · exact .error (by decide)
      · exact .ok
    · split
      · exact .error (by decide)
      · exact .ok

theorem parseTokens_raisesOnly (w : Nat) (ts : List (List Byte)) (p : Parse) :
    RaisesOnly [.malformedHeader, .capacity] (parseTokens w ts p) := by
  induction ts generalizing p with
  | nil =>
    rw [parseTokens]
    split
    · exact .ok
    · exact .error (by decide)
  | cons t ts ih =>
    rw [parseTokens]
    cases ht : parseToken w p t with
    | error k => exact .error (parseToken_raisesOnly w p t k ht)
    | ok p' => exact ih p'

/-- The errors of `ParseHeader` (45_header_codec.md R180, R182). -/
theorem parseHeader_raisesOnly (w : Nat) (bytes : List Byte) :
    RaisesOnly [.malformedHeader, .capacity] (parseHeader w bytes) :=
  parseTokens_raisesOnly w _ _

/-! ### The walks of DECODE -/

section

variable {nodes : List Node} {root cap : Nat}

theorem walkBit_raisesOnly (bit : Bool) (w : Walk) :
    RaisesOnly [.capacity] (walkBit nodes root cap bit w) := by
  rw [walkBit_eq_arrive]
  generalize (if bit then (nodeAt nodes w.cur).right else (nodeAt nodes w.cur).left) = next
  cases hleaf : (nodeAt nodes next).isLeaf with
  | false =>
    rw [arrive_internal hleaf]
    exact .ok
  | true =>
    rw [arrive_leaf hleaf]
    exact (put_raisesOnly _ _ _).map _

theorem walkBits_raisesOnly (total : Nat) (bits : List Bool) (w : Walk) :
    RaisesOnly [.capacity] (walkBits nodes root cap total bits w) := by
  induction bits generalizing w with
  | nil => exact .ok
  | cons bit bits ih =>
    rcases Nat.lt_or_ge w.emitted total with hmore | hdone
    · rw [walkBits_cons hmore]
      exact (walkBit_raisesOnly bit w).bind ih
    · rw [walkBits_done hdone]
      exact .ok

theorem asciiBit_raisesOnly (c : Byte) : RaisesOnly [.malformedBody] (asciiBit c) :=
  fun _ h => List.mem_singleton.mpr (asciiBit_error h)

/-- The errors of `WalkAscii()` (44_decoder.md R163, R164). -/
theorem walkAscii_raisesOnly (body : List Byte) (w : Walk) :
    RaisesOnly [.malformedBody, .capacity] (walkAscii nodes root cap body w) := by
  induction body generalizing w with
  | nil =>
    rw [walkAscii]
    split
    · exact .ok
    · exact .error (by decide)
  | cons c rest ih =>
    rw [walkAscii_cons]
    exact ((asciiBit_raisesOnly c).mono (by decide)).bind fun bit =>
      ((walkBit_raisesOnly bit w).mono (by decide)).bind ih

/-- The errors of `WalkPacked()` (44_decoder.md R165). -/
theorem walkPacked_raisesOnly (total : Nat) (body : List Byte) (w : Walk) :
    RaisesOnly [.malformedBody, .capacity] (walkPacked nodes root cap total body w) := by
  rw [walkPacked_eq]
  refine ((walkBits_raisesOnly total _ w).mono (by decide)).bind fun w' => ?_
  unfold packedEnd
  split
  · exact .error (by decide)
  · exact .ok

end

theorem decodeOutput_raisesOnly (cap : Nat) (pack : Bool) (nodes : List Node) (root : Option Nat)
    (body : List Byte) :
    RaisesOnly [.malformedBody, .capacity] (decodeOutput cap pack nodes root body) := by
  unfold decodeOutput
  split
  · exact .ok
  · split
    · rw [putRepeat_eq_putAll]
      exact (putAll_raisesOnly (Nat.zero_le _)).mono (by decide)
    · cases pack with
      | false => exact walkAscii_raisesOnly _ _
      | true => exact walkPacked_raisesOnly _ _ _

/-! ### The composite commands -/

/-- ENCODE fails only for want of room (43_encoder.md R146). -/
theorem encodeRun_raisesOnly (s : State) : RaisesOnly (errorKinds .encode) (encodeRun s) := by
  rw [encodeRun_eq_putAll]
  exact (putAll_raisesOnly (Nat.zero_le _)).map _

/-- DECODE fails in its header or in its output (44_decoder.md R162). -/
theorem decodeRun_raisesOnly (s : State) : RaisesOnly (errorKinds .decode) (decodeRun s) := by
  rw [decodeRun_eq_bind]
  exact ((parseHeader_raisesOnly _ _).mono (by decide)).bind fun _ =>
    ((decodeOutput_raisesOnly _ _ _ _ _).mono (by decide)).map _

/-! ### All commands -/

/-- `o` is a success, or the failure of command `i` in state `s` with a kind of its row of R202. -/
def FailsByTable (i : Instr) (s : State) (o : Result) : Prop :=
  (∃ d t, o = respond d t) ∨ ∃ k ∈ errorKinds i, o = raise (failClass i) k s

theorem FailsByTable.respond {i : Instr} {s : State} {d : Word} {t : State} :
    FailsByTable i s (respond d t) := .inl ⟨d, t, rfl⟩

theorem FailsByTable.raise {i : Instr} {s : State} {k : Kind}
    (hk : k ∈ errorKinds i := by simp [errorKinds]) :
    FailsByTable i s (raise (failClass i) k s) := .inr ⟨k, hk, rfl⟩

/-- A check that raises a kind of the command's row, before what is answered when it passes. -/
theorem FailsByTable.guard {i : Instr} {s : State} {p : Prop} {hp : Decidable p} {k : Kind}
    {o : Result} (h : FailsByTable i s o) (hk : k ∈ errorKinds i := by simp [errorKinds]) :
    FailsByTable i s (if p then Machine.raise (failClass i) k s else o) := by
  split
  · exact .raise hk
  · exact h

theorem FailsByTable.composite {i : Instr} {s : State} {r : Except Kind State}
    (hclass : failClass i = .composite) (h : RaisesOnly (errorKinds i) r) :
    FailsByTable i s (compositeAnswer s r) := by
  cases r with
  | error k => exact .inr ⟨k, h k rfl, hclass ▸ rfl⟩
  | ok t => exact .respond

/-- Every command fails only as its row of R202 says. -/
theorem exec_failsByTable (i : Instr) (s : State) : FailsByTable i s (exec i s) := by
  cases i with
  | clear | ibReset | fqClear | fqCount | pqClear | pqSize | tbBuild | cgGen => exact .respond
  | csrRead | obGet | fqRead | ndRead | pqPeekAt | pqRemoveAt | pqContains | ctLen | hdCreate =>
    exact .guard .respond
  | ibPut | fqWrite | ndKids | ndEq | pqInsert | ctBits => exact .guard (.guard .respond)
  | csrWrite | ndLeaf => exact .guard (.guard (.guard .respond))
  | ndMerge => exact .guard (.guard (.guard (.guard .respond)))
  | pqRemoveVal a =>
    refine .guard ?_
    cases pqFind s.nodes a s.pq with
    | none => exact .raise
    | some => exact .respond
  | hdParse =>
    cases hparse : parseHeader s.par.wFreq s.ibuf with
    | error k =>
      rw [exec_hdParse_error hparse]
      exact .raise (k := k) (parseHeader_raisesOnly _ _ k hparse)
    | ok tn =>
      rw [exec_hdParse_ok hparse]
      exact .respond
  | encode => exact exec_encode s ▸ .composite rfl (encodeRun_raisesOnly s)
  | decode => exact exec_decode s ▸ .composite rfl (decodeRun_raisesOnly s)

/-- R203's table of states is what `raise` does in each class. -/
theorem afterFailure_eq_failEffect (i : Instr) (s : State) :
    s.afterFailure i = failEffect (failClass i) s := by
  unfold State.afterFailure
  cases failClass i <;> rfl

/-- Settles O13: a failed command has raised a kind of its row in its class; a word that decodes to
no command raises `IllegalCommand` in the first class. -/
theorem failureLeavesTheStateOfItsClass : Obligations.FailureLeavesTheStateOfItsClass := by
  refine ⟨fun i s t r h hr hfail => ?_, fun w s hw => ?_⟩
  · obtain ⟨d, u, ho⟩ | ⟨k, hk, ho⟩ := exec_failsByTable i s
    · cases h.symm.trans ho
      cases hr
      exact absurd rfl hfail
    · cases h.symm.trans ho
      cases hr
      exact ⟨k, hk, rfl, afterFailure_eq_failEffect i s ▸ rfl⟩
  · obtain ⟨i, hi, -⟩ | ⟨-, hrun⟩ := runWord_cases w s
    · exact absurd hi (hw i)
    · exact hrun

end Sys2Proof.Machine
end
